-- ==== Sys2Proof/Syntax.lean ====
section
/-! DEFINITION. The syntax of the CCB's commands and of the host's accesses: the five commands of 30_encoding.md R92 with
their operand fields, the code schemes and channel types the fields select, and the bus accesses of 20_memory.md R60. -/

namespace Sys2Proof

/-- The name of a bit buffer: the value of a SRC or DST field (30_encoding.md R95, 10_state.md R33). -/
inductive BufIdx where
  | b0 | b1 | b2 | b3
  deriving DecidableEq, Repr

/-- The CODE field (30_encoding.md R93): the five named values 0..4, and the unassigned values 5, 6, 7, written `#n` in the
assembler syntax (R101). -/
inductive CodeField where
  | none | rep3 | rep5 | hamming74 | hamming1511
  | unassigned (n : Nat)
  deriving DecidableEq, Repr

/-- The CHAN field (30_encoding.md R94): AWGN 0, RAYLEIGH 1, and the unassigned values 2, 3. -/
inductive ChanField where
  | awgn | rayleigh
  | unassigned (n : Nat)
  deriving DecidableEq, Repr

/-- The commands of 30_encoding.md R92, one constructor per row of spec/opcode_table.json, with the fields each reads. -/
inductive Instr where
  | encode (code : CodeField) (src dst : BufIdx)
  | decode (code : CodeField) (src dst : BufIdx)
  | modulate (src : BufIdx)
  | channel (chan : ChanField) (code : CodeField)
  | slice (dst : BufIdx)
  deriving DecidableEq, Repr

/-- Why a command word is no command (30_encoding.md R90, R99). -/
inductive DecodeError where
  /-- OP is 0x0 or 0x6 to 0xF. -/
  | reservedOp
  /-- OP is one of the five commands and a reserved bit is 1. -/
  | reservedBit
  deriving DecidableEq, Repr

/-- The code schemes of 40_code_schemes.md R120. -/
inductive Scheme where
  | uncoded | repetition3 | repetition5 | hamming74 | hamming1511
  deriving DecidableEq, Repr

/-- The channel types of 30_encoding.md R94. -/
inductive ChannelType where
  | awgn | rayleigh
  deriving DecidableEq, Repr

/-- One host bus access (20_memory.md R60): its byte offset in the CCB's window, its width in bits and, for a write, its byte
strobes and its data. Only a 32-bit access with all strobes is ever accepted; the other widths and strobes are there
because the host can attempt them (60_exceptions.md R248). -/
inductive Access where
  | read (addr : BitVec 20) (width : Nat)
  | write (addr : BitVec 20) (width : Nat) (strobes : BitVec 4) (data : BitVec 32)
  deriving DecidableEq, Repr

/-- The response of the bus to an access (00_scope.md R5, 60_exceptions.md R248). -/
inductive Response where
  /-- a write was accepted -/
  | okay
  /-- a read was accepted and returns the word -/
  | data (w : BitVec 32)
  /-- the access was refused; a refused read returns no word -/
  | busError
  deriving DecidableEq, Repr

end Sys2Proof
end

