-- ==== Sys2Proof/Word.lean ====
section
/-! DEFINITION. The word types of the CCB: bus words, bus addresses and binary64 patterns (00_scope.md R7, R9). -/

namespace Sys2Proof

/-- One 32-bit bus word: the only unit a host access moves (20_memory.md R60, R66). -/
abbrev Word := BitVec 32

/-- A byte address of the CCB's 20-bit register space (20_memory.md R60). -/
abbrev BusAddr := BitVec 20

/-- The bit pattern of a sample, an IEEE 754 binary64 value (00_scope.md R9). -/
abbrev F64 := BitVec 64

end Sys2Proof
end

