-- ==== Sys2Proof/Decode.lean ====
section
/-! DEFINITION. The command word: decoding (30_encoding.md R90 to R96, R100), encoding (R91, R101) and the assembler
spelling (R101). -/

namespace Sys2Proof

/-- The field `w[hi:lo]` of a command word, read as an unsigned number (00_scope.md R7). -/
def wordField (w : Word) (hi lo : Nat) : Nat := w.toNat / 2 ^ lo % 2 ^ (hi + 1 - lo)

/-- A SRC or DST field as a buffer name: every value is legal (30_encoding.md R95). -/
def bufOfField : Nat → BufIdx
  | 0 => .b0
  | 1 => .b1
  | 2 => .b2
  | _ => .b3

/-- A CODE field as its operand (30_encoding.md R93). -/
def codeOfField : Nat → CodeField
  | 0 => .none
  | 1 => .rep3
  | 2 => .rep5
  | 3 => .hamming74
  | 4 => .hamming1511
  | n => .unassigned n

/-- A CHAN field as its operand (30_encoding.md R94). -/
def chanOfField : Nat → ChanField
  | 0 => .awgn
  | 1 => .rayleigh
  | n => .unassigned n

/-- OP is one of the five commands (30_encoding.md R90, R92). -/
def opAssigned (w : Word) : Bool := decide (1 ≤ wordField w 3 0) && decide (wordField w 3 0 ≤ 5)

/-- All of the bits 7, 11:10, 15:14 and 31:18 are 0 (30_encoding.md R90, R91). -/
def reservedClear (w : Word) : Bool :=
  decide (wordField w 7 7 = 0) && decide (wordField w 11 10 = 0) && decide (wordField w 15 14 = 0) &&
    decide (wordField w 31 18 = 0)

/-- The decoder of 30_encoding.md R90: first the reserved OP values, then the reserved bits, then the fields the command
reads; the other fields are ignored (R96). -/
def decode (w : Word) : Except DecodeError Instr :=
  if opAssigned w = false then .error .reservedOp
  else if reservedClear w = false then .error .reservedBit
  else
    let code := codeOfField (wordField w 6 4)
    let chan := chanOfField (wordField w 9 8)
    let src := bufOfField (wordField w 13 12)
    let dst := bufOfField (wordField w 17 16)
    match wordField w 3 0 with
    | 1 => .ok (.encode code src dst)
    | 2 => .ok (.decode code src dst)
    | 3 => .ok (.modulate src)
    | 4 => .ok (.channel chan code)
    | _ => .ok (.slice dst)

/-- A table row's word: the instruction whose bits are `w`, of which the first `nbits` are given and the others are 0. A
command is one 32-bit bus word (30_encoding.md R98). -/
def tableWord (nbits w : Nat) : Word := BitVec.ofNat 32 (w % 2 ^ nbits)

/-- The command the decoder reads from an instruction whose bits are `w`. -/
def decodeTableWord (nbits w : Nat) : Option Instr :=
  match decode (tableWord nbits w) with
  | .ok i => some i
  | .error _ => none

/-! The encoder. -/

/-- The SRC or DST field of a buffer (30_encoding.md R95). -/
def bufNum : BufIdx → Nat
  | .b0 => 0
  | .b1 => 1
  | .b2 => 2
  | .b3 => 3

/-- The CODE field of an operand (30_encoding.md R93, R101). -/
def codeNum : CodeField → Nat
  | .none => 0
  | .rep3 => 1
  | .rep5 => 2
  | .hamming74 => 3
  | .hamming1511 => 4
  | .unassigned n => n % 8

/-- The CHAN field of an operand (30_encoding.md R94, R101). -/
def chanNum : ChanField → Nat
  | .awgn => 0
  | .rayleigh => 1
  | .unassigned n => n % 4

/-- The command word with the given fields and every reserved bit 0 (30_encoding.md R91). -/
def commandWord (op code chan src dst : Nat) : Word :=
  BitVec.ofNat 32 (op + code * 2 ^ 4 + chan * 2 ^ 8 + src * 2 ^ 12 + dst * 2 ^ 16)

/-- The encoding of a command; the fields it does not read are 0 (30_encoding.md R92, R101). -/
def encode : Instr → Word
  | .encode code src dst => commandWord 1 (codeNum code) 0 (bufNum src) (bufNum dst)
  | .decode code src dst => commandWord 2 (codeNum code) 0 (bufNum src) (bufNum dst)
  | .modulate src => commandWord 3 0 0 (bufNum src) 0
  | .channel chan code => commandWord 4 (codeNum code) (chanNum chan) 0 0
  | .slice dst => commandWord 5 0 0 0 (bufNum dst)

/-! The assembler spelling. -/

/-- `<s>`, `<d>` of 30_encoding.md R101, with the letter B. -/
def bufText : BufIdx → String
  | .b0 => "B0"
  | .b1 => "B1"
  | .b2 => "B2"
  | .b3 => "B3"

/-- `<code>` of 30_encoding.md R101. -/
def codeText : CodeField → String
  | .none => "NONE"
  | .rep3 => "REP3"
  | .rep5 => "REP5"
  | .hamming74 => "HAMMING74"
  | .hamming1511 => "HAMMING1511"
  | .unassigned n => "#" ++ toString n

/-- `<chan>` of 30_encoding.md R101. -/
def chanText : ChanField → String
  | .awgn => "AWGN"
  | .rayleigh => "RAYLEIGH"
  | .unassigned n => "#" ++ toString n

/-- The assembler text of a command (30_encoding.md R101). -/
def asmText : Instr → String
  | .encode code src dst => "ENCODE " ++ codeText code ++ ", " ++ bufText src ++ ", " ++ bufText dst
  | .decode code src dst => "DECODE " ++ codeText code ++ ", " ++ bufText src ++ ", " ++ bufText dst
  | .modulate src => "MODULATE " ++ bufText src
  | .channel chan code => "CHANNEL " ++ chanText chan ++ ", " ++ codeText code
  | .slice dst => "SLICE " ++ bufText dst

end Sys2Proof
end

