-- ==== Sys2Proof/Config.lean ====
section
/-! DEFINITION. What an implementation fixes and the values the spec leaves open (00_scope.md R6). The opaque constants
have no body: a claim about the machine holds whatever they are. -/

namespace Sys2Proof

/-- A finite binary64 value: sign, biased exponent 0..2046, fraction. It is the type of a noise draw, so that "The CCB
assumes of next only that v is finite" (43_channel.md R205) holds by construction. -/
structure FiniteF64 where
  sign : Bool
  exponent : Fin 2047
  fraction : BitVec 52
  deriving DecidableEq, Repr, Inhabited

/-- A NaN pattern: sign and a fraction that is not 0, held as the fraction minus 1 (93_implementation_defined.md I7). -/
structure NaN64 where
  sign : Bool
  fractionPred : Fin 4503599627370495
  deriving DecidableEq, Repr, Inhabited

/-- The noise source of 43_channel.md R205, with Σ taken as Nat (log 4). -/
structure NoiseSource where
  seedToState : BitVec 64 → Nat
  next : Nat → FiniteF64 × Nat

/-- The model parameters of 00_scope.md R6 that a command reads: `pow10`, the noise source, and the patterns of the NaNs
CHANNEL computes. -/
structure Params where
  pow10 : F64 → F64
  noise : NoiseSource
  freeNaN : Nat → NaN64

namespace Config

/-- NUM_BIT_BUFFERS is 4 (the constructors of `BufIdx`); MAX_BITS, the capacity of a bit buffer (00_scope.md R6). -/
abbrev maxBits : Nat := 65536

/-- MAX_SAMPLES, the capacity of the sample buffer (00_scope.md R6). -/
abbrev maxSamples : Nat := 65536

/-- CCB_BASE, the host-side base address of the CCB's window: the platform's, left open (20_memory.md R76, log 15). -/
opaque ccbBase : Nat

/-- `NoiseSource.seedToState`, left open (43_channel.md R205, log 4). -/
opaque seedToState : BitVec 64 → Nat

/-- `NoiseSource.next`, left open but for the finiteness of its value (43_channel.md R205, log 4). -/
opaque nextDraw : Nat → FiniteF64 × Nat

/-- The monotone part of `pow10`: a map from the rank of the argument to the rank of the result, left open but for being
monotone (43_channel.md R202, log 5). -/
opaque pow10Rank : Nat →o Nat

/-- The pattern of the n-th NaN that CHANNEL computes, left open (93_implementation_defined.md I7, log 7). -/
opaque freeNaN : Nat → NaN64

/-- The named hypothesis `GaussianLaw(NoiseSource)` of 43_channel.md R210: no rule of the CCB depends on it; a statistical
claim takes it as a premise (log 20). -/
opaque GaussianLaw : NoiseSource → Prop

/-- The noise source of the machine. -/
def noise : NoiseSource := { seedToState := seedToState, next := nextDraw }

end Config
end Sys2Proof
end

