-- ==== Sys2Proof/Machine/Codes.lean ====
section
/-! DEFINITION. The code scheme registry (40_code_schemes.md) and the block functions of the encoder (41_encode.md R152 to
R155) and of the decoder (42_decode.md R172 to R175). A bit is a Bool; addition mod 2 is `xor`, multiplication `and`
(00_scope.md R8). -/

namespace Sys2Proof.Machine

/-- k, the message length of a scheme (40_code_schemes.md R120). -/
def messageLength : Scheme → Nat
  | .uncoded => 1
  | .repetition3 => 1
  | .repetition5 => 1
  | .hamming74 => 4
  | .hamming1511 => 11

/-- n, the codeword length of a scheme (40_code_schemes.md R120). -/
def codewordLength : Scheme → Nat
  | .uncoded => 1
  | .repetition3 => 3
  | .repetition5 => 5
  | .hamming74 => 7
  | .hamming1511 => 15

/-- rate_f = f64(k/n) (40_code_schemes.md R120). -/
def rateF : Scheme → F64
  | .uncoded => 0x3FF0000000000000#64
  | .repetition3 => 0x3FD5555555555555#64
  | .repetition5 => 0x3FC999999999999A#64
  | .hamming74 => 0x3FE2492492492492#64
  | .hamming1511 => 0x3FE7777777777777#64

/-- A row of bits written as the digits of the rules' tables, column 0 first. -/
def bitRow (digits : List Nat) : List Bool := digits.map fun d => decide (d = 1)

/-- G7 (40_code_schemes.md R126). -/
def g7 : List (List Bool) :=
  [ bitRow [1, 1, 1, 0, 0, 0, 0],
    bitRow [1, 0, 0, 1, 1, 0, 0],
    bitRow [0, 1, 0, 1, 0, 1, 0],
    bitRow [1, 1, 0, 1, 0, 0, 1] ]

/-- H7 (40_code_schemes.md R125). -/
def h7 : List (List Bool) :=
  [ bitRow [0, 0, 0, 1, 1, 1, 1],
    bitRow [0, 1, 1, 0, 0, 1, 1],
    bitRow [1, 0, 1, 0, 1, 0, 1] ]

/-- G15 = [Qᵗ | I11] (40_code_schemes.md R128). -/
def g15 : List (List Bool) :=
  [ bitRow [0, 0, 1, 1, 1, 0, 0, 0, 0, 0, 0, 0, 0, 0, 0],
    bitRow [0, 1, 0, 1, 0, 1, 0, 0, 0, 0, 0, 0, 0, 0, 0],
    bitRow [0, 1, 1, 0, 0, 0, 1, 0, 0, 0, 0, 0, 0, 0, 0],
    bitRow [0, 1, 1, 1, 0, 0, 0, 1, 0, 0, 0, 0, 0, 0, 0],
    bitRow [1, 0, 0, 1, 0, 0, 0, 0, 1, 0, 0, 0, 0, 0, 0],
    bitRow [1, 0, 1, 0, 0, 0, 0, 0, 0, 1, 0, 0, 0, 0, 0],
    bitRow [1, 0, 1, 1, 0, 0, 0, 0, 0, 0, 1, 0, 0, 0, 0],
    bitRow [1, 1, 0, 0, 0, 0, 0, 0, 0, 0, 0, 1, 0, 0, 0],
    bitRow [1, 1, 0, 1, 0, 0, 0, 0, 0, 0, 0, 0, 1, 0, 0],
    bitRow [1, 1, 1, 0, 0, 0, 0, 0, 0, 0, 0, 0, 0, 1, 0],
    bitRow [1, 1, 1, 1, 0, 0, 0, 0, 0, 0, 0, 0, 0, 0, 1] ]

/-- H15 = [I4 | Q] (40_code_schemes.md R127). -/
def h15 : List (List Bool) :=
  [ bitRow [1, 0, 0, 0, 0, 0, 0, 0, 1, 1, 1, 1, 1, 1, 1],
    bitRow [0, 1, 0, 0, 0, 1, 1, 1, 0, 0, 0, 1, 1, 1, 1],
    bitRow [0, 0, 1, 0, 1, 0, 1, 1, 0, 1, 1, 0, 0, 1, 1],
    bitRow [0, 0, 0, 1, 1, 1, 0, 1, 1, 0, 1, 0, 1, 0, 1] ]

/-- The generator of a scheme, k×n (40_code_schemes.md R122 to R128). -/
def generator : Scheme → List (List Bool)
  | .uncoded => [bitRow [1]]
  | .repetition3 => [bitRow [1, 1, 1]]
  | .repetition5 => [bitRow [1, 1, 1, 1, 1]]
  | .hamming74 => g7
  | .hamming1511 => g15

/-- The parity check of a scheme, (n−k)×n (40_code_schemes.md R122 to R127). -/
def parityCheck : Scheme → List (List Bool)
  | .uncoded => []
  | .repetition3 => [bitRow [1, 1, 0], bitRow [1, 0, 1]]
  | .repetition5 =>
    [bitRow [1, 1, 0, 0, 0], bitRow [1, 0, 1, 0, 0], bitRow [1, 0, 0, 1, 0], bitRow [1, 0, 0, 0, 1]]
  | .hamming74 => h7
  | .hamming1511 => h15

/-- The exclusive-or of all the bits, 0 of none (00_scope.md R8). -/
def xorAll (bits : List Bool) : Bool := bits.foldr xor false

/-- The sum mod 2 of the products of two rows. -/
def dot (a b : List Bool) : Bool := xorAll (List.zipWith and a b)

/-- The elementwise sum mod 2 of two rows. -/
def addRows (a b : List Bool) : List Bool := List.zipWith xor a b

/-- `m·G` for a row `m` and a matrix `G` of `n` columns: the sum of the rows of `G` that `m` selects (00_scope.md R8). -/
def rowTimes (n : Nat) (m : List Bool) (g : List (List Bool)) : List Bool :=
  (List.zipWith (fun b row => row.map (b && ·)) m g).foldr addRows (List.replicate n false)

/-- `H·c` for a column `c`: the syndrome (40_code_schemes.md R122). -/
def syndrome (h : List (List Bool)) (c : List Bool) : List Bool := h.map fun row => dot row c

/-- The bits read as a binary numeral, the first the most significant. -/
def bitsValue (bits : List Bool) : Nat := bits.foldl (fun v b => 2 * v + b.toNat) 0

/-- `encBlock` of 41_encode.md: R152 Uncoded, R153 Repetition, R154 Hamming(7,4), R155 Hamming(15,11). -/
def encBlock (sc : Scheme) (m : List Bool) : List Bool :=
  match sc with
  | .uncoded => m
  | .repetition3 => m.flatMap (List.replicate 3)
  | .repetition5 => m.flatMap (List.replicate 5)
  | .hamming74 => rowTimes 7 m g7
  | .hamming1511 => rowTimes 15 m g15

/-- The majority vote of 42_decode.md R173: 1 when the 1s are more than half the factor `r`; a tie gives 0. -/
def majority (r : Nat) (c : List Bool) : Bool := decide (r < 2 * c.count true)

/-- The block of 7 after single-error correction (42_decode.md R174): a syndrome value v ≠ 0 flips position v. -/
def correct7 (c : List Bool) : List Bool :=
  let v := bitsValue (syndrome h7 c)
  if v = 0 then c else c.modify (v - 1) not

/-- `decBlock` of 42_decode.md: R172 Uncoded, R173 Repetition, R174 Hamming(7,4), R175 Hamming(15,11), which corrects
nothing. -/
def decBlock (sc : Scheme) (c : List Bool) : List Bool :=
  match sc with
  | .uncoded => c
  | .repetition3 => [majority 3 c]
  | .repetition5 => [majority 5 c]
  | .hamming74 => [2, 4, 5, 6].map fun j => (correct7 c).getD j false
  | .hamming1511 => c.drop 4

/-- `m[b·len .. b·len + len − 1]`, block number `b` of a sequence (00_scope.md R8). -/
def blockAt (len b : Nat) (m : List Bool) : List Bool := (m.drop (b * len)).take len

/-- The concatenated codewords of the blocks of a message, the loop of 41_encode.md R150. -/
def encodeBits (sc : Scheme) (m : List Bool) : List Bool :=
  (List.range (m.length / messageLength sc)).flatMap fun b => encBlock sc (blockAt (messageLength sc) b m)

/-- The concatenated messages of the blocks of a received sequence, the loop of 42_decode.md R170. -/
def decodeBits (sc : Scheme) (r : List Bool) : List Bool :=
  (List.range (r.length / codewordLength sc)).flatMap fun b => decBlock sc (blockAt (codewordLength sc) b r)

end Sys2Proof.Machine
end

