-- ==== Sys2Proof/Machine/State.lean ====
section
/-! DEFINITION. The state of the CCB (10_state.md R32, R46), the reasons a step can stop, and the state after power-on
reset (70_reset_and_hazards.md R270). -/

namespace Sys2Proof.Machine

/-- Storage whose cells hold a value or are unwritten: the written cells as (index, value), indices strictly rising. An
index that is not listed is unwritten and holds no value (00_scope.md R11). -/
abbrev Cells (α : Type) := List (Nat × α)

/-- A bit buffer: its length and its cells (10_state.md R33). -/
structure BitBuffer where
  len : Nat
  cells : Cells Bool
  deriving DecidableEq, Repr

/-- What a sample cell holds once the host has stored at least one of its halves (20_memory.md R64). Only `whole` is a
written cell; the other two are still unwritten (log 11). -/
inductive SampleCell where
  /-- only bits [31:0] have been stored -/
  | lowOnly (w : Word)
  /-- only bits [63:32] have been stored -/
  | highOnly (w : Word)
  /-- the cell is written -/
  | whole (v : F64)
  deriving DecidableEq, Repr

/-- The sample buffer: its length and its cells (10_state.md R35). -/
structure SampleBuffer where
  len : Nat
  cells : Cells SampleCell
  deriving DecidableEq, Repr

/-- The values of STATUS.LAST_ERR; 4 to 7 are never produced (10_state.md R37, 93_implementation_defined.md I10). -/
inductive LastErr where
  | none | shape | illegalCmd | capacity
  deriving DecidableEq, Repr

/-- Why a step stops with a fault. -/
inductive Fault where
  /-- `UnwrittenRead` (00_scope.md R11, 60_exceptions.md R249): raised by a host read of a window word, or by a command, that
  reads a cell nothing has written. Safe: the hardware goes on with a value the spec does not define. -/
  | unwrittenRead
  deriving DecidableEq, Repr

/-- Why a step has no meaning. -/
inductive Refusal where
  /-- An instruction of the opcode table that has no meaning yet; raised by `exec` only, and by none of its arms now. Safe. -/
  | notModelled (mnemonic : String)
  deriving DecidableEq, Repr

/-- The state of one CCB. The fields to `rng` are the spec's (10_state.md R32); `nanCount`, `pending` and `responses` are the
model's own (log 1, log 3, log 7). -/
structure State where
  /-- bit buffer B0 (10_state.md R33) -/
  b0 : BitBuffer
  /-- bit buffer B1 -/
  b1 : BitBuffer
  /-- bit buffer B2 -/
  b2 : BitBuffer
  /-- bit buffer B3 -/
  b3 : BitBuffer
  /-- the sample buffer S (10_state.md R35) -/
  samples : SampleBuffer
  /-- STATUS.LAST_ERR (10_state.md R37) -/
  lastErr : LastErr
  /-- STATUS.ERR_STICKY (10_state.md R37) -/
  errSticky : Bool
  /-- SNR_DB (10_state.md R39) -/
  snrDb : F64
  /-- RNG_SEED (10_state.md R40) -/
  rngSeed : BitVec 64
  /-- the hidden RNG state (10_state.md R43) -/
  rng : Nat
  /-- how many NaN patterns CHANNEL has taken from `Config.freeNaN` (log 7) -/
  nanCount : Nat
  /-- the host accesses still to come, oldest first (log 1) -/
  pending : List Access
  /-- the bus responses given so far, newest first (00_scope.md R5, log 3) -/
  responses : List Response
  deriving DecidableEq, Repr

/-- A bit buffer after power-on: length 0, all cells unwritten (10_state.md R46). -/
def BitBuffer.empty : BitBuffer := { len := 0, cells := [] }

/-- The sample buffer after power-on: length 0, all cells unwritten (10_state.md R46). -/
def SampleBuffer.empty : SampleBuffer := { len := 0, cells := [] }

/-- The state after power-on reset (10_state.md R46, 70_reset_and_hazards.md R270). -/
def State.reset : State :=
  { b0 := BitBuffer.empty
    b1 := BitBuffer.empty
    b2 := BitBuffer.empty
    b3 := BitBuffer.empty
    samples := SampleBuffer.empty
    lastErr := .none
    errSticky := false
    snrDb := 0x0000000000000000#64
    rngSeed := 0x0000000000000000#64
    rng := Config.noise.seedToState 0x0000000000000000#64
    nanCount := 0
    pending := []
    responses := [] }

end Sys2Proof.Machine
end

