-- ==== Sys2Proof/Machine/Flags.lean ====
section
/-! DEFINITION. The status flags of the CCB, STATUS.LAST_ERR and STATUS.ERR_STICKY (10_state.md R37, R45): their codes, the
STATUS word and the write-one-to-clear. -/

namespace Sys2Proof.Machine

/-- The command errors (60_exceptions.md R240). -/
inductive CommandError where
  | shapeError | illegalCommand | capacityError
  deriving DecidableEq, Repr

/-- The value LAST_ERR takes for an error (60_exceptions.md R240, R243). -/
def errorCode : CommandError → LastErr
  | .shapeError => .shape
  | .illegalCommand => .illegalCmd
  | .capacityError => .capacity

/-- The 3-bit code of LAST_ERR (10_state.md R37). -/
def lastErrNum : LastErr → Nat
  | .none => 0
  | .shape => 1
  | .illegalCmd => 2
  | .capacity => 3

/-- The STATUS word: LAST_ERR in bits [2:0], ERR_STICKY in bit 8, the reserved bits 0 (10_state.md R37). -/
def statusWord (s : State) : Word := BitVec.ofNat 32 (lastErrNum s.lastErr + 2 ^ 8 * s.errSticky.toNat)

/-- A host write of STATUS: a 1 in bit 8 clears ERR_STICKY and nothing else changes (10_state.md R37). -/
def writeStatus (v : Word) (s : State) : State := { s with errSticky := s.errSticky && !v.getLsbD 8 }

end Sys2Proof.Machine
end

