-- ==== Sys2Proof/Machine/Binary64.lean ====
section
/-! DEFINITION. IEEE 754 binary64 as 00_scope.md R9 uses it: addition, subtraction, multiplication, division and square root,
each the exact result rounded to nearest, ties to even, and the ordered comparison. An operation that yields a NaN yields
`quietNaN` here, as a stand-in: which NaN a sample holds is settled where CHANNEL stores it (log 8, log 9). -/

namespace Sys2Proof.Machine

/-- The magnitude of +∞: the patterns above it, sign aside, are the NaNs. -/
abbrev infMag : Nat := 0x7FF0000000000000

/-- The pattern without its sign bit. -/
def mag (x : F64) : Nat := x.toNat % 2 ^ 63

/-- The sign bit is set. -/
def isNeg (x : F64) : Bool := decide (2 ^ 63 ≤ x.toNat)

/-- The pattern is a NaN, quiet or signalling, of either sign. -/
def isNaN (x : F64) : Bool := decide (infMag < mag x)

/-- The pattern is +∞ or −∞. -/
def isInf (x : F64) : Bool := decide (mag x = infMag)

/-- The pattern is a zero, a subnormal or a normal number. -/
def isFinite (x : F64) : Bool := decide (mag x < infMag)

/-- The pattern is +0 or −0. -/
def isZero (x : F64) : Bool := decide (mag x = 0)

/-- The pattern with the given sign and magnitude. -/
def ofMag (neg : Bool) (m : Nat) : F64 := BitVec.ofNat 64 ((if neg then 2 ^ 63 else 0) + m)

/-- +0, 1.0, −1.0, 2.0, 10.0 and the infinities: the literals of the rules (00_scope.md R9). -/
abbrev posZero : F64 := 0x0000000000000000#64
abbrev one64 : F64 := 0x3FF0000000000000#64
abbrev minusOne64 : F64 := 0xBFF0000000000000#64
abbrev two64 : F64 := 0x4000000000000000#64
abbrev ten64 : F64 := 0x4024000000000000#64
abbrev posInf : F64 := 0x7FF0000000000000#64
abbrev negInf : F64 := 0xFFF0000000000000#64

/-- The stand-in for a NaN result. -/
abbrev quietNaN : F64 := 0x7FF8000000000000#64

/-- A finite pattern with magnitude `m` has the value `sigOfMag m · 2^(expOfMag m)`, sign aside: the integer significand. -/
def sigOfMag (m : Nat) : Nat := if m / 2 ^ 52 = 0 then m % 2 ^ 52 else 2 ^ 52 + m % 2 ^ 52

/-- The exponent of the integer significand; −1074 for the subnormals and the zeros. -/
def expOfMag (m : Nat) : Int := if m / 2 ^ 52 = 0 then -1074 else (m / 2 ^ 52 : Nat) - 1075

/-- The integer significand of a finite pattern. -/
def sig (x : F64) : Nat := sigOfMag (mag x)

/-- The exponent of the integer significand of a finite pattern. -/
def expo (x : F64) : Int := expOfMag (mag x)

/-- `m / 2^sh` rounded to the nearest integer, ties to even, where `sticky` says that the number to round lies strictly
between `m` and `m + 1`. -/
def roundShift (m sh : Nat) (sticky : Bool) : Nat :=
  let q := m / 2 ^ sh
  let r := m % 2 ^ sh
  if 2 * r < 2 ^ sh then q
  else if 2 ^ sh < 2 * r then q + 1
  else if sticky || decide (q % 2 = 1) then q + 1
  else q

/-- The magnitude of the binary64 value nearest to `m · 2^e`, ties to even, an overflow giving the infinity. With `sticky`
the number to round lies strictly between `m · 2^e` and `(m + 1) · 2^e`; `m` then has 55 bits or more. -/
def roundMag (m : Nat) (e : Int) (sticky : Bool) : Nat :=
  let q : Int := max (e + (Nat.log2 m : Int) - 52) (-1074)
  let n := if q ≤ e then m * 2 ^ (e - q).toNat else roundShift m (q - e).toNat sticky
  min ((q + 1074).toNat * 2 ^ 52 + n) infMag

/-- The binary64 value nearest to `± m · 2^e` (see `roundMag`); 0 keeps its sign. -/
def roundTo (neg : Bool) (m : Nat) (e : Int) (sticky : Bool) : F64 :=
  if m = 0 then ofMag neg 0 else ofMag neg (roundMag m e sticky)

/-- The negation: the sign bit flipped. -/
def fneg (x : F64) : F64 := ofMag (!isNeg x) (mag x)

/-- The integer significand with its sign, scaled to the exponent `e ≤ expo x`. -/
def scaled (x : F64) (e : Int) : Int :=
  (if isNeg x then -1 else 1) * ((sig x * 2 ^ (expo x - e).toNat : Nat) : Int)

/-- `x ⊞ y` (00_scope.md R9): an exact zero sum is −0 when both operands are negative zeros and +0 otherwise. -/
def fadd (x y : F64) : F64 :=
  if isNaN x || isNaN y then quietNaN
  else if isInf x then (if isInf y && (isNeg x != isNeg y) then quietNaN else x)
  else if isInf y then y
  else
    let e := min (expo x) (expo y)
    let t := scaled x e + scaled y e
    if t = 0 then ofMag (isNeg x && isNeg y) 0 else roundTo (decide (t < 0)) t.natAbs e false

/-- `x ⊟ y` (00_scope.md R9). -/
def fsub (x y : F64) : F64 := if isNaN y then quietNaN else fadd x (fneg y)

/-- `x ⊠ y` (00_scope.md R9). -/
def fmul (x y : F64) : F64 :=
  let neg := isNeg x != isNeg y
  if isNaN x || isNaN y then quietNaN
  else if isInf x || isInf y then (if isZero x || isZero y then quietNaN else ofMag neg infMag)
  else roundTo neg (sig x * sig y) (expo x + expo y) false

/-- How far `fdiv` scales the dividend, so that its quotient has 55 bits or more. -/
abbrev divScale : Nat := 110

/-- `x ⊘ y` (00_scope.md R9). -/
def fdiv (x y : F64) : F64 :=
  let neg := isNeg x != isNeg y
  if isNaN x || isNaN y then quietNaN
  else if isInf x then (if isInf y then quietNaN else ofMag neg infMag)
  else if isInf y then ofMag neg 0
  else if isZero y then (if isZero x then quietNaN else ofMag neg infMag)
  else
    let a := sig x * 2 ^ divScale
    roundTo neg (a / sig y) (expo x - expo y - (divScale : Int)) (decide (a % sig y ≠ 0))

/-- The integer square root of `n < 4^b`: bit by bit from the most significant, `r` being the part found so far. -/
def isqrtFrom (n : Nat) : Nat → Nat → Nat
  | 0, r => r
  | b + 1, r => if (r + 2 ^ b) * (r + 2 ^ b) ≤ n then isqrtFrom n b (r + 2 ^ b) else isqrtFrom n b r

/-- `fsqrt x` (00_scope.md R9): √(−0) is −0 and the square root of any other negative number is a NaN. -/
def fsqrt (x : F64) : F64 :=
  if isNaN x then quietNaN
  else if isZero x then x
  else if isNeg x then quietNaN
  else if isInf x then x
  else
    let sh : Nat := if expo x % 2 = 0 then 110 else 111
    let a := sig x * 2 ^ sh
    let r := isqrtFrom a 83 0
    roundTo false r ((expo x - (sh : Int)) / 2) (decide (r * r ≠ a))

/-- The order of the non-NaN patterns by value; both zeros have 0. -/
def orderKey (x : F64) : Int := if isNeg x then -(mag x : Int) else (mag x : Int)

/-- `x > y` (00_scope.md R9): the ordered comparison, false when either operand is a NaN. -/
def fgt (x y : F64) : Bool := !isNaN x && !isNaN y && decide (orderKey y < orderKey x)

/-- The pattern of a finite value. -/
def finiteBits (d : FiniteF64) : F64 := ofMag d.sign (d.exponent.val * 2 ^ 52 + d.fraction.toNat)

/-- The pattern of a NaN. -/
def nanBits (n : NaN64) : F64 := ofMag n.sign (infMag + 1 + n.fractionPred.val)

end Sys2Proof.Machine
end

