-- ==== Sys2Proof/Machine/Pow10.lean ====
section
/-! DEFINITION. `pow10`, the parameter standing for x ↦ 10^x (43_channel.md R202): the machine's, a free function that has
the named properties (log 5) and never returns −0 (log 21), and the default R202 names, the correctly rounded 10^x, which no step uses (log 6). -/

namespace Sys2Proof.Machine

/-- The exact binary64 value of a natural number that has one. -/
def natToF64 (n : Nat) : F64 := roundTo false n 0 false

/-- The rank of a non-NaN pattern in the order of the values; both zeros have the same. -/
def orderRank (x : F64) : Nat := (orderKey x + 2 ^ 63).toNat

/-- The arguments at which R202 fixes `pow10`, as (rank of the argument, magnitude of the result): −∞ gives +0, an integer n
from 0 to 22 gives 10^n, +∞ gives +∞. -/
def pow10Pins : List (Nat × Nat) :=
  (orderRank negInf, 0) ::
    ((List.range 23).map fun n => (orderRank (natToF64 n), mag (natToF64 (10 ^ n)))) ++ [(orderRank posInf, infMag)]

/-- The largest result fixed at or below the argument of rank `k`. -/
def pow10Floor (k : Nat) : Nat := (pow10Pins.filter fun p => p.1 ≤ k).foldr (fun p r => max p.2 r) 0

/-- The smallest result fixed at or above the argument of rank `k`. -/
def pow10Ceiling (k : Nat) : Nat := (pow10Pins.filter fun p => k ≤ p.1).foldr (fun p r => min p.2 r) infMag

/-- The function that follows the monotone map `rank` between the fixed arguments (43_channel.md R202, log 5). A zero it returns
is +0, never −0. DESIGN CHOICE, unsafe: R202's `pow10(x) ≥ +0` also holds of −0 in the IEEE order (log 21). -/
def pow10From (rank : Nat →o Nat) (x : F64) : F64 :=
  if isNaN x then quietNaN
  else
    let k := orderRank x
    let lo := pow10Floor k
    let hi := pow10Ceiling k
    ofMag false (if lo = hi then lo else max lo (min (rank k) hi))

/-- The model parameters of the machine: every one of them left open (00_scope.md R6). -/
def machineParams : Params :=
  { pow10 := pow10From Config.pow10Rank
    noise := Config.noise
    freeNaN := Config.freeNaN }

/-! The default: the correctly rounded 10^x. -/

/-- `m / 2^k` in lowest terms. -/
def stripTwos : Nat → Nat → Nat × Nat
  | 0, m => (m, 0)
  | k + 1, m => if m % 2 = 0 then stripTwos k (m / 2) else (m, k + 1)

/-- `p · 2^q ≤ 10^x` for `x = ± m / 2^k`, decided on integers by raising both sides to the power `2^k`. -/
def leTenPow (neg : Bool) (m k p : Nat) (q : Int) : Bool :=
  let num := (p * 2 ^ q.toNat) ^ 2 ^ k
  let den := (2 ^ (-q).toNat) ^ 2 ^ k
  if neg then decide (num * 10 ^ m ≤ den) else decide (num ≤ 10 ^ m * den)

/-- `10^x ≤ p · 2^q` for `x = ± m / 2^k`. -/
def geTenPow (neg : Bool) (m k p : Nat) (q : Int) : Bool :=
  let num := (p * 2 ^ q.toNat) ^ 2 ^ k
  let den := (2 ^ (-q).toNat) ^ 2 ^ k
  if neg then decide (den ≤ num * 10 ^ m) else decide (10 ^ m * den ≤ num)

/-- The largest finite magnitude whose value is at most 10^x, found bit by bit; `r` is the part found so far. -/
def tenPowBelow (neg : Bool) (m k : Nat) : Nat → Nat → Nat
  | 0, r => r
  | b + 1, r =>
    if decide (r + 2 ^ b < infMag) && leTenPow neg m k (sigOfMag (r + 2 ^ b)) (expOfMag (r + 2 ^ b)) then
      tenPowBelow neg m k b (r + 2 ^ b)
    else tenPowBelow neg m k b r

/-- The default of R202: 10^x rounded to nearest, ties to even; an overflow gives +∞ and an underflow a subnormal or +0.
Beyond ±512 the result is +∞ or +0. -/
def pow10Default (x : F64) : F64 :=
  if isNaN x then quietNaN
  else if mag (natToF64 512) ≤ mag x then (if isNeg x then posZero else posInf)
  else
    let neg := isNeg x
    let mk := if 0 ≤ expo x then (sig x * 2 ^ (expo x).toNat, 0) else stripTwos (-(expo x)).toNat (sig x)
    let below := tenPowBelow neg mk.1 mk.2 63 0
    let mid := 2 * sigOfMag below + 1
    let midExp := expOfMag below - 1
    let up :=
      if leTenPow neg mk.1 mk.2 mid midExp then
        if geTenPow neg mk.1 mk.2 mid midExp then decide (below % 2 = 1) else true
      else false
    ofMag false (if up then below + 1 else below)

end Sys2Proof.Machine
end

