-- ==== Sys2Proof/Machine/Ops.lean ====
section
/-! DEFINITION. The named operations: cells (read, write, the read and the write of a whole sequence), the end of a command
(success, or an error raised), and the resets and the seed load. -/

namespace Sys2Proof.Machine

/-! Cells. -/

/-- What the cell at index `i` holds; `none` when it is unwritten (00_scope.md R11). -/
def Cells.get {α : Type} : Cells α → Nat → Option α
  | [], _ => none
  | (j, v) :: rest, i => if j = i then some v else Cells.get rest i

/-- The cells with `v` written at index `i`. -/
def Cells.set {α : Type} : Cells α → Nat → α → Cells α
  | [], i, v => [(i, v)]
  | (j, u) :: rest, i, v =>
    if i < j then (i, v) :: (j, u) :: rest
    else if i = j then (i, v) :: rest
    else (j, u) :: Cells.set rest i v

/-- The cells at `i, i+1, …` holding the values of the list and no others. -/
def Cells.ofList {α : Type} : Nat → List α → Cells α
  | _, [] => []
  | i, v :: vs => (i, v) :: Cells.ofList (i + 1) vs

/-- The cells with index 0 to `vs.length − 1` written with `vs`, every other cell keeping its content (10_state.md R34). -/
def Cells.writePrefix {α : Type} (vs : List α) (c : Cells α) : Cells α :=
  Cells.ofList 0 vs ++ c.filter fun p => decide (vs.length ≤ p.1)

/-- The contents of the `n` cells from index `i` on; `none` when one of them is unwritten. -/
def Cells.read {α : Type} (c : Cells α) : Nat → Nat → Option (List α)
  | _, 0 => some []
  | i, n + 1 =>
    match c.get i, Cells.read c (i + 1) n with
    | some v, some vs => some (v :: vs)
    | _, _ => none

/-- The cells from index `i` on written with the values of the list, one after another. -/
def Cells.write {α : Type} : Cells α → Nat → List α → Cells α
  | c, _, [] => c
  | c, i, v :: vs => Cells.write (c.set i v) (i + 1) vs

/-- The indices rise strictly from `lo` on and stay below `bound`. -/
def Cells.rising {α : Type} (bound : Nat) : Nat → Cells α → Bool
  | _, [] => true
  | lo, (j, _) :: rest => decide (lo ≤ j) && decide (j < bound) && Cells.rising bound (j + 1) rest

/-- The canonical form: indices strictly rising and below the capacity. Every listed cell holds a value, which an unlisted
one does not, so no entry equals what an unlisted index reads as. -/
def Cells.wf {α : Type} (bound : Nat) (c : Cells α) : Bool := Cells.rising bound 0 c

/-! Sample cells. -/

/-- The value of a written sample cell (20_memory.md R64). -/
def SampleCell.value? : SampleCell → Option F64
  | .whole v => some v
  | .lowOnly _ => none
  | .highOnly _ => none

/-- A 64-bit value from its halves, the low word first (20_memory.md R65). -/
def joinHalves (lo hi : Word) : BitVec 64 := hi ++ lo

/-- Bits [31:0] of a 64-bit value. -/
def lowHalf (v : BitVec 64) : Word := v.extractLsb' 0 32

/-- Bits [63:32] of a 64-bit value. -/
def highHalf (v : BitVec 64) : Word := v.extractLsb' 32 32

/-- A sample cell after the host stores its low word (20_memory.md R64). -/
def storeLow (w : Word) : Option SampleCell → SampleCell
  | none => .lowOnly w
  | some (.lowOnly _) => .lowOnly w
  | some (.highOnly h) => .whole (joinHalves w h)
  | some (.whole v) => .whole (joinHalves w (highHalf v))

/-- A sample cell after the host stores its high word (20_memory.md R64). -/
def storeHigh (w : Word) : Option SampleCell → SampleCell
  | none => .highOnly w
  | some (.highOnly _) => .highOnly w
  | some (.lowOnly l) => .whole (joinHalves l w)
  | some (.whole v) => .whole (joinHalves (lowHalf v) w)

/-! The end of a command (60_exceptions.md R243). -/

/-- A raised error: its code in LAST_ERR, ERR_STICKY set, no other state changed (60_exceptions.md R243). It is the CCB's
whole exception mechanism: nothing is saved and control goes nowhere (R251). -/
def raiseError (e : CommandError) (s : State) : Host.Outcome State Fault Refusal :=
  .next { s with lastErr := errorCode e, errSticky := true }

/-- The success of a command whose own writes gave `s`: LAST_ERR is 0 and ERR_STICKY stays (60_exceptions.md R243). -/
def succeed (s : State) : Host.Outcome State Fault Refusal := .next { s with lastErr := .none }

/-! Resets and the seed load. -/

/-- CTRL.SEED_LOAD: `rng <- seedToState(RNG_SEED)` (10_state.md R38). -/
def seedLoad (s : State) : State := { s with rng := machineParams.noise.seedToState s.rngSeed }

/-- A buffer after a soft reset: length 0, its cells kept (10_state.md R46). -/
def BitBuffer.softReset (b : BitBuffer) : BitBuffer := { b with len := 0 }

/-- The soft reset: as power-on, but every buffer and sample cell keeps its content (10_state.md R46,
70_reset_and_hazards.md R271). -/
def softReset (s : State) : State :=
  { s with
    b0 := s.b0.softReset
    b1 := s.b1.softReset
    b2 := s.b2.softReset
    b3 := s.b3.softReset
    samples := { s.samples with len := 0 }
    lastErr := .none
    errSticky := false
    snrDb := 0x0000000000000000#64
    rngSeed := 0x0000000000000000#64
    rng := machineParams.noise.seedToState 0x0000000000000000#64 }

end Sys2Proof.Machine
end

