-- ==== Sys2Proof/Machine/Operands.lean ====
section
/-! DEFINITION. The operand forms of the commands: the CODE and CHAN selectors, the bit buffer named by SRC or DST, and the
sample buffer (30_encoding.md R93 to R97, 10_state.md R30). -/

namespace Sys2Proof.Machine

/-- The scheme a CODE operand selects: the unassigned values resolve to Uncoded (30_encoding.md R93). -/
def resolveCode : CodeField → Scheme
  | .none => .uncoded
  | .rep3 => .repetition3
  | .rep5 => .repetition5
  | .hamming74 => .hamming74
  | .hamming1511 => .hamming1511
  | .unassigned _ => .uncoded

/-- The channel type a CHAN operand selects: the unassigned values resolve to AWGN (30_encoding.md R94). -/
def resolveChan : ChanField → ChannelType
  | .awgn => .awgn
  | .rayleigh => .rayleigh
  | .unassigned _ => .awgn

/-- The bit buffer B[k] (30_encoding.md R95). -/
def State.buf (s : State) : BufIdx → BitBuffer
  | .b0 => s.b0
  | .b1 => s.b1
  | .b2 => s.b2
  | .b3 => s.b3

/-- The state with bit buffer B[k] replaced. -/
def State.setBuf (s : State) (k : BufIdx) (b : BitBuffer) : State :=
  match k with
  | .b0 => { s with b0 := b }
  | .b1 => { s with b1 := b }
  | .b2 => { s with b2 := b }
  | .b3 => { s with b3 := b }

/-- The bit `B[k].bits[i]`; `none` when the cell is unwritten (00_scope.md R10, R11). -/
def State.bit (s : State) (k : BufIdx) (i : Nat) : Option Bool := (s.buf k).cells.get i

/-- The sample `S.vals[i]`; `none` when the cell is not written (00_scope.md R10, R11). -/
def State.sample (s : State) (i : Nat) : Option F64 := (s.samples.cells.get i).bind SampleCell.value?

/-- The bit sequence of a source buffer, read whole before anything is written (41_encode.md R151); `none` when a cell below
its length is unwritten. -/
def State.sourceBits (s : State) (k : BufIdx) : Option (List Bool) := (s.buf k).cells.read 0 (s.buf k).len

/-- The values of a list of sample cells; `none` when one is not written. -/
def sampleValues : List SampleCell → Option (List F64)
  | [] => some []
  | c :: rest =>
    match c.value?, sampleValues rest with
    | some v, some vs => some (v :: vs)
    | _, _ => none

/-- The signal `S.vals[0 .. S.len − 1]`; `none` when one of these cells is not written (10_state.md R35). -/
def State.sourceSamples (s : State) : Option (List F64) :=
  (s.samples.cells.read 0 s.samples.len).bind sampleValues

/-- The destination buffer takes the sequence `out` and its length; the cells beyond keep their content (10_state.md R34,
92_eei_decisions.md D38). -/
def State.storeBits (s : State) (k : BufIdx) (out : List Bool) : State :=
  s.setBuf k { len := out.length, cells := (s.buf k).cells.writePrefix out }

/-- The sample buffer takes the sequence `out` and its length; the cells beyond keep their content (10_state.md R34, R35). -/
def State.storeSamples (s : State) (out : List F64) : State :=
  { s with samples := { len := out.length, cells := s.samples.cells.writePrefix (out.map .whole) } }

end Sys2Proof.Machine
end

