-- ==== Sys2Proof/Machine/Coding.lean ====
section
/-! DEFINITION. The commands ENCODE (41_encode.md R150) and DECODE (42_decode.md R170). -/

namespace Sys2Proof.Machine

/-- ENCODE (41_encode.md R150): the shape check, the capacity check, the snapshot of the source, then the codewords. -/
def execEncode (code : CodeField) (src dst : BufIdx) (s : State) : Host.Outcome State Fault Refusal :=
  let sc := resolveCode code
  let len := (s.buf src).len
  if len % messageLength sc ≠ 0 then raiseError .shapeError s
  else if Config.maxBits < len / messageLength sc * codewordLength sc then raiseError .capacityError s
  else
    match s.sourceBits src with
    | none => .fault .unwrittenRead
    | some m => succeed (s.storeBits dst (encodeBits sc m))

/-- DECODE (42_decode.md R170): the shape check, the snapshot of the source, then the decoded blocks. -/
def execDecode (code : CodeField) (src dst : BufIdx) (s : State) : Host.Outcome State Fault Refusal :=
  let sc := resolveCode code
  if (s.buf src).len % codewordLength sc ≠ 0 then raiseError .shapeError s
  else
    match s.sourceBits src with
    | none => .fault .unwrittenRead
    | some r => succeed (s.storeBits dst (decodeBits sc r))

end Sys2Proof.Machine
end

