-- ==== Sys2Proof/Machine/Signal.lean ====
section
/-! DEFINITION. The commands MODULATE (43_channel.md R200), CHANNEL (R206) and SLICE (44_slicer.md R230), with the noise
deviation (R203), the fading magnitude (R204) and the draws (R205, R209). -/

namespace Sys2Proof.Machine

/-- BPSK: bit 1 gives +1.0 and bit 0 gives −1.0 (43_channel.md R200). -/
def bpsk (b : Bool) : F64 := if b then one64 else minusOne64

/-- MODULATE (43_channel.md R200). -/
def execModulate (src : BufIdx) (s : State) : Host.Outcome State Fault Refusal :=
  match s.sourceBits src with
  | none => .fault .unwrittenRead
  | some m => succeed (s.storeSamples (m.map bpsk))

/-- σ of 43_channel.md R203, evaluated left to right. -/
def sigmaOf (pow10 : F64 → F64) (snr : F64) (sc : Scheme) : F64 :=
  fsqrt (fdiv one64 (fmul (fmul two64 (pow10 (fdiv snr ten64))) (rateF sc)))

/-- The fading magnitude of 43_channel.md R204. -/
def fade (x y : F64) : F64 := fsqrt (fdiv (fadd (fmul x x) (fmul y y)) two64)

/-- A draw: the value and the RNG state after it (43_channel.md R205). -/
def draw (ns : NoiseSource) (rng : Nat) : F64 × Nat := (finiteBits (ns.next rng).1, (ns.next rng).2)

/-- One sample through the AWGN channel: one draw (43_channel.md R207). -/
def awgnSample (ns : NoiseSource) (sigma x : F64) (rng : Nat) : F64 × Nat :=
  let n := draw ns rng
  (fadd x (fmul sigma n.1), n.2)

/-- One sample through the Rayleigh channel: three draws, X then Y then N (43_channel.md R208, R209). -/
def rayleighSample (ns : NoiseSource) (sigma x : F64) (rng : Nat) : F64 × Nat :=
  let dx := draw ns rng
  let dy := draw ns dx.2
  let dn := draw ns dy.2
  (fadd (fmul (fade dx.1 dy.1) x) (fmul sigma dn.1), dn.2)

/-- One sample through the channel. -/
def channelSample (ns : NoiseSource) (chan : ChannelType) (sigma x : F64) (rng : Nat) : F64 × Nat :=
  match chan with
  | .awgn => awgnSample ns sigma x rng
  | .rayleigh => rayleighSample ns sigma x rng

/-- The pattern a sample takes, and the count of free NaN patterns after it: a NaN result takes the next free pattern, any
other result is stored as it is (93_implementation_defined.md I7, log 7). -/
def settleNaN (freeNaN : Nat → NaN64) (y : F64) (count : Nat) : F64 × Nat :=
  if isNaN y then (nanBits (freeNaN count), count + 1) else (y, count)

/-- What the loop of CHANNEL leaves: the new samples, the RNG state and the count of free NaN patterns. -/
structure ChannelResult where
  out : List F64
  rng : Nat
  nanCount : Nat

/-- The loop of CHANNEL over the samples in ascending order (43_channel.md R206, R209). -/
def channelLoop (p : Params) (chan : ChannelType) (sigma : F64) : List F64 → Nat → Nat → ChannelResult
  | [], rng, count => { out := [], rng := rng, nanCount := count }
  | x :: xs, rng, count =>
    let y := channelSample p.noise chan sigma x rng
    let v := settleNaN p.freeNaN y.1 count
    let rest := channelLoop p chan sigma xs y.2 v.2
    { rest with out := v.1 :: rest.out }

/-- CHANNEL under given model parameters (43_channel.md R206): one σ for the command, then the loop, in place. -/
def channelWith (p : Params) (chan : ChannelType) (sc : Scheme) (s : State) : Host.Outcome State Fault Refusal :=
  match s.sourceSamples with
  | none => .fault .unwrittenRead
  | some xs =>
    let r := channelLoop p chan (sigmaOf p.pow10 s.snrDb sc) xs s.rng s.nanCount
    succeed { s.storeSamples r.out with rng := r.rng, nanCount := r.nanCount }

/-- CHANNEL (43_channel.md R206). -/
def execChannel (chan : ChanField) (code : CodeField) (s : State) : Host.Outcome State Fault Refusal :=
  channelWith machineParams (resolveChan chan) (resolveCode code) s

/-- The hard decision: 1 exactly when the sample is above 0 (44_slicer.md R230, R231). -/
def sliceBit (y : F64) : Bool := fgt y posZero

/-- SLICE (44_slicer.md R230). -/
def execSlice (dst : BufIdx) (s : State) : Host.Outcome State Fault Refusal :=
  match s.sourceSamples with
  | none => .fault .unwrittenRead
  | some ys => succeed (s.storeBits dst (ys.map sliceBit))

end Sys2Proof.Machine
end

