-- ==== Sys2Proof/Machine/Dispatch.lean ====
section
/-! DEFINITION. The command dispatch of 30_encoding.md R90: one arm per constructor of Instr. -/

namespace Sys2Proof.Machine

def exec (i : Instr) (s : State) : Host.Outcome State Fault Refusal :=
  match i with
  | .encode code src dst => Sys2Proof.Machine.execEncode code src dst s
  | .decode code src dst => Sys2Proof.Machine.execDecode code src dst s
  | .modulate src => Sys2Proof.Machine.execModulate src s
  | .channel chan code => Sys2Proof.Machine.execChannel chan code s
  | .slice dst => Sys2Proof.Machine.execSlice dst s

end Sys2Proof.Machine
end

