-- ==== Sys2Proof/Machine/Bus.lean ====
section
/-! DEFINITION. The host bus (20_memory.md): the address map, reads, writes, the issue of a command and the response. -/

namespace Sys2Proof.Machine

/-- What an address of the register map reaches (20_memory.md R62 to R64). -/
inductive Target where
  | cmd | status | ctrl
  | snrLow | snrHigh | seedLow | seedHigh
  | bufLen (k : BufIdx)
  | sampleLen
  /-- word `w` of the window of B[k]: the cells 32w to 32w + 31 -/
  | bitWord (k : BufIdx) (w : Nat)
  /-- the low word of sample `i` -/
  | sampleLow (i : Nat)
  /-- the high word of sample `i` -/
  | sampleHigh (i : Nat)
  deriving DecidableEq, Repr

/-- The byte address of CMD (20_memory.md R62). -/
abbrev cmdAddr : BusAddr := 0x00000#20

/-- The registers of the register map (20_memory.md R62); `none` at every other address below the windows. -/
def registerAt : Nat → Option Target
  | 0x00000 => some .cmd
  | 0x00004 => some .status
  | 0x00008 => some .ctrl
  | 0x00010 => some .snrLow
  | 0x00014 => some .snrHigh
  | 0x00018 => some .seedLow
  | 0x0001C => some .seedHigh
  | 0x00020 => some (.bufLen .b0)
  | 0x00024 => some (.bufLen .b1)
  | 0x00028 => some (.bufLen .b2)
  | 0x0002C => some (.bufLen .b3)
  | 0x00030 => some .sampleLen
  | _ => none

/-- The register map (20_memory.md R62): what an aligned address reaches; `none` when it is unmapped (R68). The window of
B[k] has the base 0x10000 + k × 0x2000 (R63) and that of S the base 0x80000 (R64). -/
def mapped (n : Nat) : Option Target :=
  if n < 0x10000 then registerAt n
  else if n < 0x18000 then
    some (.bitWord (bufOfField ((n - 0x10000) / 0x2000)) ((n - 0x10000) % 0x2000 / 4))
  else if n < 0x80000 then none
  else if (n - 0x80000) % 8 = 0 then some (.sampleLow ((n - 0x80000) / 8))
  else some (.sampleHigh ((n - 0x80000) / 8))

/-- What an address reaches; `none` when it is not a multiple of 4 or is unmapped (20_memory.md R60, R67, R68). -/
def busTarget (a : BusAddr) : Option Target := if a.toNat % 4 = 0 then mapped a.toNat else none

/-- The word whose bit j is element j of the list (20_memory.md R63). -/
def wordOfBits (bits : List Bool) : Word := BitVec.ofNat 32 (bits.foldr (fun b n => b.toNat + 2 * n) 0)

/-- The 32 bits of a word, bit 0 first (20_memory.md R63). -/
def bitsOfWord (v : Word) : List Bool := (List.range 32).map fun j => v.getLsbD j

/-- The word a read of a mapped address returns; `none` when the read meets an unwritten cell (20_memory.md R63, R64). CMD and
CTRL read 0 (10_state.md R36, R38). -/
def readTarget (s : State) : Target → Option Word
  | .cmd => some 0#32
  | .status => some (statusWord s)
  | .ctrl => some 0#32
  | .snrLow => some (lowHalf s.snrDb)
  | .snrHigh => some (highHalf s.snrDb)
  | .seedLow => some (lowHalf s.rngSeed)
  | .seedHigh => some (highHalf s.rngSeed)
  | .bufLen k => some (BitVec.ofNat 32 (s.buf k).len)
  | .sampleLen => some (BitVec.ofNat 32 s.samples.len)
  | .bitWord k w => ((s.buf k).cells.read (32 * w) 32).map wordOfBits
  | .sampleLow i => (s.sample i).map lowHalf
  | .sampleHigh i => (s.sample i).map highHalf

/-- A write of CTRL: the soft reset first, the seed load second (10_state.md R38, 70_reset_and_hazards.md R271). -/
def writeCtrl (v : Word) (s : State) : State :=
  let s1 := if v.getLsbD 0 then softReset s else s
  if v.getLsbD 1 then seedLoad s1 else s1

/-- A write of LEN_B[k] of a legal value (10_state.md R41). -/
def writeBufLen (k : BufIdx) (n : Nat) (s : State) : State := s.setBuf k { s.buf k with len := n }

/-- A write of a word of the window of B[k]: all its 32 cells (20_memory.md R63). -/
def writeBitWord (k : BufIdx) (w : Nat) (v : Word) (s : State) : State :=
  s.setBuf k { s.buf k with cells := (s.buf k).cells.write (32 * w) (bitsOfWord v) }

/-- A sample cell replaced; the length stays (20_memory.md R64). -/
def setSampleCell (i : Nat) (c : SampleCell) (s : State) : State :=
  { s with samples := { s.samples with cells := s.samples.cells.set i c } }

/-- Records the response to an access (00_scope.md R5). -/
def respond (r : Response) (s : State) : State := { s with responses := r :: s.responses }

/-- Issues a command word (30_encoding.md R90): an illegal word raises IllegalCommand (60_exceptions.md R247). -/
def issueCommand (w : Word) (s : State) : Host.Outcome State Fault Refusal :=
  match decode w with
  | .error _ => raiseError .illegalCommand s
  | .ok i => exec i s

/-- The answer to an access whose effect ended in the outcome `o`. -/
def respondTo (r : Response) (o : Host.Outcome State Fault Refusal) : Host.Outcome State Fault Refusal :=
  match o with
  | .next s => .next (respond r s)
  | .fault f => .fault f
  | .refused q => .refused q

/-- A refused access: a bus error and no effect on any state (60_exceptions.md R248). -/
def refuseAccess (s : State) : Host.Outcome State Fault Refusal := respondTo .busError (.next s)

/-- A write of a mapped address (20_memory.md R62 to R64). -/
def writeTarget (v : Word) (s : State) : Target → Host.Outcome State Fault Refusal
  | .cmd => respondTo .okay (issueCommand v s)
  | .status => respondTo .okay (.next (writeStatus v s))
  | .ctrl => respondTo .okay (.next (writeCtrl v s))
  | .snrLow => respondTo .okay (.next { s with snrDb := joinHalves v (highHalf s.snrDb) })
  | .snrHigh => respondTo .okay (.next { s with snrDb := joinHalves (lowHalf s.snrDb) v })
  | .seedLow => respondTo .okay (.next { s with rngSeed := joinHalves v (highHalf s.rngSeed) })
  | .seedHigh => respondTo .okay (.next { s with rngSeed := joinHalves (lowHalf s.rngSeed) v })
  | .bufLen k =>
    if v.toNat ≤ Config.maxBits then respondTo .okay (.next (writeBufLen k v.toNat s)) else refuseAccess s
  | .sampleLen =>
    if v.toNat ≤ Config.maxSamples then
      respondTo .okay (.next { s with samples := { s.samples with len := v.toNat } })
    else refuseAccess s
  | .bitWord k w => respondTo .okay (.next (writeBitWord k w v s))
  | .sampleLow i => respondTo .okay (.next (setSampleCell i (storeLow v (s.samples.cells.get i)) s))
  | .sampleHigh i => respondTo .okay (.next (setSampleCell i (storeHigh v (s.samples.cells.get i)) s))

/-- A host read (20_memory.md R60, R68, R69): refused unless it is an aligned 32-bit read of a mapped address; it changes
nothing but the responses. -/
def hostRead (a : BusAddr) (width : Nat) (s : State) : Host.Outcome State Fault Refusal :=
  if width ≠ 32 then refuseAccess s
  else
    match busTarget a with
    | none => refuseAccess s
    | some t =>
      match readTarget s t with
      | none => .fault .unwrittenRead
      | some w => respondTo (.data w) (.next s)

/-- A host write (20_memory.md R60, R68): refused unless it is an aligned 32-bit write of a mapped address with every byte
strobe set. -/
def hostWrite (a : BusAddr) (width : Nat) (strobes : BitVec 4) (v : Word) (s : State) :
    Host.Outcome State Fault Refusal :=
  if width ≠ 32 ∨ strobes ≠ 0b1111#4 then refuseAccess s
  else
    match busTarget a with
    | none => refuseAccess s
    | some t => writeTarget v s t

/-- One host access, taking effect completely (20_memory.md R61). -/
def performAccess (a : Access) (s : State) : Host.Outcome State Fault Refusal :=
  match a with
  | .read addr width => hostRead addr width s
  | .write addr width strobes v => hostWrite addr width strobes v s

/-- The host write that issues the command word `w` (30_encoding.md R90). -/
def issueAccess (w : Word) : Access := .write cmdAddr 32 0b1111#4 w

/-- The state with the access placed before every access still to come. -/
def placeNext (a : Access) (s : State) : State := { s with pending := a :: s.pending }

/-! The host's own addresses (20_memory.md R76). -/

/-- The offset in the CCB's window of an address of the host's space, for a window based at `base`; `none` when the address
is outside the window and the access does not reach the CCB (log 15). -/
def offsetIn (base a : Nat) : Option BusAddr :=
  if base ≤ a ∧ a < base + 2 ^ 20 then some (BitVec.ofNat 20 (a - base)) else none

/-- The host's address of an offset of the CCB's window (20_memory.md R76). -/
def hostAddress (base : Nat) (off : BusAddr) : Nat := base + off.toNat

/-- The read access a host read of its own address makes of this CCB (20_memory.md R76). -/
def readAt (a width : Nat) : Option Access := (offsetIn Config.ccbBase a).map fun o => .read o width

/-- The write access a host write of its own address makes of this CCB (20_memory.md R76). -/
def writeAt (a width : Nat) (strobes : BitVec 4) (v : Word) : Option Access :=
  (offsetIn Config.ccbBase a).map fun o => .write o width strobes v

end Sys2Proof.Machine
end

