-- ==== Sys2Proof/Machine/Step.lean ====
section
/-! DEFINITION. One step: the oldest access the host still has to make takes effect completely (20_memory.md R61). -/

namespace Sys2Proof.Machine

/-- One step of the CCB: the next host access; with none pending the CCB does nothing (log 1, log 2). -/
def step (s : State) : Host.Outcome State Fault Refusal :=
  match s.pending with
  | [] => .next s
  | a :: rest => performAccess a { s with pending := rest }

/-- `s` with the host's next access the CMD write of the instruction whose bits are `w` (log 1). -/
def State.withFetchWord (s : State) (nbits w : Nat) : State := placeNext (issueAccess (tableWord nbits w)) s

end Sys2Proof.Machine
end

