-- ==== Sys2Proof/Safety.lean ====
section
/-! DEFINITION. The terms the claims use: the invariant of the state, readable operands, runs, and equality of samples up to
the pattern of a NaN. -/

namespace Sys2Proof.Machine

/-- A bit buffer is legal: its length is at most MAX_BITS and its cells are in canonical form (10_state.md R33). -/
def BitBuffer.ok (b : BitBuffer) : Bool := decide (b.len ≤ Config.maxBits) && b.cells.wf Config.maxBits

/-- The sample buffer is legal (10_state.md R35). -/
def SampleBuffer.ok (b : SampleBuffer) : Bool := decide (b.len ≤ Config.maxSamples) && b.cells.wf Config.maxSamples

/-- The invariant: every buffer is legal (10_state.md R33, R35). -/
def State.Inv (s : State) : Prop :=
  s.b0.ok = true ∧ s.b1.ok = true ∧ s.b2.ok = true ∧ s.b3.ok = true ∧ s.samples.ok = true

/-- Everything the host sees or holds outside a command is the same in two states: its queue, its responses, and the two
configuration registers, which no command writes (10_state.md R39, R40). -/
def sameHostSide (s t : State) : Prop :=
  t.snrDb = s.snrDb ∧ t.rngSeed = s.rngSeed ∧ t.pending = s.pending ∧ t.responses = s.responses

/-- Two states have the same RNG state and have taken the same number of free NaN patterns. -/
def sameDraws (s t : State) : Prop := t.rng = s.rng ∧ t.nanCount = s.nanCount

/-- Two states differ at most in sample cell `i`, the host's queue and the responses: every other sample cell (a half-written
one included), every length, every bit buffer, both flags, SNR_DB, RNG_SEED and the draws are the same. -/
def onlySampleChanged (i : Nat) (s t : State) : Prop :=
  (∀ j, j ≠ i → t.samples.cells.get j = s.samples.cells.get j) ∧ t.samples.len = s.samples.len ∧
    (∀ k, t.buf k = s.buf k) ∧ t.lastErr = s.lastErr ∧ t.errSticky = s.errSticky ∧ t.snrDb = s.snrDb ∧
    t.rngSeed = s.rngSeed ∧ sameDraws s t

/-- Every bit of the sequence a buffer holds is written (00_scope.md R11). -/
def State.bitsWritten (s : State) (k : BufIdx) : Prop := ∀ i < (s.buf k).len, s.bit k i ≠ none

/-- Every sample of the sequence S holds is written (00_scope.md R11). -/
def State.samplesWritten (s : State) : Prop := ∀ i < s.samples.len, s.sample i ≠ none

/-- A run of the machine from power-on: the host's accesses in order (00_scope.md R5). -/
inductive ReachedBy (accesses : List Access) : State → Prop where
  | reset : ReachedBy accesses { State.reset with pending := accesses }
  | step {s t : State} : ReachedBy accesses s → step s = .next t → ReachedBy accesses t

/-- Two samples are the same value, or both are NaNs: which NaN CHANNEL leaves is open (93_implementation_defined.md I7). -/
def sameSample (x y : F64) : Prop := x = y ∨ (isNaN x = true ∧ isNaN y = true)

/-- The value of the pattern with magnitude `m` and sign +. It is read with the exponent range unbounded above, so that the
magnitudes from `infMag` on stand for the values beyond the largest finite one (00_scope.md R9). -/
def valueOfMag (m : Nat) : ℚ := (sigOfMag m : ℚ) * (2 : ℚ) ^ expOfMag m

/-- The value of a finite pattern (00_scope.md R9). -/
def valueOf (x : F64) : ℚ := (if isNeg x then -1 else 1) * valueOfMag (mag x)

/-- The magnitude `r` is the number `v` rounded to nearest, ties to even, in the unbounded exponent range: no magnitude is
nearer, and if another is as near then `r` is the even one (00_scope.md R9). -/
def RoundsTo (v : ℝ) (r : Nat) : Prop :=
  (∀ z : Nat, |(valueOfMag r : ℝ) - v| ≤ |(valueOfMag z : ℝ) - v|) ∧
    (∀ z : Nat, z ≠ r → |(valueOfMag z : ℝ) - v| = |(valueOfMag r : ℝ) - v| → r % 2 = 0)

/-- The RNG state after `n` draws (43_channel.md R205). -/
def rngAfter (ns : NoiseSource) (rng : Nat) : Nat → Nat
  | 0 => rng
  | n + 1 => rngAfter ns (draw ns rng).2 n

/-- The value of draw number `n`, counted from 0, from a RNG state (43_channel.md R205). -/
def drawNumber (ns : NoiseSource) (rng n : Nat) : F64 := (draw ns (rngAfter ns rng n)).1

end Sys2Proof.Machine
end

