-- ==== Sys2Proof/WellFormed.lean ====
section
/-! DEFINITION. Well-formed commands: an unassigned CODE operand is 5, 6 or 7 and an unassigned CHAN operand is 2 or 3
(30_encoding.md R93, R94, R101). -/

namespace Sys2Proof

/-- The CODE operand names a value of the 3-bit field, in its one spelling (30_encoding.md R93). -/
def CodeField.wf : CodeField → Bool
  | .unassigned n => decide (5 ≤ n) && decide (n ≤ 7)
  | .none | .rep3 | .rep5 | .hamming74 | .hamming1511 => true

/-- The CHAN operand names a value of the 2-bit field, in its one spelling (30_encoding.md R94). -/
def ChanField.wf : ChanField → Bool
  | .unassigned n => decide (2 ≤ n) && decide (n ≤ 3)
  | .awgn | .rayleigh => true

/-- Every operand of the command is a value of its field; the buffer operands always are (30_encoding.md R95). -/
def Instr.wf : Instr → Bool
  | .encode code _ _ => code.wf
  | .decode code _ _ => code.wf
  | .modulate _ => true
  | .channel chan code => chan.wf && code.wf
  | .slice _ => true

end Sys2Proof
end

