-- ==== Sys2Proof/Certificates/Slice0/Obligations.lean ====
section
/-! DEFINITION. The statements about the CCB, for the provers. Each docstring names the rule of spec/ it formalises, or the
log entry it rests on. -/

open Sys2Proof Sys2Proof.Machine

/-! ### Encoding -/

/-- 30_encoding.md R91 to R95, R101: encoding a well-formed command and decoding the word gives the command back, with every
operand. -/
def Obligations.DecodeOfEncodeIsTheCommand : Prop :=
  ∀ i : Instr, i.wf = true → decode (encode i) = .ok i

/-- 30_encoding.md R100 (with the fields of R91): a word spells the command of a row exactly when `w & mask = match`, its
operands being the fields at the bits the row's pattern gives; every other word raises IllegalCommand. -/
def Obligations.WordsSpellTheirTableRow : Prop :=
  ∀ w : Word,
    (∀ code src dst, decode w = .ok (.encode code src dst) ↔
      (w &&& 0xFFFCCC8F#32 = 0x00000001#32 ∧ code.wf = true ∧ codeNum code = (w.extractLsb' 4 3).toNat ∧
        bufNum src = (w.extractLsb' 12 2).toNat ∧ bufNum dst = (w.extractLsb' 16 2).toNat)) ∧
    (∀ code src dst, decode w = .ok (.decode code src dst) ↔
      (w &&& 0xFFFCCC8F#32 = 0x00000002#32 ∧ code.wf = true ∧ codeNum code = (w.extractLsb' 4 3).toNat ∧
        bufNum src = (w.extractLsb' 12 2).toNat ∧ bufNum dst = (w.extractLsb' 16 2).toNat)) ∧
    (∀ src, decode w = .ok (.modulate src) ↔
      (w &&& 0xFFFCCC8F#32 = 0x00000003#32 ∧ bufNum src = (w.extractLsb' 12 2).toNat)) ∧
    (∀ chan code, decode w = .ok (.channel chan code) ↔
      (w &&& 0xFFFCCC8F#32 = 0x00000004#32 ∧ chan.wf = true ∧ chanNum chan = (w.extractLsb' 8 2).toNat ∧
        code.wf = true ∧ codeNum code = (w.extractLsb' 4 3).toNat)) ∧
    (∀ dst, decode w = .ok (.slice dst) ↔
      (w &&& 0xFFFCCC8F#32 = 0x00000005#32 ∧ bufNum dst = (w.extractLsb' 16 2).toNat)) ∧
    (∀ s : State, (w &&& 0xFFFCCC8F#32).toNat < 1 ∨ 5 < (w &&& 0xFFFCCC8F#32).toNat →
      issueCommand w s = .next { s with lastErr := .illegalCmd, errSticky := true })

/-- 30_encoding.md R96: two words that differ only in fields the command does not read have the same effect in every state;
a 1 in any of the bits 7, 11, 10, 15, 14 and 31 to 18 raises IllegalCommand. -/
def Obligations.IgnoredFieldsHaveNoEffect : Prop :=
  ∀ (w v : Word) (s : State),
    ((w.extractLsb' 0 4 = 1#4 ∨ w.extractLsb' 0 4 = 2#4) → w &&& 0xFFFFFCFF#32 = v &&& 0xFFFFFCFF#32 →
      issueCommand w s = issueCommand v s) ∧
    (w.extractLsb' 0 4 = 3#4 → w &&& 0xFFFCFC8F#32 = v &&& 0xFFFCFC8F#32 → issueCommand w s = issueCommand v s) ∧
    (w.extractLsb' 0 4 = 4#4 → w &&& 0xFFFCCFFF#32 = v &&& 0xFFFCCFFF#32 → issueCommand w s = issueCommand v s) ∧
    (w.extractLsb' 0 4 = 5#4 → w &&& 0xFFFFCC8F#32 = v &&& 0xFFFFCC8F#32 → issueCommand w s = issueCommand v s) ∧
    (∀ j, (j = 7 ∨ j = 10 ∨ j = 11 ∨ j = 14 ∨ j = 15 ∨ 18 ≤ j) → w.getLsbD j = true →
      issueCommand w s = .next { s with lastErr := .illegalCmd, errSticky := true })

/-- 95_test_vectors.md V8: words of the table decode to the commands they stand for. -/
def Obligations.SampleWordsDecode : Prop :=
  decode 0x00010031#32 = .ok (.encode .hamming74 .b0 .b1) ∧
    decode 0x00021032#32 = .ok (.decode .hamming74 .b1 .b2) ∧
    decode 0x00031373#32 = .ok (.modulate .b1) ∧
    decode 0x00000144#32 = .ok (.channel .rayleigh .hamming1511) ∧
    decode 0x00030035#32 = .ok (.slice .b3) ∧
    decode 0x00000071#32 = .ok (.encode (.unassigned 7) .b0 .b0)

/-- 30_encoding.md R93 and R94: CODE 0 to 4 select the five schemes in the order of the table and 5 to 7 resolve to Uncoded;
CHAN 1 selects RAYLEIGH and 0, 2 and 3 AWGN, in every command word that spells a command. -/
def Obligations.SelectorsResolveToTheirDefaults : Prop :=
  ∀ w : Word,
    (∀ code src dst, (decode w = .ok (.encode code src dst) ∨ decode w = .ok (.decode code src dst)) →
      resolveCode code = match (w.extractLsb' 4 3).toNat with
        | 1 => .repetition3 | 2 => .repetition5 | 3 => .hamming74 | 4 => .hamming1511 | _ => .uncoded) ∧
    (∀ chan code, decode w = .ok (.channel chan code) →
      (resolveCode code = match (w.extractLsb' 4 3).toNat with
        | 1 => .repetition3 | 2 => .repetition5 | 3 => .hamming74 | 4 => .hamming1511 | _ => .uncoded) ∧
      (resolveChan chan = if (w.extractLsb' 8 2).toNat = 1 then .rayleigh else .awgn))

/-! ### The step -/

/-- 30_encoding.md R90 and 20_memory.md R61: when the host's next access is the CMD write of a word that spells the command
`i`, the step is `exec i` on the state without that access, and a next state gets the response OKAY in front. That the
accesses to come and the responses stand in the state is the model's choice (log 1, log 3). -/
def Obligations.StepRunsTheDecodedCommand : Prop :=
  ∀ (s : State) (w : Word) (i : Instr) (rest : List Access),
    s.pending = .write 0x00000#20 32 0b1111#4 w :: rest → decode w = .ok i →
      (∀ t, exec i { s with pending := rest } = .next t →
        step s = .next { t with responses := .okay :: t.responses }) ∧
      (∀ f, exec i { s with pending := rest } = .fault f → step s = .fault f)

/-- 20_memory.md R61 and R71: a step takes exactly the oldest access and gives exactly one response to it; with nothing
pending it changes nothing (the model's choice, log 2). -/
def Obligations.StepTakesOneAccess : Prop :=
  ∀ s t : State, step s = .next t →
    (s.pending = [] ∧ t = s) ∨
      ∃ a r, s.pending = a :: t.pending ∧ t.responses = r :: s.responses

/-- 60_exceptions.md R247: a command word raises IllegalCommand exactly when its OP is reserved or a reserved bit is 1; CODE 5
to 7 and CHAN 2 and 3 never raise it. -/
def Obligations.IllegalCommandExactlyWhenReserved : Prop :=
  ∀ (w : Word) (s t : State), issueCommand w s = .next t →
    (t.lastErr = .illegalCmd ↔
      ((w.extractLsb' 0 4).toNat = 0 ∨ 6 ≤ (w.extractLsb' 0 4).toNat) ∨
        w.getLsbD 7 = true ∨ w.extractLsb' 10 2 ≠ 0#2 ∨ w.extractLsb' 14 2 ≠ 0#2 ∨ w.extractLsb' 18 14 ≠ 0#14)

/-- 60_exceptions.md R241 and R245: which command words raise which error, whatever the source's cells are: the first of
IllegalCommand, ShapeError and CapacityError when several apply. A command of none of these cases that completes raises
none. -/
def Obligations.ErrorsFollowTheTable : Prop :=
  ∀ (w : Word) (s : State),
    let raises : LastErr → Prop := fun e => issueCommand w s = .next { s with lastErr := e, errSticky := true }
    let raisesNone : Prop := ∀ t, issueCommand w s = .next t → t.lastErr = .none
    match decode w with
    | .error _ => raises .illegalCmd
    | .ok (.encode code src _) =>
      let k := messageLength (resolveCode code)
      let n := codewordLength (resolveCode code)
      let len := (s.buf src).len
      (len % k ≠ 0 → raises .shape) ∧ (len % k = 0 → 65536 < len / k * n → raises .capacity) ∧
        (len % k = 0 → len / k * n ≤ 65536 → raisesNone)
    | .ok (.decode code src _) =>
      ((s.buf src).len % codewordLength (resolveCode code) ≠ 0 → raises .shape) ∧
        ((s.buf src).len % codewordLength (resolveCode code) = 0 → raisesNone)
    | .ok (.modulate _) => raisesNone
    | .ok (.channel _ _) => raisesNone
    | .ok (.slice _) => raisesNone

/-- 60_exceptions.md R243: a command ends in success, with LAST_ERR 0 and ERR_STICKY as it was, or in an error, with its code
in LAST_ERR, ERR_STICKY 1 and no other state changed. -/
def Obligations.CommandEndsInSuccessOrError : Prop :=
  ∀ (w : Word) (s t : State), issueCommand w s = .next t →
    (t.lastErr = .none ∧ t.errSticky = s.errSticky) ∨
      (t.lastErr ≠ .none ∧ t = { s with lastErr := t.lastErr, errSticky := true })

/-- 10_state.md R45: the flags are written only by a command, by a host write of 1 to ERR_STICKY, which clears it and nothing
else, and by a reset; no command reads them. -/
def Obligations.FlagsAreWrittenOnlyByCommandsAndTheHost : Prop :=
  (∀ s t : State, step s = .next t → (t.lastErr ≠ s.lastErr ∨ t.errSticky ≠ s.errSticky) →
    ∃ v rest, s.pending = .write 0x00000#20 32 0b1111#4 v :: rest ∨
      (s.pending = .write 0x00004#20 32 0b1111#4 v :: rest ∧ v.getLsbD 8 = true ∧ t.lastErr = s.lastErr ∧
        t.errSticky = false) ∨
      (s.pending = .write 0x00008#20 32 0b1111#4 v :: rest ∧ v.getLsbD 0 = true)) ∧
  (∀ (i : Instr) (s : State) (e : LastErr) (b : Bool),
    (∀ t, exec i s = .next t → exec i { s with lastErr := e, errSticky := b } =
      .next { t with errSticky := if t.lastErr = .none then b else true }) ∧
    (∀ f, exec i s = .fault f → exec i { s with lastErr := e, errSticky := b } = .fault f))

/-! ### Codes -/

/-- 41_encode.md R153, R154 and R155: the codeword of a block, bit by bit. -/
def Obligations.CodewordsAreTheFormulas : Prop :=
  (∀ m0, encBlock .uncoded [m0] = [m0]) ∧
  (∀ m0, encBlock .repetition3 [m0] = [m0, m0, m0]) ∧
  (∀ m0, encBlock .repetition5 [m0] = [m0, m0, m0, m0, m0]) ∧
  (∀ m0 m1 m2 m3, encBlock .hamming74 [m0, m1, m2, m3] =
    [xor (xor m0 m1) m3, xor (xor m0 m2) m3, m0, xor (xor m1 m2) m3, m1, m2, m3]) ∧
  (∀ m0 m1 m2 m3 m4 m5 m6 m7 m8 m9 m10,
    encBlock .hamming1511 [m0, m1, m2, m3, m4, m5, m6, m7, m8, m9, m10] =
      [xor m4 (xor m5 (xor m6 (xor m7 (xor m8 (xor m9 m10))))),
        xor m1 (xor m2 (xor m3 (xor m7 (xor m8 (xor m9 m10))))),
        xor m0 (xor m2 (xor m3 (xor m5 (xor m6 (xor m9 m10))))),
        xor m0 (xor m1 (xor m3 (xor m4 (xor m6 (xor m8 m10))))),
        m0, m1, m2, m3, m4, m5, m6, m7, m8, m9, m10])

/-- 40_code_schemes.md R122 to R124, R129: the codeword of every scheme is `m·G`, and every codeword has the syndrome 0. -/
def Obligations.CodewordsHaveZeroSyndrome : Prop :=
  ∀ (sc : Scheme) (m : List Bool), m.length = messageLength sc →
    encBlock sc m = rowTimes (codewordLength sc) m (generator sc) ∧
      syndrome (parityCheck sc) (encBlock sc m) =
        List.replicate (codewordLength sc - messageLength sc) false

/-- 40_code_schemes.md R129: for every coded scheme every row of G has an even number of 1s in common with every row of H. -/
def Obligations.GeneratorRowsAreOrthogonalToParityRows : Prop :=
  ∀ sc : Scheme, sc ≠ .uncoded → ∀ g ∈ generator sc, ∀ h ∈ parityCheck sc,
    (List.zipWith and g h).count true % 2 = 0

/-- 40_code_schemes.md R131 (with R125 and R127): column j of H7 is the numeral j + 1, and the columns of H15 are every
nonzero 4-bit value once. -/
def Obligations.ParityCheckColumnsAreDistinct : Prop :=
  (∀ j < 7, bitsValue (h7.map fun row => row.getD j false) = j + 1) ∧
  ((List.range 15).map fun j => bitsValue (h15.map fun row => row.getD j false)) =
    [8, 4, 2, 1, 3, 5, 6, 7, 9, 10, 11, 12, 13, 14, 15]

/-- 41_encode.md R157: every scheme's encoder is linear over GF(2), and encodes 0 as 0. -/
def Obligations.BlockEncoderIsLinear : Prop :=
  ∀ (sc : Scheme) (m m' : List Bool), m.length = messageLength sc → m'.length = messageLength sc →
    encBlock sc (List.zipWith xor m m') = List.zipWith xor (encBlock sc m) (encBlock sc m') ∧
      encBlock sc (List.replicate (messageLength sc) false) = List.replicate (codewordLength sc) false

/-- 40_code_schemes.md R130: decoding an error-free block gives the message back, and the message sits at the positions the
rule names. -/
def Obligations.BlockRoundTripAndPositions : Prop :=
  ∀ (sc : Scheme) (m : List Bool), m.length = messageLength sc →
    decBlock sc (encBlock sc m) = m ∧
      (match sc with
        | .uncoded => [(encBlock sc m)[0]?] = [m[0]?]
        | .repetition3 => ∀ j < 3, (encBlock sc m)[j]? = m[0]?
        | .repetition5 => ∀ j < 5, (encBlock sc m)[j]? = m[0]?
        | .hamming74 => ∀ j < 4, (encBlock sc m)[[2, 4, 5, 6].getD j 0]? = m[j]?
        | .hamming1511 => ∀ j < 11, (encBlock sc m)[4 + j]? = m[j]?)

/-- 42_decode.md R173: the repetition decoder outputs 1 exactly when more than half of the block is 1, and corrects up to
(r − 1)/2 flips. -/
def Obligations.RepetitionDecodesByMajority : Prop :=
  ∀ (sc : Scheme) (r : Nat) (c : List Bool), (sc = .repetition3 ∧ r = 3) ∨ (sc = .repetition5 ∧ r = 5) →
    c.length = r →
      (decBlock sc c = [true] ↔ r < 2 * (c.map Bool.toNat).sum) ∧
      (decBlock sc c = [false] ↔ ¬ r < 2 * (c.map Bool.toNat).sum) ∧
      (∀ b, c.countP (fun x => x != b) ≤ (r - 1) / 2 → decBlock sc c = [b])

/-- 42_decode.md R174: the Hamming(7,4) decoder computes the syndrome value v from the three parity sums, flips position v of
the block when v is not 0, and extracts the indices 2, 4, 5 and 6. -/
def Obligations.Hamming74DecoderFlipsTheSyndromePosition : Prop :=
  ∀ c0 c1 c2 c3 c4 c5 c6 : Bool,
    let s0 := xor (xor c3 c4) (xor c5 c6)
    let s1 := xor (xor c1 c2) (xor c5 c6)
    let s2 := xor (xor c0 c2) (xor c4 c6)
    let v := 4 * s0.toNat + 2 * s1.toNat + s2.toNat
    v ≤ 7 ∧
    decBlock .hamming74 [c0, c1, c2, c3, c4, c5, c6] =
      [xor c2 (decide (v = 3)), xor c4 (decide (v = 5)), xor c5 (decide (v = 6)), xor c6 (decide (v = 7))]

/-- 42_decode.md R176, second sentence: every single-bit flip of a Hamming(7,4) codeword decodes to its message. -/
def Obligations.Hamming74CorrectsEverySingleFlip : Prop :=
  ∀ (m : List Bool) (i : Nat), m.length = 4 → i < 7 →
    decBlock .hamming74 ((encBlock .hamming74 m).modify i not) = m

/-- 42_decode.md R175: the Hamming(15,11) decoder outputs the last 11 bits in order and corrects nothing, so an error in the
parity positions changes nothing and an error at index 4 + i appears in output bit i. -/
def Obligations.Hamming1511DecoderCorrectsNothing : Prop :=
  ∀ r : List Bool, r.length = 15 →
    (decBlock .hamming1511 r).length = 11 ∧ (∀ i < 11, (decBlock .hamming1511 r)[i]? = r[4 + i]?) ∧
      (∀ j < 4, decBlock .hamming1511 (r.modify j not) = decBlock .hamming1511 r) ∧
      (∀ i < 11, decBlock .hamming1511 (r.modify (4 + i) not) = (decBlock .hamming1511 r).modify i not)

/-! ### ENCODE and DECODE -/

/-- 41_encode.md R150 and R151 with 10_state.md R34: ENCODE of a written source of the right shape and size completes; the
destination gets length L·n/k and, block by block, the codewords of the source as it was before the command (also when the
source is the destination); its cells beyond keep their content, and nothing else changes but LAST_ERR. -/
def Obligations.EncodeWritesTheCodewords : Prop :=
  ∀ (code : CodeField) (src dst : BufIdx) (s : State),
    let k := messageLength (resolveCode code)
    let n := codewordLength (resolveCode code)
    let len := (s.buf src).len
    s.bitsWritten src → len % k = 0 → len / k * n ≤ 65536 →
    ∃ (t : State) (m : List Bool), exec (.encode code src dst) s = .next t ∧
      m.length = len ∧ (∀ i < len, s.bit src i = m[i]?) ∧
      (t.buf dst).len = len / k * n ∧
      (∀ b < len / k, ∀ j < n,
        t.bit dst (b * n + j) = (encBlock (resolveCode code) ((m.drop (b * k)).take k))[j]?) ∧
      (∀ i, len / k * n ≤ i → t.bit dst i = s.bit dst i) ∧
      (∀ j, j ≠ dst → t.buf j = s.buf j) ∧ t.samples = s.samples ∧
      t.lastErr = .none ∧ t.errSticky = s.errSticky ∧ sameHostSide s t ∧ sameDraws s t

/-- 42_decode.md R170 and R171 with 10_state.md R34: DECODE of a written source of the right shape completes, whatever its
bits are; the destination gets length L·k/n and, block by block, the decoded messages of the source as it was before the
command; its cells beyond keep their content, and nothing else changes but LAST_ERR. -/
def Obligations.DecodeWritesTheMessages : Prop :=
  ∀ (code : CodeField) (src dst : BufIdx) (s : State),
    let k := messageLength (resolveCode code)
    let n := codewordLength (resolveCode code)
    let len := (s.buf src).len
    s.bitsWritten src → len % n = 0 →
    ∃ (t : State) (r : List Bool), exec (.decode code src dst) s = .next t ∧
      r.length = len ∧ (∀ i < len, s.bit src i = r[i]?) ∧
      (t.buf dst).len = len / n * k ∧
      (∀ b < len / n, ∀ j < k,
        t.bit dst (b * k + j) = (decBlock (resolveCode code) ((r.drop (b * n)).take n))[j]?) ∧
      (∀ i, len / n * k ≤ i → t.bit dst i = s.bit dst i) ∧
      (∀ j, j ≠ dst → t.buf j = s.buf j) ∧ t.samples = s.samples ∧
      t.lastErr = .none ∧ t.errSticky = s.errSticky ∧ sameHostSide s t ∧ sameDraws s t

/-- 42_decode.md R176: ENCODE then DECODE with the same CODE returns the message, for every accepted message, every scheme and
every choice of the three buffers. -/
def Obligations.EncodeThenDecodeRestoresTheMessage : Prop :=
  ∀ (code : CodeField) (a b c : BufIdx) (s : State),
    s.bitsWritten a →
    (s.buf a).len % messageLength (resolveCode code) = 0 →
    (s.buf a).len / messageLength (resolveCode code) * codewordLength (resolveCode code) ≤ 65536 →
    ∃ t u, exec (.encode code a b) s = .next t ∧ exec (.decode code b c) t = .next u ∧
      u.lastErr = .none ∧ (u.buf c).len = (s.buf a).len ∧ ∀ i < (s.buf a).len, u.bit c i = s.bit a i

/-- 41_encode.md R150, 42_decode.md R170, 44_slicer.md R230 with 60_exceptions.md R243: what ENCODE, DECODE and SLICE leave
unchanged whenever they go on, errors included: every other buffer, S, the destination's cells from its length on, every
register, the RNG state. -/
def Obligations.BitWritingCommandsFrame : Prop :=
  ∀ (i : Instr) (dst : BufIdx) (s t : State),
    ((∃ code src, i = .encode code src dst) ∨ (∃ code src, i = .decode code src dst) ∨ i = .slice dst) →
    exec i s = .next t →
      (∀ j, j ≠ dst → t.buf j = s.buf j) ∧ t.samples = s.samples ∧
      (∀ n, (t.buf dst).len ≤ n → t.bit dst n = s.bit dst n) ∧ sameHostSide s t ∧ sameDraws s t

/-- 00_scope.md R11 and 60_exceptions.md R249, with the cells the commands read from 41_encode.md R150, 42_decode.md R170,
43_channel.md R200 and R206 and 44_slicer.md R230: a command stops with the model fault UnwrittenRead exactly when it ends in no
error and a cell below its source's length is unwritten; no command is ever refused. That an error comes before the reading of
the source is read from the pseudocode by the model (DEDUCED, log 13). -/
def Obligations.CommandsFaultExactlyOnUnwrittenCells : Prop :=
  ∀ (i : Instr) (s : State),
    (match i with
      | .encode code src _ => exec i s = .fault .unwrittenRead ↔
          ((s.buf src).len % messageLength (resolveCode code) = 0 ∧
            (s.buf src).len / messageLength (resolveCode code) * codewordLength (resolveCode code) ≤ 65536 ∧
            ∃ j < (s.buf src).len, s.bit src j = none)
      | .decode code src _ => exec i s = .fault .unwrittenRead ↔
          ((s.buf src).len % codewordLength (resolveCode code) = 0 ∧ ∃ j < (s.buf src).len, s.bit src j = none)
      | .modulate src => exec i s = .fault .unwrittenRead ↔ ∃ j < (s.buf src).len, s.bit src j = none
      | .channel _ _ => exec i s = .fault .unwrittenRead ↔ ∃ j < s.samples.len, s.sample j = none
      | .slice _ => exec i s = .fault .unwrittenRead ↔ ∃ j < s.samples.len, s.sample j = none) ∧
    ∀ q, exec i s ≠ .refused q

/-! ### MODULATE, CHANNEL, SLICE -/

/-- 43_channel.md R200: MODULATE of a written source completes; S gets the source's length and, bit by bit, +1.0 for 1 and
−1.0 for 0; its samples beyond keep their content, and nothing else changes but LAST_ERR. -/
def Obligations.ModulateWritesPlusMinusOne : Prop :=
  ∀ (src : BufIdx) (s : State), s.bitsWritten src →
    ∃ t, exec (.modulate src) s = .next t ∧ t.samples.len = (s.buf src).len ∧
      (∀ i < (s.buf src).len,
        (s.bit src i = some true → t.sample i = some 0x3FF0000000000000#64) ∧
        (s.bit src i = some false → t.sample i = some 0xBFF0000000000000#64)) ∧
      (∀ i, (s.buf src).len ≤ i → t.sample i = s.sample i) ∧
      (∀ j, t.buf j = s.buf j) ∧ t.lastErr = .none ∧ t.errSticky = s.errSticky ∧
      sameHostSide s t ∧ sameDraws s t

/-- 43_channel.md R206, R207 and R209: CHANNEL with an AWGN selector (CHAN 0, 2 or 3) on written samples completes; sample i
becomes x ⊞ (σ ⊠ N) with N draw number i, or a NaN when that is a NaN; L draws are taken; nothing else changes but LAST_ERR and
the model's NaN count (the model's choice, log 7). -/
def Obligations.ChannelAwgnAddsScaledDraws : Prop :=
  ∀ (chan : ChanField) (code : CodeField) (s : State), resolveChan chan = .awgn → s.samplesWritten →
    let ns := machineParams.noise
    let sigma := sigmaOf machineParams.pow10 s.snrDb (resolveCode code)
    ∃ t, exec (.channel chan code) s = .next t ∧ t.samples.len = s.samples.len ∧
      (∀ i < s.samples.len, ∃ x y, s.sample i = some x ∧ t.sample i = some y ∧
        sameSample y (fadd x (fmul sigma (drawNumber ns s.rng i)))) ∧
      (∀ i, s.samples.len ≤ i → t.sample i = s.sample i) ∧
      t.rng = rngAfter ns s.rng s.samples.len ∧
      (∀ j, t.buf j = s.buf j) ∧ t.lastErr = .none ∧ t.errSticky = s.errSticky ∧ sameHostSide s t

/-- 43_channel.md R206, R208 and R209: CHANNEL with the RAYLEIGH selector on written samples completes; sample i becomes
(fade(X, Y) ⊠ x) ⊞ (σ ⊠ N) with X, Y, N the draws 3i, 3i + 1, 3i + 2, or a NaN when that is a NaN; 3L draws are taken; nothing
else changes but LAST_ERR and the model's NaN count (the model's choice, log 7). -/
def Obligations.ChannelRayleighFadesAndAddsDraws : Prop :=
  ∀ (code : CodeField) (s : State), s.samplesWritten →
    let ns := machineParams.noise
    let sigma := sigmaOf machineParams.pow10 s.snrDb (resolveCode code)
    ∃ t, exec (.channel .rayleigh code) s = .next t ∧ t.samples.len = s.samples.len ∧
      (∀ i < s.samples.len, ∃ x y, s.sample i = some x ∧ t.sample i = some y ∧
        sameSample y (fadd (fmul (fade (drawNumber ns s.rng (3 * i)) (drawNumber ns s.rng (3 * i + 1))) x)
          (fmul sigma (drawNumber ns s.rng (3 * i + 2))))) ∧
      (∀ i, s.samples.len ≤ i → t.sample i = s.sample i) ∧
      t.rng = rngAfter ns s.rng (3 * s.samples.len) ∧
      (∀ j, t.buf j = s.buf j) ∧ t.lastErr = .none ∧ t.errSticky = s.errSticky ∧ sameHostSide s t

/-- 43_channel.md R205, R206 and 93_implementation_defined.md I7, under any model parameters: a sample CHANNEL computes as a
number is stored exactly, and one it computes as a NaN is stored as some NaN. -/
def Obligations.ChannelStoresNumbersExactly : Prop :=
  ∀ (p : Params) (chan : ChannelType) (sigma : F64) (xs : List F64) (rng count i : Nat) (x : F64), xs[i]? = some x →
    let r := channelLoop p chan sigma xs rng count
    let d := if chan = .rayleigh then 3 else 1
    let y := (channelSample p.noise chan sigma x (rngAfter p.noise rng (d * i))).1
    r.out.length = xs.length ∧ r.rng = rngAfter p.noise rng (d * xs.length) ∧
      ∃ v, r.out[i]? = some v ∧ (isNaN y = false → v = y) ∧ (isNaN y = true → isNaN v = true)

/-- 43_channel.md R211 and R205, up to the pattern of a NaN, which 93_implementation_defined.md I7 and 43_channel.md R206 leave
open: CHANNEL is reproducible. From states with the same RNG state and SNR_DB and the same samples (up to the pattern of a NaN),
the same command leaves the same RNG state, the same samples (again up to the pattern of a NaN), and SLICE then detects the same
bits, every NaN giving 0 (44_slicer.md R231). -/
def Obligations.ChannelIsReproducible : Prop :=
  ∀ (chan : ChanField) (code : CodeField) (dst : BufIdx) (s s' t t' u u' : State),
    s.rng = s'.rng → s.snrDb = s'.snrDb → s.samples.len = s'.samples.len →
    (∀ i < s.samples.len, ∃ x x', s.sample i = some x ∧ s'.sample i = some x' ∧ sameSample x x') →
    exec (.channel chan code) s = .next t → exec (.channel chan code) s' = .next t' →
    exec (.slice dst) t = .next u → exec (.slice dst) t' = .next u' →
      t.rng = t'.rng ∧
      (∀ i < s.samples.len, ∃ y y', t.sample i = some y ∧ t'.sample i = some y' ∧ sameSample y y') ∧
      (u.buf dst).len = (u'.buf dst).len ∧ ∀ i < s.samples.len, u.bit dst i = u'.bit dst i

/-- 44_slicer.md R230: SLICE of written samples completes; the destination gets S's length and, sample by sample, 1 exactly
when the sample is above +0; its cells beyond keep their content, S is not changed, and nothing else changes but LAST_ERR. -/
def Obligations.SliceDetectsPositiveSamples : Prop :=
  ∀ (dst : BufIdx) (s : State), s.samplesWritten →
    ∃ t, exec (.slice dst) s = .next t ∧ (t.buf dst).len = s.samples.len ∧
      (∀ i < s.samples.len, ∃ y, s.sample i = some y ∧ t.bit dst i = some (fgt y 0x0000000000000000#64)) ∧
      (∀ i, s.samples.len ≤ i → t.bit dst i = s.bit dst i) ∧
      (∀ j, j ≠ dst → t.buf j = s.buf j) ∧ t.samples = s.samples ∧
      t.lastErr = .none ∧ t.errSticky = s.errSticky ∧ sameHostSide s t ∧ sameDraws s t

/-- 44_slicer.md R231: the bit of a sample pattern is 1 exactly for the positive subnormals and normals and +∞; it is 0 for
both zeros, every negative value, −∞ and every NaN of either sign. -/
def Obligations.SliceThresholdByPattern : Prop :=
  ∀ y : F64, sliceBit y = true ↔ (0 < y.toNat ∧ y.toNat ≤ 0x7FF0000000000000)

/-- 10_state.md R43 and 43_channel.md R209: the RNG state changes only in a step that issues a CHANNEL command or writes CTRL
with bit 0 or bit 1 set; and no host read depends on it. -/
def Obligations.OnlyChannelAndCtrlChangeTheRng : Prop :=
  (∀ s t : State, step s = .next t → t.rng ≠ s.rng →
    (∃ w rest chan code, s.pending = .write 0x00000#20 32 0b1111#4 w :: rest ∧ decode w = .ok (.channel chan code)) ∨
    (∃ v rest, s.pending = .write 0x00008#20 32 0b1111#4 v :: rest ∧ (v.getLsbD 0 = true ∨ v.getLsbD 1 = true))) ∧
  (∀ (s t : State) (a : BusAddr) (width r : Nat), hostRead a width s = .next t →
    hostRead a width { s with rng := r } = .next { t with rng := r })

/-! ### Noise deviation, fading, pow10 -/

/-- 43_channel.md R202: the machine's `pow10` has the named properties: 1 at both zeros, 10^n exactly at the integers 0 to 22,
+∞ at +∞, +0 at −∞, a NaN at every NaN, nonnegative and not a NaN elsewhere, and monotone. That it never
returns −0, which `≥ +0` leaves open in the IEEE order, is the model's choice (log 21). -/
def Obligations.PowTenHasTheNamedProperties : Prop :=
  let f := machineParams.pow10
  f 0x0000000000000000#64 = 0x3FF0000000000000#64 ∧ f 0x8000000000000000#64 = 0x3FF0000000000000#64 ∧
  (∀ n ≤ 22, f (natToF64 n) = natToF64 (10 ^ n) ∧ valueOf (natToF64 n) = n ∧ valueOf (natToF64 (10 ^ n)) = 10 ^ n) ∧
  f 0x7FF0000000000000#64 = 0x7FF0000000000000#64 ∧ f 0xFFF0000000000000#64 = 0x0000000000000000#64 ∧
  (∀ x, isNaN x = true → isNaN (f x) = true) ∧
  (∀ x, isNaN x = false → isNaN (f x) = false ∧ isNeg (f x) = false) ∧
  (∀ x y, isNaN x = false → isNaN y = false → orderKey x ≤ orderKey y → orderKey (f x) ≤ orderKey (f y))

/-- 43_channel.md R202: the default the rule names is the correctly rounded 10^x for every finite argument, an overflow giving
+∞ and an underflow a subnormal or +0; it is +∞ at +∞, +0 at −∞ and a NaN at every NaN. The machine does not use it (log 6). -/
def Obligations.PowTenDefaultIsCorrectlyRounded : Prop :=
  (∀ x : F64, isFinite x = true →
    ∃ r, RoundsTo ((10 : ℝ) ^ ((valueOf x : ℚ) : ℝ)) r ∧ pow10Default x = ofMag false (min r infMag)) ∧
  pow10Default 0x7FF0000000000000#64 = 0x7FF0000000000000#64 ∧
  pow10Default 0xFFF0000000000000#64 = 0x0000000000000000#64 ∧
  (∀ x : F64, isNaN x = true → isNaN (pow10Default x) = true)

/-- 43_channel.md R203, the corner cases: σ is +0 at SNR_DB = +∞, +∞ at −∞, a NaN at every NaN, and the square root of
1 ⊘ (2 ⊠ rate_f) at both zeros. -/
def Obligations.SigmaCornerCases : Prop :=
  ∀ sc : Scheme,
    let sigma := fun snr => sigmaOf machineParams.pow10 snr sc
    sigma 0x7FF0000000000000#64 = 0x0000000000000000#64 ∧ sigma 0xFFF0000000000000#64 = 0x7FF0000000000000#64 ∧
    (∀ snr, isNaN snr = true → isNaN (sigma snr) = true) ∧
    sigma 0x0000000000000000#64 = fsqrt (fdiv one64 (fmul two64 (rateF sc))) ∧
    sigma 0x8000000000000000#64 = fsqrt (fdiv one64 (fmul two64 (rateF sc)))

/-- 95_test_vectors.md L1-6, derived from 43_channel.md R202 and R203: for a fixed scheme σ is a number and does not rise when
SNR_DB rises. It rests on the model's choice that pow10 never returns −0 (log 21): −0 would make σ a NaN. -/
def Obligations.SigmaFallsAsSnrRises : Prop :=
  ∀ (sc : Scheme) (x y : F64), isNaN x = false → isNaN y = false → orderKey x ≤ orderKey y →
    let sigma := fun snr => sigmaOf machineParams.pow10 snr sc
    isNaN (sigma x) = false ∧ isNaN (sigma y) = false ∧ orderKey (sigma y) ≤ orderKey (sigma x)

/-- 43_channel.md R204: for finite X and Y the fading magnitude is not a NaN and is +0 or above. That a zero one is +0 rests on
the IEEE 754 signs of log 9 (PRESUMED). -/
def Obligations.FadeIsNonnegative : Prop :=
  ∀ x y : F64, isFinite x = true → isFinite y = true → isNaN (fade x y) = false ∧ isNeg (fade x y) = false

/-- 40_code_schemes.md R120: rate_f is k/n rounded to the nearest binary64, ties to even. -/
def Obligations.RateIsTheRoundedQuotient : Prop :=
  ∀ sc : Scheme, isNeg (rateF sc) = false ∧
    RoundsTo ((messageLength sc : ℝ) / (codewordLength sc : ℝ)) (mag (rateF sc))

/-! ### binary64 (00_scope.md R9) -/

/-- 00_scope.md R9: the sum of two finite values is the exact sum rounded to nearest, ties to even. From IEEE 754 as generally
known (PRESUMED, log 9), not from the words of R9: an overflow gives the infinity, and an exact zero sum is −0 only when both
are negative zeros and +0 otherwise, −0 plus +0 included, where a note of 43_channel.md R206 says otherwise (log 10). -/
def Obligations.AdditionIsCorrectlyRounded : Prop :=
  ∀ x y : F64, isFinite x = true → isFinite y = true →
    (valueOf x + valueOf y ≠ 0 →
      ∃ r, RoundsTo |((valueOf x + valueOf y : ℚ) : ℝ)| r ∧
        fadd x y = ofMag (decide (valueOf x + valueOf y < 0)) (min r infMag)) ∧
    (valueOf x + valueOf y = 0 →
      fadd x y = if x = 0x8000000000000000#64 ∧ y = 0x8000000000000000#64 then 0x8000000000000000#64 else 0#64)

/-- 00_scope.md R9: the product of two finite values is the exact product rounded to nearest, ties to even. From IEEE 754 as
generally known (PRESUMED, log 9), not from the words of R9: an overflow gives the infinity, and the sign is the exclusive-or of
the signs. -/
def Obligations.MultiplicationIsCorrectlyRounded : Prop :=
  ∀ x y : F64, isFinite x = true → isFinite y = true →
    ∃ r, RoundsTo |((valueOf x * valueOf y : ℚ) : ℝ)| r ∧
      fmul x y = ofMag (isNeg x != isNeg y) (min r infMag)

/-- 00_scope.md R9: the quotient of a finite value by a finite nonzero one is the exact quotient rounded to nearest, ties to even.
From IEEE 754 as generally known (PRESUMED, log 9), not from the words of R9: an overflow gives the infinity, and the sign is
the exclusive-or of the signs. -/
def Obligations.DivisionIsCorrectlyRounded : Prop :=
  ∀ x y : F64, isFinite x = true → isFinite y = true → isZero y = false →
    ∃ r, RoundsTo |((valueOf x / valueOf y : ℚ) : ℝ)| r ∧
      fdiv x y = ofMag (isNeg x != isNeg y) (min r infMag)

/-- 00_scope.md R9: the square root of a finite positive value is the exact root rounded to nearest, ties to even. -/
def Obligations.SquareRootIsCorrectlyRounded : Prop :=
  ∀ x : F64, isFinite x = true → isNeg x = false → isZero x = false →
    ∃ r, RoundsTo (Real.sqrt ((valueOf x : ℚ) : ℝ)) r ∧ r < infMag ∧ fsqrt x = ofMag false r

/-! ### The bus -/

/-- 60_exceptions.md R248: an access is answered with a bus error exactly when it is misaligned, not 32 bits wide, written with
a strobe clear, at an unmapped address, or writes a value above 65536 to a length register; it then changes nothing but the
host's queue and responses. -/
def Obligations.BusErrorsExactlyWhenRefused : Prop :=
  ∀ (s : State) (a : Access) (rest : List Access), s.pending = a :: rest →
    let refused : Prop := match a with
      | .read addr width => width ≠ 32 ∨ addr.toNat % 4 ≠ 0 ∨ addr.toNat = 0x0000C ∨
          (0x00034 ≤ addr.toNat ∧ addr.toNat < 0x10000) ∨ (0x18000 ≤ addr.toNat ∧ addr.toNat < 0x80000)
      | .write addr width strobes v => width ≠ 32 ∨ strobes ≠ 0b1111#4 ∨ addr.toNat % 4 ≠ 0 ∨
          addr.toNat = 0x0000C ∨ (0x00034 ≤ addr.toNat ∧ addr.toNat < 0x10000) ∨
          (0x18000 ≤ addr.toNat ∧ addr.toNat < 0x80000) ∨
          (0x00020 ≤ addr.toNat ∧ addr.toNat ≤ 0x00030 ∧ 65536 < v.toNat)
    (refused → step s = .next { s with pending := rest, responses := .busError :: s.responses }) ∧
    (¬ refused → ∀ t, step s = .next t → t.responses ≠ .busError :: s.responses)

/-- 20_memory.md R69: a read changes no state (only the host's queue and responses move); and writing the same value twice to
an address other than CMD, STATUS and CTRL has the effect of one write. -/
def Obligations.ReadsHaveNoSideEffects : Prop :=
  (∀ (s t : State) (addr : BusAddr) (width : Nat) (rest : List Access),
    s.pending = .read addr width :: rest → step s = .next t →
      ∃ r, t = { s with pending := rest, responses := r :: s.responses }) ∧
  (∀ (s t u : State) (addr : BusAddr) (width : Nat) (strobes : BitVec 4) (v : Word),
    addr ≠ 0x00000#20 → addr ≠ 0x00004#20 → addr ≠ 0x00008#20 →
    hostWrite addr width strobes v s = .next t → hostWrite addr width strobes v t = .next u →
      u = { t with responses := u.responses })

/-- 10_state.md R37: STATUS reads LAST_ERR in bits [2:0] and ERR_STICKY in bit 8 with the other bits 0; a write of 1 to bit 8
clears ERR_STICKY, and a write changes nothing else. -/
def Obligations.StatusReadsAndClears : Prop :=
  ∀ (s : State) (rest : List Access),
    (s.pending = .read 0x00004#20 32 :: rest →
      ∃ w : Word, step s = .next { s with pending := rest, responses := .data w :: s.responses } ∧
        w.extractLsb' 0 3 = (match s.lastErr with | .none => 0#3 | .shape => 1#3 | .illegalCmd => 2#3 | .capacity => 3#3) ∧
        w.getLsbD 8 = s.errSticky ∧ (∀ j, 3 ≤ j → j ≠ 8 → w.getLsbD j = false)) ∧
    (∀ v, s.pending = .write 0x00004#20 32 0b1111#4 v :: rest →
      step s = .next { s with
        pending := rest, responses := .okay :: s.responses,
        errSticky := if v.getLsbD 8 = true then false else s.errSticky })

/-- 10_state.md R38 with R46 and 70_reset_and_hazards.md R271: a CTRL write with bit 0 set is the soft reset, with the RNG state
seedToState(0) also when bit 1 is set; with bit 0 clear and bit 1 set it only loads the seed; the other bits do nothing; CTRL
reads 0. -/
def Obligations.CtrlResetsAndLoadsTheSeed : Prop :=
  ∀ (s : State) (rest : List Access),
    (∀ v, s.pending = .write 0x00008#20 32 0b1111#4 v :: rest →
      ∃ t, step s = .next t ∧ t.pending = rest ∧ t.responses = .okay :: s.responses ∧
        (v.getLsbD 0 = true →
          (∀ k, (t.buf k).len = 0 ∧ ∀ i, t.bit k i = s.bit k i) ∧ t.samples.len = 0 ∧
          t.samples.cells = s.samples.cells ∧ t.lastErr = .none ∧ t.errSticky = false ∧ t.snrDb = 0#64 ∧
          t.rngSeed = 0#64 ∧ t.rng = machineParams.noise.seedToState 0#64) ∧
        (v.getLsbD 0 = false →
          (∀ k, t.buf k = s.buf k) ∧ t.samples = s.samples ∧ t.lastErr = s.lastErr ∧ t.errSticky = s.errSticky ∧
          t.snrDb = s.snrDb ∧ t.rngSeed = s.rngSeed ∧
          t.rng = if v.getLsbD 1 = true then machineParams.noise.seedToState s.rngSeed else s.rng)) ∧
    (s.pending = .read 0x00008#20 32 :: rest →
      step s = .next { s with pending := rest, responses := .data 0#32 :: s.responses })

/-- 10_state.md R39 and R40: SNR_DB and RNG_SEED are written and read as two words, the low one at the lower address; a write
of a half changes nothing but that half, the RNG state included. -/
def Obligations.SnrAndSeedAreReadAndWrittenByHalves : Prop :=
  ∀ (s : State) (rest : List Access) (lo hi v : Word),
    (s.snrDb = hi ++ lo →
      (s.pending = .write 0x00010#20 32 0b1111#4 v :: rest →
        step s = .next { s with pending := rest, responses := .okay :: s.responses, snrDb := hi ++ v }) ∧
      (s.pending = .write 0x00014#20 32 0b1111#4 v :: rest →
        step s = .next { s with pending := rest, responses := .okay :: s.responses, snrDb := v ++ lo }) ∧
      (s.pending = .read 0x00010#20 32 :: rest →
        step s = .next { s with pending := rest, responses := .data lo :: s.responses }) ∧
      (s.pending = .read 0x00014#20 32 :: rest →
        step s = .next { s with pending := rest, responses := .data hi :: s.responses })) ∧
    (s.rngSeed = hi ++ lo →
      (s.pending = .write 0x00018#20 32 0b1111#4 v :: rest →
        step s = .next { s with pending := rest, responses := .okay :: s.responses, rngSeed := hi ++ v }) ∧
      (s.pending = .write 0x0001C#20 32 0b1111#4 v :: rest →
        step s = .next { s with pending := rest, responses := .okay :: s.responses, rngSeed := v ++ lo }) ∧
      (s.pending = .read 0x00018#20 32 :: rest →
        step s = .next { s with pending := rest, responses := .data lo :: s.responses }) ∧
      (s.pending = .read 0x0001C#20 32 :: rest →
        step s = .next { s with pending := rest, responses := .data hi :: s.responses }))

/-- 10_state.md R41 and R42: a write of v ≤ 65536 to a length register sets that length and nothing else, a larger v is
refused with a bus error and changes nothing, and a read returns the length zero-extended. -/
def Obligations.LengthRegisters : Prop :=
  ∀ (s : State) (rest : List Access), s.Inv →
    (∀ (k : BufIdx) (v : Word),
      s.pending = .write (BitVec.ofNat 20 (0x20 + 4 * bufNum k)) 32 0b1111#4 v :: rest →
        ∃ t, step s = .next t ∧ t.pending = rest ∧
          (v.toNat ≤ 65536 → t.responses = .okay :: s.responses ∧ (t.buf k).len = v.toNat) ∧
          (65536 < v.toNat → t.responses = .busError :: s.responses ∧ (t.buf k).len = (s.buf k).len) ∧
          (t.buf k).cells = (s.buf k).cells ∧ (∀ j, j ≠ k → t.buf j = s.buf j) ∧ t.samples = s.samples ∧
          t.lastErr = s.lastErr ∧ t.errSticky = s.errSticky ∧ t.snrDb = s.snrDb ∧ t.rngSeed = s.rngSeed ∧
          sameDraws s t) ∧
    (∀ (k : BufIdx), s.pending = .read (BitVec.ofNat 20 (0x20 + 4 * bufNum k)) 32 :: rest →
      ∃ w : Word, step s = .next { s with pending := rest, responses := .data w :: s.responses } ∧
        w.toNat = (s.buf k).len) ∧
    (∀ v : Word, s.pending = .write 0x00030#20 32 0b1111#4 v :: rest →
      ∃ t, step s = .next t ∧ t.pending = rest ∧
        (v.toNat ≤ 65536 → t.responses = .okay :: s.responses ∧ t.samples.len = v.toNat) ∧
        (65536 < v.toNat → t.responses = .busError :: s.responses ∧ t.samples.len = s.samples.len) ∧
        t.samples.cells = s.samples.cells ∧ (∀ j, t.buf j = s.buf j) ∧
        t.lastErr = s.lastErr ∧ t.errSticky = s.errSticky ∧ t.snrDb = s.snrDb ∧ t.rngSeed = s.rngSeed ∧
        sameDraws s t) ∧
    (s.pending = .read 0x00030#20 32 :: rest →
      ∃ w : Word, step s = .next { s with pending := rest, responses := .data w :: s.responses } ∧
        w.toNat = s.samples.len)

/-- 20_memory.md R63: word w of the window of B[k] holds the cells 32w to 32w + 31, cell 32w + j in bit j. A write sets the 32
cells and nothing else, whatever the length is; a read returns them, or is the fault UnwrittenRead when one is unwritten. -/
def Obligations.BitWindowHoldsThirtyTwoCellsPerWord : Prop :=
  ∀ (s : State) (rest : List Access) (k : BufIdx) (w : Nat), w < 2048 →
    let addr : BusAddr := BitVec.ofNat 20 (0x10000 + bufNum k * 0x2000 + 4 * w)
    (∀ v, s.pending = .write addr 32 0b1111#4 v :: rest →
      ∃ t, step s = .next t ∧ t.pending = rest ∧ t.responses = .okay :: s.responses ∧
        (∀ j < 32, t.bit k (32 * w + j) = some (v.getLsbD j)) ∧
        (∀ i, i < 32 * w ∨ 32 * w + 32 ≤ i → t.bit k i = s.bit k i) ∧ (t.buf k).len = (s.buf k).len ∧
        (∀ j, j ≠ k → t.buf j = s.buf j) ∧ t.samples = s.samples ∧ t.lastErr = s.lastErr ∧
        t.errSticky = s.errSticky ∧ t.snrDb = s.snrDb ∧ t.rngSeed = s.rngSeed ∧ sameDraws s t) ∧
    (s.pending = .read addr 32 :: rest →
      ((∃ j < 32, s.bit k (32 * w + j) = none) → step s = .fault .unwrittenRead) ∧
      ((∀ j < 32, s.bit k (32 * w + j) ≠ none) →
        ∃ v : Word, step s = .next { s with pending := rest, responses := .data v :: s.responses } ∧
          ∀ j < 32, s.bit k (32 * w + j) = some (v.getLsbD j)))

/-- 20_memory.md R64: sample i occupies the words at 0x80000 + 8i (bits [31:0]) and 0x80000 + 8i + 4 (bits [63:32]). A write of
a half is answered OKAY and changes that sample's cell and nothing else: in a written sample it replaces that half; in a cell
nothing has touched, one half leaves it unwritten and the other half, written next, writes it, in either order; a cell that
holds one half stays unwritten on a write of the same half and becomes written on a write of the other (that the half is kept
in the cell is read from R64 by the model, log 11). A read returns the half, or is the fault UnwrittenRead. -/
def Obligations.SampleWindowHoldsTwoWordsPerSample : Prop :=
  ∀ (s : State) (rest : List Access) (i : Nat), i < 65536 →
    let low : BusAddr := BitVec.ofNat 20 (0x80000 + 8 * i)
    let high : BusAddr := BitVec.ofNat 20 (0x80000 + 8 * i + 4)
    let storesTo : Option F64 → Prop := fun value =>
      ∃ t, step s = .next t ∧ t.sample i = value ∧ onlySampleChanged i s t ∧ t.pending = rest ∧
        t.responses = .okay :: s.responses
    (∀ v lo hi : Word, s.sample i = some (hi ++ lo) →
      (s.pending = .write low 32 0b1111#4 v :: rest → storesTo (some (hi ++ v))) ∧
      (s.pending = .write high 32 0b1111#4 v :: rest → storesTo (some (v ++ lo))) ∧
      (s.pending = .read low 32 :: rest →
        step s = .next { s with pending := rest, responses := .data lo :: s.responses }) ∧
      (s.pending = .read high 32 :: rest →
        step s = .next { s with pending := rest, responses := .data hi :: s.responses })) ∧
    (∀ lo hi : Word, s.samples.cells.get i = none →
      (s.pending = .write low 32 0b1111#4 lo :: .write high 32 0b1111#4 hi :: rest ∨
        s.pending = .write high 32 0b1111#4 hi :: .write low 32 0b1111#4 lo :: rest) →
        ∃ t u, step s = .next t ∧ step t = .next u ∧ t.sample i = none ∧ u.sample i = some (hi ++ lo) ∧
          onlySampleChanged i s t ∧ onlySampleChanged i s u ∧ u.pending = rest ∧
          t.responses = .okay :: s.responses ∧ u.responses = .okay :: .okay :: s.responses) ∧
    (∀ v lo : Word, s.samples.cells.get i = some (.lowOnly lo) →
      (s.pending = .write low 32 0b1111#4 v :: rest → storesTo none) ∧
      (s.pending = .write high 32 0b1111#4 v :: rest → storesTo (some (v ++ lo)))) ∧
    (∀ v hi : Word, s.samples.cells.get i = some (.highOnly hi) →
      (s.pending = .write high 32 0b1111#4 v :: rest → storesTo none) ∧
      (s.pending = .write low 32 0b1111#4 v :: rest → storesTo (some (hi ++ v)))) ∧
    (s.sample i = none → (s.pending = .read low 32 :: rest ∨ s.pending = .read high 32 :: rest) →
      step s = .fault .unwrittenRead)

/-- 10_state.md R36: a host write of CMD issues the word whatever it is, never a bus error, and a read of CMD returns 0. -/
def Obligations.CmdIssuesEveryWordAndReadsZero : Prop :=
  ∀ (s : State) (rest : List Access),
    (∀ w, s.pending = .write 0x00000#20 32 0b1111#4 w :: rest →
      step s = respondTo .okay (issueCommand w { s with pending := rest })) ∧
    (s.pending = .read 0x00000#20 32 :: rest →
      step s = .next { s with pending := rest, responses := .data 0#32 :: s.responses })

/-- 20_memory.md R76: the host's addresses of the CCB's window are the base plus the offset, one for one; an address outside
the 1 MiB window reaches no register of it. -/
def Obligations.HostAddressesAreBasePlusOffset : Prop :=
  ∀ base : Nat, (∀ off : BusAddr, offsetIn base (hostAddress base off) = some off) ∧
    (∀ a off, offsetIn base a = some off → hostAddress base off = a) ∧
    (∀ a, offsetIn base a = none ↔ (a < base ∨ base + 1048576 ≤ a))

/-! ### Reset and the invariant -/

/-- 70_reset_and_hazards.md R270: the state after power-on reset. -/
def Obligations.PowerOnState : Prop :=
  (∀ k, (State.reset.buf k).len = 0 ∧ ∀ i, State.reset.bit k i = none) ∧
    State.reset.samples.len = 0 ∧ (∀ i, State.reset.sample i = none) ∧ statusWord State.reset = 0#32 ∧
    State.reset.snrDb = 0x0000000000000000#64 ∧ State.reset.rngSeed = 0x0000000000000000#64 ∧
    State.reset.rng = machineParams.noise.seedToState 0x0000000000000000#64

/-- 70_reset_and_hazards.md R272: after either reset every command succeeds at once with an empty result. -/
def Obligations.EveryCommandSucceedsAfterReset : Prop :=
  ∀ (i : Instr) (s : State), (s = State.reset ∨ ∃ r, s = softReset r) →
    ∃ t, exec i s = .next t ∧ t.lastErr = .none ∧ (∀ k, (t.buf k).len = 0) ∧ t.samples.len = 0 ∧
      (∀ k n, t.bit k n = s.bit k n) ∧ (∀ n, t.sample n = s.sample n) ∧ t.rng = s.rng

/-- 10_state.md R33 and R35: every step keeps every length within the capacity and every buffer's cells within its indices, in
canonical form. -/
def Obligations.StepKeepsTheInvariant : Prop :=
  ∀ s t : State, s.Inv → step s = .next t → t.Inv

/-- 10_state.md R46: the invariant holds after power-on reset. -/
def Obligations.ResetMeetsTheInvariant : Prop := State.reset.Inv

/-- 10_state.md R33, R35 and 00_scope.md R5: in every state a run from power-on reaches, whatever the host does, the lengths
are at most 65536 and no cell at an index of 65536 or more is written. -/
def Obligations.ReachableStatesStayWithinCapacity : Prop :=
  ∀ (accesses : List Access) (s : State), ReachedBy accesses s →
    (∀ k, (s.buf k).len ≤ 65536) ∧ s.samples.len ≤ 65536 ∧
      (∀ k i, 65536 ≤ i → s.bit k i = none) ∧ (∀ i, 65536 ≤ i → s.sample i = none)
end

