-- ==== Sys2Proof/Laws/Binary64.lean ====
section
/-! SUPPORT. Rounding: the order and the spacing of the binary64 magnitudes, and that `roundMag` rounds to nearest, ties to
even (00_scope.md R9). -/

namespace Sys2Proof.Machine

/-- The values on the grid 2^(g − 1074): the magnitude `g·2^52 + n`. -/
theorem valueOfMag_grid (g n : Nat) (hn : n ≤ 2 ^ 53) (h : 2 ^ 52 ≤ n ∨ g = 0) :
    valueOfMag (g * 2 ^ 52 + n) = (n : ℚ) * (2 : ℚ) ^ ((g : Int) - 1074) := by
  rcases Nat.lt_or_ge n (2 ^ 52) with h1 | h1
  · obtain rfl : g = 0 := by omega
    have hd : (0 * 2 ^ 52 + n) / 2 ^ 52 = 0 := by omega
    have hm : (0 * 2 ^ 52 + n) % 2 ^ 52 = n := by omega
    simp only [valueOfMag, sigOfMag, expOfMag, hd, hm, if_true]
    norm_num
  · rcases Nat.lt_or_ge n (2 ^ 53) with h2 | h2
    · have hd : (g * 2 ^ 52 + n) / 2 ^ 52 = g + 1 := by omega
      have hm : 2 ^ 52 + (g * 2 ^ 52 + n) % 2 ^ 52 = n := by omega
      simp only [valueOfMag, sigOfMag, expOfMag, hd, hm, Nat.add_eq_zero_iff, one_ne_zero, and_false, if_false]
      congr 2
      push_cast
      ring
    · obtain rfl : n = 2 ^ 53 := by omega
      have hd : (g * 2 ^ 52 + 2 ^ 53) / 2 ^ 52 = g + 2 := by omega
      have hm : 2 ^ 52 + (g * 2 ^ 52 + 2 ^ 53) % 2 ^ 52 = 2 ^ 52 := by omega
      simp only [valueOfMag, sigOfMag, expOfMag, hd, hm, Nat.add_eq_zero_iff, OfNat.ofNat_ne_zero, and_false, if_false]
      rw [show ((g + 2 : Nat) : Int) - 1075 = 1 + ((g : Int) - 1074) by push_cast; ring,
        zpow_add₀ (by norm_num : (2 : ℚ) ≠ 0)]
      push_cast
      ring

/-- Every magnitude on its grid: the grid number and the integer significand. -/
theorem mag_grid (m : Nat) : ∃ g n : Nat, m = g * 2 ^ 52 + n ∧ n < 2 ^ 53 ∧ (2 ^ 52 ≤ n ∨ g = 0) ∧
    n = sigOfMag m ∧ expOfMag m = (g : Int) - 1074 := by
  by_cases h : m / 2 ^ 52 = 0
  · refine ⟨0, m, by omega, by omega, .inr rfl, ?_, ?_⟩
    · simp only [sigOfMag, h, if_true]; omega
    · simp only [expOfMag, h, if_true]; norm_num
  · refine ⟨m / 2 ^ 52 - 1, 2 ^ 52 + m % 2 ^ 52, by omega, by omega, .inl (by omega), ?_, ?_⟩
    · simp only [sigOfMag, h, if_false]
    · simp only [expOfMag, h, if_false]; omega

/-- The next magnitude is one unit of the last place higher. -/
theorem valueOfMag_succ (m : Nat) : valueOfMag (m + 1) = valueOfMag m + (2 : ℚ) ^ expOfMag m := by
  obtain ⟨g, n, hm, hn, hg, _, he⟩ := mag_grid m
  rw [he, hm, valueOfMag_grid g n (by omega) hg, Nat.add_assoc, valueOfMag_grid g (n + 1) (by omega) (by omega)]
  push_cast
  ring

/-- The order of the magnitudes is the order of the values. -/
theorem valueOfMag_strictMono : StrictMono valueOfMag :=
  strictMono_nat_of_lt_succ fun m => by
    rw [valueOfMag_succ]
    have : (0 : ℚ) < (2 : ℚ) ^ expOfMag m := zpow_pos (by norm_num) _
    linarith

theorem valueOfMag_zero : valueOfMag 0 = 0 := by simp [valueOfMag, sigOfMag]

theorem valueOfMag_nonneg (m : Nat) : 0 ≤ valueOfMag m := by
  rw [← valueOfMag_zero]
  exact valueOfMag_strictMono.monotone (Nat.zero_le m)

/-- The order of the magnitudes is the order of the values, over the reals. -/
theorem realValue_strictMono : StrictMono fun m => (valueOfMag m : ℝ) := fun _ _ h =>
  Rat.cast_lt.2 (valueOfMag_strictMono h)

/-- The nearer of two neighbours, the even one of two equally near, is the rounding of a number between them. -/
theorem roundsTo_of_between {v : ℝ} {a r : Nat} (hr : r = a ∨ r = a + 1)
    (hlo : (valueOfMag a : ℝ) ≤ v) (hhi : v ≤ (valueOfMag (a + 1) : ℝ))
    (hdown : r = a → 2 * v ≤ (valueOfMag a : ℝ) + valueOfMag (a + 1))
    (hup : r = a + 1 → (valueOfMag a : ℝ) + valueOfMag (a + 1) ≤ 2 * v)
    (heven : 2 * v = (valueOfMag a : ℝ) + valueOfMag (a + 1) → r % 2 = 0) : RoundsTo v r := by
  have hstep : (valueOfMag a : ℝ) < valueOfMag (a + 1) := realValue_strictMono (Nat.lt_succ_self a)
  have hz : ∀ z : Nat, (valueOfMag z : ℝ) ≤ valueOfMag a ∨ (valueOfMag (a + 1) : ℝ) ≤ valueOfMag z := by
    intro z
    rcases Nat.lt_or_ge a z with h | h
    · exact .inr (realValue_strictMono.monotone h)
    · exact .inl (realValue_strictMono.monotone h)
  have hda : |(valueOfMag a : ℝ) - v| = v - valueOfMag a := by rw [abs_sub_comm, abs_of_nonneg (by linarith)]
  have hdb : |(valueOfMag (a + 1) : ℝ) - v| = valueOfMag (a + 1) - v := abs_of_nonneg (by linarith)
  have hdz : ∀ z : Nat, ((valueOfMag z : ℝ) ≤ valueOfMag a → |(valueOfMag z : ℝ) - v| = v - valueOfMag z) ∧
      ((valueOfMag (a + 1) : ℝ) ≤ valueOfMag z → |(valueOfMag z : ℝ) - v| = valueOfMag z - v) := fun z =>
    ⟨fun h => by rw [abs_sub_comm, abs_of_nonneg (by linarith)], fun h => abs_of_nonneg (by linarith)⟩
  constructor
  · intro z
    rcases hr with rfl | rfl
    · rw [hda]
      rcases hz z with h | h
      · rw [(hdz z).1 h]; linarith
      · rw [(hdz z).2 h]; linarith [hdown rfl]
    · rw [hdb]
      rcases hz z with h | h
      · rw [(hdz z).1 h]; linarith [hup rfl]
      · rw [(hdz z).2 h]; linarith
  · intro z hne heq
    apply heven
    rcases hr with rfl | rfl
    · rw [hda] at heq
      rcases hz z with h | h
      · rw [(hdz z).1 h] at heq
        exact absurd (realValue_strictMono.injective (by simpa using (by linarith : (valueOfMag z : ℝ) = valueOfMag r))) hne
      · rw [(hdz z).2 h] at heq
        linarith [hdown rfl]
    · rw [hdb] at heq
      rcases hz z with h | h
      · rw [(hdz z).1 h] at heq
        linarith [hup rfl]
      · rw [(hdz z).2 h] at heq
        exact absurd (realValue_strictMono.injective
          (by simpa using (by linarith : (valueOfMag z : ℝ) = valueOfMag (a + 1)))) hne

/-- A number has at most one rounding. -/
theorem RoundsTo.le_of_le {v w : ℝ} {r s : Nat} (hr : RoundsTo v r) (hs : RoundsTo w s) (h : v ≤ w) : r ≤ s := by
  by_contra hlt
  rw [not_le] at hlt
  have hval : (valueOfMag s : ℝ) < valueOfMag r := realValue_strictMono hlt
  have h1 := hr.1 s
  have h2 := hs.1 r
  have hv : (valueOfMag s : ℝ) + valueOfMag r ≤ 2 * v := by
    rcases abs_cases ((valueOfMag r : ℝ) - v) with ⟨e1, _⟩ | ⟨e1, _⟩ <;>
      rcases abs_cases ((valueOfMag s : ℝ) - v) with ⟨e2, _⟩ | ⟨e2, _⟩ <;> rw [e1, e2] at h1 <;> linarith
  have hw : 2 * w ≤ (valueOfMag s : ℝ) + valueOfMag r := by
    rcases abs_cases ((valueOfMag r : ℝ) - w) with ⟨e1, _⟩ | ⟨e1, _⟩ <;>
      rcases abs_cases ((valueOfMag s : ℝ) - w) with ⟨e2, _⟩ | ⟨e2, _⟩ <;> rw [e1, e2] at h2 <;> linarith
  have hvw : v = w := by linarith
  subst hvw
  have hmid : 2 * v = (valueOfMag s : ℝ) + valueOfMag r := by linarith
  have hdr : |(valueOfMag r : ℝ) - v| = ((valueOfMag r : ℝ) - valueOfMag s) / 2 := by
    rw [abs_of_nonneg (by linarith)]; linarith
  have hds : |(valueOfMag s : ℝ) - v| = ((valueOfMag r : ℝ) - valueOfMag s) / 2 := by
    rw [abs_of_nonpos (by linarith)]; linarith
  have e1 := hr.2 s (by omega) (by rw [hdr, hds])
  have e2 := hs.2 r (by omega) (by rw [hdr, hds])
  have hnext : s + 1 < r := by omega
  have ha : (valueOfMag s : ℝ) < valueOfMag (s + 1) := realValue_strictMono (Nat.lt_succ_self s)
  have hb : (valueOfMag (s + 1) : ℝ) < valueOfMag r := realValue_strictMono hnext
  have := hr.1 (s + 1)
  rw [hdr] at this
  rcases abs_cases ((valueOfMag (s + 1) : ℝ) - v) with ⟨e, _⟩ | ⟨e, _⟩ <;> rw [e] at this <;> linarith

theorem RoundsTo.unique {v : ℝ} {r s : Nat} (hr : RoundsTo v r) (hs : RoundsTo v s) : r = s :=
  le_antisymm (hr.le_of_le hs le_rfl) (hs.le_of_le hr le_rfl)

/-- The values have no bound: every magnitude adds at least the smallest subnormal. -/
theorem le_valueOfMag {q : Int} (hq : q ≤ -1074) (n : Nat) : (n : ℚ) * (2 : ℚ) ^ q ≤ valueOfMag n := by
  induction n with
  | zero => simp [valueOfMag_zero]
  | succ n ih =>
    have he : q ≤ expOfMag n := by
      obtain ⟨g, _, _, _, _, _, h⟩ := mag_grid n
      omega
    have hp : (2 : ℚ) ^ q ≤ (2 : ℚ) ^ expOfMag n := zpow_le_zpow_right₀ (by norm_num) he
    rw [valueOfMag_succ]
    push_cast
    linarith

/-- Every nonnegative number lies between two neighbours. -/
theorem exists_between {v : ℝ} (hv : 0 ≤ v) :
    ∃ a : Nat, (valueOfMag a : ℝ) ≤ v ∧ v < (valueOfMag (a + 1) : ℝ) := by
  classical
  obtain ⟨q, hq⟩ : ∃ q : Int, q ≤ -1074 := ⟨-1074, le_rfl⟩
  have hpos : (0 : ℝ) < (2 : ℝ) ^ q := zpow_pos (by norm_num) _
  have hex : ∃ n : Nat, v < (valueOfMag n : ℝ) := by
    obtain ⟨n, hn⟩ := exists_nat_gt (v / (2 : ℝ) ^ q)
    refine ⟨n, ((div_lt_iff₀ hpos).1 hn).trans_le ?_⟩
    have := (Rat.cast_le (K := ℝ)).2 (le_valueOfMag hq n)
    push_cast at this
    exact this
  have h0 : Nat.find hex ≠ 0 := fun h => by
    have := Nat.find_spec hex
    rw [h, valueOfMag_zero, Rat.cast_zero] at this
    linarith
  refine ⟨Nat.find hex - 1, not_lt.1 (Nat.find_min hex (by omega)), ?_⟩
  rw [Nat.sub_add_cancel (Nat.pos_of_ne_zero h0)]
  exact Nat.find_spec hex

/-- Every nonnegative number has a rounding (00_scope.md R9). -/
theorem exists_roundsTo {v : ℝ} (hv : 0 ≤ v) : ∃ r, RoundsTo v r := by
  obtain ⟨a, hlo, hhi⟩ := exists_between hv
  rcases lt_trichotomy (2 * v) ((valueOfMag a : ℝ) + valueOfMag (a + 1)) with h | h | h
  · exact ⟨a, roundsTo_of_between (.inl rfl) hlo hhi.le (fun _ => h.le) (by omega) fun he => absurd he h.ne⟩
  · rcases Nat.mod_two_eq_zero_or_one a with ha | ha
    · exact ⟨a, roundsTo_of_between (.inl rfl) hlo hhi.le (fun _ => h.le) (by omega) fun _ => ha⟩
    · exact ⟨a + 1, roundsTo_of_between (.inr rfl) hlo hhi.le (by omega) (fun _ => h.ge) fun _ => by omega⟩
  · exact ⟨a + 1, roundsTo_of_between (.inr rfl) hlo hhi.le (by omega) (fun _ => h.le) fun he => absurd he h.ne'⟩

/-- A representable number is its own rounding. -/
theorem roundsTo_self (r : Nat) : RoundsTo (valueOfMag r : ℝ) r :=
  ⟨fun z => by simp, fun z hne heq => by
    have : (valueOfMag z : ℝ) = valueOfMag r := by simpa [sub_eq_zero] using heq
    exact absurd (realValue_strictMono.injective this) hne⟩

/-! Patterns: sign and magnitude. -/

theorem mag_ofMag (neg : Bool) {m : Nat} (h : m < 2 ^ 63) : mag (ofMag neg m) = m := by
  cases neg <;> simp only [mag, ofMag, BitVec.toNat_ofNat] <;> norm_num <;> omega

theorem isNeg_ofMag (neg : Bool) {m : Nat} (h : m < 2 ^ 63) : isNeg (ofMag neg m) = neg := by
  cases neg <;> simp only [isNeg, ofMag, BitVec.toNat_ofNat] <;> norm_num <;> omega

theorem ofMag_isNeg_mag (x : F64) : ofMag (isNeg x) (mag x) = x := by
  have hx := x.isLt
  apply BitVec.eq_of_toNat_eq
  simp only [isNeg, mag, ofMag, BitVec.toNat_ofNat]
  by_cases h : 2 ^ 63 ≤ x.toNat
  · simp only [h, decide_true, if_true]
    omega
  · simp only [h, decide_false]
    norm_num
    omega

theorem mag_lt (x : F64) : mag x < 2 ^ 63 := Nat.mod_lt _ (by norm_num)

/-- The value of a finite pattern from its integer significand. -/
theorem valueOf_eq (x : F64) : valueOf x = (if isNeg x then -1 else 1) * ((sig x : ℚ) * (2 : ℚ) ^ expo x) := rfl

/-- The scaled significand has the value of the pattern (00_scope.md R9). -/
theorem scaled_value (x : F64) {e : Int} (h : e ≤ expo x) : (scaled x e : ℚ) * (2 : ℚ) ^ e = valueOf x := by
  have hpow : (2 : ℚ) ^ expo x = (2 : ℚ) ^ (expo x - e).toNat * (2 : ℚ) ^ e := by
    rw [← zpow_natCast, ← zpow_add₀ (by norm_num : (2 : ℚ) ≠ 0)]
    congr 1
    omega
  rw [valueOf_eq, hpow, scaled]
  split_ifs <;> push_cast <;> ring

/-- The significand of a nonzero finite pattern is between 1 and 2^53 − 1. -/
theorem sig_pos_lt {x : F64} (h : isZero x = false) : 0 < sig x ∧ sig x < 2 ^ 53 := by
  simp only [isZero, decide_eq_false_iff_not] at h
  simp only [sig, sigOfMag]
  split_ifs with h1
  · exact ⟨by omega, by omega⟩
  · exact ⟨by omega, by omega⟩

/-! The integer square root. -/

theorem isqrtFrom_spec (n b r : Nat) (h1 : r * r ≤ n) (h2 : n < (r + 2 ^ b) * (r + 2 ^ b)) :
    isqrtFrom n b r * isqrtFrom n b r ≤ n ∧ n < (isqrtFrom n b r + 1) * (isqrtFrom n b r + 1) := by
  induction b generalizing r with
  | zero => exact ⟨h1, h2⟩
  | succ b ih =>
    have hb : r + 2 ^ (b + 1) = r + 2 ^ b + 2 ^ b := by rw [pow_succ]; ring
    rw [hb] at h2
    rw [isqrtFrom]
    split_ifs with h
    · exact ih _ h h2
    · exact ih _ h1 (Nat.lt_of_not_le h)

/-! Rounding. -/

theorem roundShift_cases (m sh : Nat) (sticky : Bool) :
    (roundShift m sh sticky = m / 2 ^ sh ∧ (2 * (m % 2 ^ sh) < 2 ^ sh ∨
      (2 * (m % 2 ^ sh) = 2 ^ sh ∧ sticky = false ∧ (m / 2 ^ sh) % 2 = 0))) ∨
    (roundShift m sh sticky = m / 2 ^ sh + 1 ∧ (2 ^ sh < 2 * (m % 2 ^ sh) ∨
      (2 * (m % 2 ^ sh) = 2 ^ sh ∧ (sticky = true ∨ (m / 2 ^ sh) % 2 = 1)))) := by
  simp only [roundShift]
  split_ifs with h1 h2 h3
  · exact .inl ⟨rfl, .inl h1⟩
  · exact .inr ⟨rfl, .inl h2⟩
  · exact .inr ⟨rfl, .inr ⟨by omega, by simpa using h3⟩⟩
  · refine .inl ⟨rfl, .inr ⟨by omega, ?_⟩⟩
    simp only [Bool.or_eq_true, decide_eq_true_eq, not_or, Bool.not_eq_true] at h3
    exact ⟨h3.1, by omega⟩

/-- What `roundMag` does: the rounding of the number, to nearest, ties to even, cut off at the infinity. The number `v` is
`m · 2^e`, or with `sticky` strictly between it and `(m + 1) · 2^e`, `m` then being large enough (00_scope.md R9). -/
theorem roundMag_roundsTo {m : Nat} {e : Int} {sticky : Bool} {v : ℝ} (hm : 0 < m)
    (hexact : sticky = false → v = (m : ℝ) * (2 : ℝ) ^ e)
    (hsticky : sticky = true → (m : ℝ) * (2 : ℝ) ^ e < v ∧ v < ((m : ℝ) + 1) * (2 : ℝ) ^ e ∧ 2 ^ 54 ≤ m) :
    ∃ r, RoundsTo v r ∧ roundMag m e sticky = min r infMag := by
  have hL1 : 2 ^ Nat.log2 m ≤ m := Nat.log2_self_le (by omega)
  have hL2 : m < 2 ^ (Nat.log2 m + 1) := Nat.lt_log2_self
  generalize hL : Nat.log2 m = L at hL1 hL2
  obtain ⟨g, hg⟩ : ∃ g : Nat, max (e + (L : Int) - 52) (-1074) = (g : Int) - 1074 :=
    ⟨(max (e + (L : Int) - 52) (-1074) + 1074).toNat, by omega⟩
  have hround : roundMag m e sticky =
      min (g * 2 ^ 52 + if (g : Int) - 1074 ≤ e then m * 2 ^ (e - ((g : Int) - 1074)).toNat
        else roundShift m ((g : Int) - 1074 - e).toNat sticky) infMag := by
    simp only [roundMag, hL, hg]
    congr 3
    omega
  have hpos : (0 : ℝ) < (2 : ℝ) ^ e := zpow_pos (by norm_num) _
  by_cases hq : (g : Int) - 1074 ≤ e
  · -- the number is on the grid
    have hns : sticky = false := by
      by_contra hne
      have h54 := (hsticky (by simpa using hne)).2.2
      have : 54 < L + 1 := (Nat.pow_lt_pow_iff_right (by norm_num : 1 < 2)).1 (lt_of_le_of_lt h54 hL2)
      omega
    rw [if_pos hq] at hround
    obtain ⟨d, hd⟩ : ∃ d : Nat, e - ((g : Int) - 1074) = (d : Int) := ⟨(e - ((g : Int) - 1074)).toNat, by omega⟩
    rw [hd, Int.toNat_natCast] at hround
    refine ⟨g * 2 ^ 52 + m * 2 ^ d, ?_, hround⟩
    have hn : m * 2 ^ d < 2 ^ 53 := by
      calc m * 2 ^ d < 2 ^ (L + 1) * 2 ^ d := Nat.mul_lt_mul_of_pos_right hL2 (by positivity)
        _ = 2 ^ (L + 1 + d) := (pow_add 2 _ _).symm
        _ ≤ 2 ^ 53 := Nat.pow_le_pow_right (by norm_num) (by omega)
    have hng : 2 ^ 52 ≤ m * 2 ^ d ∨ g = 0 := by
      by_cases hg0 : g = 0
      · exact .inr hg0
      · left
        calc 2 ^ 52 = 2 ^ (L + d) := by congr 1; omega
          _ = 2 ^ L * 2 ^ d := pow_add 2 _ _
          _ ≤ m * 2 ^ d := Nat.mul_le_mul_right _ hL1
    have hval : v = (valueOfMag (g * 2 ^ 52 + m * 2 ^ d) : ℝ) := by
      rw [hexact hns, valueOfMag_grid g _ (by omega) hng, show e = (d : Int) + ((g : Int) - 1074) by omega,
        zpow_add₀ (by norm_num : (2 : ℝ) ≠ 0)]
      push_cast
      rw [zpow_natCast]
      ring
    rw [hval]
    exact roundsTo_self _
  · rw [if_neg hq] at hround
    obtain ⟨sh, hsh⟩ : ∃ sh : Nat, (g : Int) - 1074 - e = (sh : Int) := ⟨((g : Int) - 1074 - e).toNat, by omega⟩
    have hsh1 : 1 ≤ sh := by omega
    rw [hsh, Int.toNat_natCast] at hround
    have hQ : m / 2 ^ sh < 2 ^ 53 := by
      rw [Nat.div_lt_iff_lt_mul (by positivity), ← pow_add]
      exact lt_of_lt_of_le hL2 (Nat.pow_le_pow_right (by norm_num) (by omega))
    have hQg : 2 ^ 52 ≤ m / 2 ^ sh ∨ g = 0 := by
      by_cases hg0 : g = 0
      · exact .inr hg0
      · left
        rw [Nat.le_div_iff_mul_le (by positivity), ← pow_add]
        exact le_trans (Nat.pow_le_pow_right (by norm_num) (by omega)) hL1
    have hlo : (valueOfMag (g * 2 ^ 52 + m / 2 ^ sh) : ℝ) = ((m / 2 ^ sh : Nat) : ℝ) * ((2 : ℝ) ^ sh * (2 : ℝ) ^ e) := by
      rw [valueOfMag_grid g _ (by omega) hQg, show (g : Int) - 1074 = (sh : Int) + e by omega]
      push_cast
      rw [zpow_add₀ (by norm_num : (2 : ℝ) ≠ 0), zpow_natCast]
    have hhi : (valueOfMag (g * 2 ^ 52 + m / 2 ^ sh + 1) : ℝ) =
        (((m / 2 ^ sh : Nat) : ℝ) + 1) * ((2 : ℝ) ^ sh * (2 : ℝ) ^ e) := by
      rw [Nat.add_assoc, valueOfMag_grid g (m / 2 ^ sh + 1) (by omega) (by omega),
        show (g : Int) - 1074 = (sh : Int) + e by omega]
      push_cast
      rw [zpow_add₀ (by norm_num : (2 : ℝ) ≠ 0), zpow_natCast]
    have hdm : 2 ^ sh * (m / 2 ^ sh) + m % 2 ^ sh = m := Nat.div_add_mod m (2 ^ sh)
    have hmod : m % 2 ^ sh < 2 ^ sh := Nat.mod_lt _ (by positivity)
    have heven2 : ∃ p, 2 ^ sh = 2 * p := ⟨2 ^ (sh - 1), by rw [← pow_succ']; congr 1; omega⟩
    -- the position of the number, in units of 2^e
    obtain ⟨u, hu⟩ : ∃ u : ℝ, v = u * (2 : ℝ) ^ e := ⟨v / (2 : ℝ) ^ e, by field_simp⟩
    have hu1 : sticky = false → u = m := fun h => by
      have := hexact h
      rw [hu] at this
      exact mul_right_cancel₀ hpos.ne' this
    have hu2 : sticky = true → (m : ℝ) < u ∧ u < (m : ℝ) + 1 := fun h => by
      obtain ⟨h1, h2, _⟩ := hsticky h
      rw [hu] at h1 h2
      exact ⟨lt_of_mul_lt_mul_right h1 hpos.le, lt_of_mul_lt_mul_right h2 hpos.le⟩
    have hu3 : (m : ℝ) ≤ u ∧ u < (m : ℝ) + 1 := by
      cases hs : sticky with
      | false => rw [hu1 hs]; constructor <;> linarith
      | true => exact ⟨(hu2 hs).1.le, (hu2 hs).2⟩
    generalize hQdef : m / 2 ^ sh = Q at *
    generalize hRdef : m % 2 ^ sh = R at *
    have hmr : (m : ℝ) = (2 : ℝ) ^ sh * Q + R := by exact_mod_cast hdm.symm
    have hR1 : (R : ℝ) + 1 ≤ (2 : ℝ) ^ sh := by exact_mod_cast hmod
    have hR0 : (0 : ℝ) ≤ R := Nat.cast_nonneg R
    refine ⟨g * 2 ^ 52 + roundShift m sh sticky, ?_, hround⟩
    have hcases := roundShift_cases m sh sticky
    rw [hQdef, hRdef] at hcases
    rw [hu]
    refine roundsTo_of_between (a := g * 2 ^ 52 + Q) ?_ ?_ ?_ ?_ ?_ ?_
    · rcases hcases with ⟨h, _⟩ | ⟨h, _⟩ <;> rw [h] <;> [left; right] <;> ring
    · rw [hlo, ← mul_assoc]
      refine mul_le_mul_of_nonneg_right ?_ hpos.le
      linarith [hu3.1]
    · rw [hhi, ← mul_assoc]
      refine mul_le_mul_of_nonneg_right ?_ hpos.le
      linarith [hu3.2]
    · intro hr
      have hr' : roundShift m sh sticky = Q := by omega
      rw [hlo, hhi]
      have key : 2 * u ≤ (2 * (Q : ℝ) + 1) * (2 : ℝ) ^ sh := by
        rcases hcases with ⟨_, h | ⟨h, hst, _⟩⟩ | ⟨h, _⟩
        · obtain ⟨p, hp⟩ := heven2
          have : (2 : ℝ) * (R : ℝ) + 2 ≤ (2 : ℝ) ^ sh := by exact_mod_cast (by omega : 2 * R + 2 ≤ 2 ^ sh)
          linarith [hu3.2]
        · have : (2 : ℝ) * (R : ℝ) = (2 : ℝ) ^ sh := by exact_mod_cast h
          rw [hu1 hst]
          linarith
        · omega
      nlinarith [mul_le_mul_of_nonneg_right key hpos.le]
    · intro hr
      have hr' : roundShift m sh sticky = Q + 1 := by omega
      rw [hlo, hhi]
      have key : (2 * (Q : ℝ) + 1) * (2 : ℝ) ^ sh ≤ 2 * u := by
        rcases hcases with ⟨h, _⟩ | ⟨_, h | ⟨h, _⟩⟩
        · omega
        · have : (2 : ℝ) ^ sh < (2 : ℝ) * (R : ℝ) := by exact_mod_cast h
          linarith [hu3.1]
        · have : (2 : ℝ) * (R : ℝ) = (2 : ℝ) ^ sh := by exact_mod_cast h
          linarith [hu3.1]
      nlinarith [mul_le_mul_of_nonneg_right key hpos.le]
    · intro htie
      rw [hlo, hhi] at htie
      have key : 2 * u = (2 * (Q : ℝ) + 1) * (2 : ℝ) ^ sh := by
        refine mul_right_cancel₀ hpos.ne' ?_
        linarith
      rcases hcases with ⟨hr, h | ⟨_, _, h⟩⟩ | ⟨hr, h | ⟨h, hst | hodd⟩⟩
      · obtain ⟨p, hp⟩ := heven2
        have : (2 : ℝ) * (R : ℝ) + 2 ≤ (2 : ℝ) ^ sh := by exact_mod_cast (by omega : 2 * R + 2 ≤ 2 ^ sh)
        linarith [hu3.2]
      · rw [hr]; omega
      · have : (2 : ℝ) ^ sh < (2 : ℝ) * (R : ℝ) := by exact_mod_cast h
        linarith [hu3.1]
      · have : (2 : ℝ) * (R : ℝ) = (2 : ℝ) ^ sh := by exact_mod_cast h
        linarith [(hu2 hst).1]
      · rw [hr]; omega

end Sys2Proof.Machine
end

