-- ==== Sys2Proof/Laws/Codes.lean ====
section
/-! SUPPORT. The shape of blocks and sequences: lengths, and where block number b of an encoded or decoded sequence stands. -/

namespace Sys2Proof.Machine

/-- The parameters of a scheme are positive and k ≤ n (40_code_schemes.md R120). -/
theorem messageLength_pos (sc : Scheme) : 0 < messageLength sc := by cases sc <;> decide

theorem codewordLength_pos (sc : Scheme) : 0 < codewordLength sc := by cases sc <;> decide

theorem messageLength_le (sc : Scheme) : messageLength sc ≤ codewordLength sc := by cases sc <;> decide

/-! Concatenations of blocks of one length. -/

theorem length_flatMap_range {α : Type} (f : Nat → List α) (n N : Nat) (h : ∀ b < N, (f b).length = n) :
    ((List.range N).flatMap f).length = N * n := by
  induction N with
  | zero => simp
  | succ N ih =>
    rw [List.range_succ, List.flatMap_append, List.length_append, ih fun b hb => h b (by omega)]
    simp [h N (by omega), Nat.succ_mul]

theorem getElem?_flatMap_range {α : Type} (f : Nat → List α) (n N : Nat) (h : ∀ b < N, (f b).length = n)
    {b j : Nat} (hb : b < N) (hj : j < n) : ((List.range N).flatMap f)[b * n + j]? = (f b)[j]? := by
  induction N with
  | zero => omega
  | succ N ih =>
    have hl := length_flatMap_range f n N fun b hb => h b (by omega)
    rw [List.range_succ, List.flatMap_append]
    by_cases hbN : b < N
    · have hlt : b * n + j < N * n := by
        calc b * n + j < b * n + n := by omega
          _ = (b + 1) * n := by ring
          _ ≤ N * n := Nat.mul_le_mul_right n hbN
      rw [List.getElem?_append_left (by rw [hl]; exact hlt), ih (fun b hb => h b (by omega)) hbN]
    · obtain rfl : b = N := by omega
      rw [List.getElem?_append_right (by rw [hl]; omega), hl]
      simp

/-- Block number b of a concatenation of blocks of one length is the b-th of them. -/
theorem blockAt_flatMap_range (f : Nat → List Bool) (n N : Nat) (h : ∀ b < N, (f b).length = n)
    {b : Nat} (hb : b < N) : blockAt n b ((List.range N).flatMap f) = f b := by
  apply List.ext_getElem?
  intro j
  rw [blockAt, List.getElem?_take]
  split_ifs with hj
  · rw [List.getElem?_drop, getElem?_flatMap_range f n N h hb hj]
  · rw [List.getElem?_eq_none (by rw [h b hb]; omega)]

/-- A block of a sequence that reaches to its end has the block length. -/
theorem length_blockAt {n b : Nat} {m : List Bool} (h : b < m.length / n) : (blockAt n b m).length = n := by
  have : (b + 1) * n ≤ m.length := (Nat.mul_le_mul_right n h).trans (Nat.div_mul_le_self _ _)
  rw [blockAt, List.length_take, List.length_drop]
  have : b * n + n ≤ m.length := by linarith [Nat.succ_mul b n]
  omega

/-- Element j of block b of a sequence. -/
theorem getElem?_blockAt {n b j : Nat} (m : List Bool) (hj : j < n) : (blockAt n b m)[j]? = m[b * n + j]? := by
  rw [blockAt, List.getElem?_take, if_pos hj, List.getElem?_drop]

/-- A sequence of whole blocks is the concatenation of its blocks. -/
theorem flatMap_blockAt {n : Nat} {m : List Bool} (hn : 0 < n) (h : m.length % n = 0) :
    ((List.range (m.length / n)).flatMap fun b => blockAt n b m) = m := by
  have hlen : ∀ b < m.length / n, (blockAt n b m).length = n := fun b hb => length_blockAt hb
  have htot := length_flatMap_range (fun b => blockAt n b m) n _ hlen
  have hm : m.length / n * n = m.length := Nat.div_mul_cancel (Nat.dvd_of_mod_eq_zero h)
  apply List.ext_getElem?
  intro i
  by_cases hi : i < m.length
  · have hb : i / n < m.length / n := by
      rw [Nat.div_lt_iff_lt_mul hn, hm]; exact hi
    have hj : i % n < n := Nat.mod_lt _ hn
    have hsplit : i / n * n + i % n = i := by rw [Nat.mul_comm]; exact Nat.div_add_mod i n
    have := getElem?_flatMap_range (fun b => blockAt n b m) n _ hlen hb hj
    rw [hsplit] at this
    rw [this, getElem?_blockAt m hj, hsplit]
  · rw [List.getElem?_eq_none (by rw [htot, hm]; omega), List.getElem?_eq_none (by omega)]

/-! The block functions. -/

@[simp] theorem length_addRows (a b : List Bool) : (addRows a b).length = min a.length b.length := by
  simp [addRows]

/-- `m·G` has as many columns as `G` (40_code_schemes.md R122). -/
theorem length_rowTimes (n : Nat) (m : List Bool) (g : List (List Bool)) (h : ∀ row ∈ g, row.length = n) :
    (rowTimes n m g).length = n := by
  induction g generalizing m with
  | nil => cases m <;> simp [rowTimes]
  | cons r g ih =>
    cases m with
    | nil => simp [rowTimes]
    | cons b m =>
      have := ih m fun row hrow => h row (by simp [hrow])
      simp only [rowTimes] at this
      simp [rowTimes, this, h r (by simp)]

/-- A block of k bits is encoded in n bits (41_encode.md R152 to R155). -/
theorem length_encBlock (sc : Scheme) {m : List Bool} (h : m.length = messageLength sc) :
    (encBlock sc m).length = codewordLength sc := by
  cases sc with
  | uncoded => simpa [encBlock, codewordLength, messageLength] using h
  | repetition3 => simp [encBlock, codewordLength, messageLength] at h ⊢; omega
  | repetition5 => simp [encBlock, codewordLength, messageLength] at h ⊢; omega
  | hamming74 => exact length_rowTimes 7 m g7 (by decide)
  | hamming1511 => exact length_rowTimes 15 m g15 (by decide)

/-- A block of n bits is decoded in k bits (42_decode.md R172 to R175). -/
theorem length_decBlock (sc : Scheme) {c : List Bool} (h : c.length = codewordLength sc) :
    (decBlock sc c).length = messageLength sc := by
  cases sc <;> simp [decBlock, codewordLength, messageLength] at h ⊢ <;> omega

/-! Whole sequences. -/

/-- The length of an encoded sequence (41_encode.md R150, R156). -/
theorem length_encodeBits (sc : Scheme) (m : List Bool) :
    (encodeBits sc m).length = m.length / messageLength sc * codewordLength sc :=
  length_flatMap_range _ _ _ fun _ hb => length_encBlock sc (length_blockAt hb)

/-- Codeword number b of an encoded sequence. -/
theorem getElem?_encodeBits (sc : Scheme) (m : List Bool) {b j : Nat} (hb : b < m.length / messageLength sc)
    (hj : j < codewordLength sc) :
    (encodeBits sc m)[b * codewordLength sc + j]? = (encBlock sc (blockAt (messageLength sc) b m))[j]? :=
  getElem?_flatMap_range _ _ _ (fun _ hb => length_encBlock sc (length_blockAt hb)) hb hj

/-- The length of a decoded sequence (42_decode.md R170). -/
theorem length_decodeBits (sc : Scheme) (r : List Bool) :
    (decodeBits sc r).length = r.length / codewordLength sc * messageLength sc :=
  length_flatMap_range _ _ _ fun _ hb => length_decBlock sc (length_blockAt hb)

/-- Message number b of a decoded sequence. -/
theorem getElem?_decodeBits (sc : Scheme) (r : List Bool) {b j : Nat} (hb : b < r.length / codewordLength sc)
    (hj : j < messageLength sc) :
    (decodeBits sc r)[b * messageLength sc + j]? = (decBlock sc (blockAt (codewordLength sc) b r))[j]? :=
  getElem?_flatMap_range _ _ _ (fun _ hb => length_decBlock sc (length_blockAt hb)) hb hj

end Sys2Proof.Machine
end

