-- ==== Sys2Proof/Laws/Cells.lean ====
section
/-! SUPPORT. What the cell operations do: one reading lemma per operation, and that each keeps the canonical form. -/

namespace Sys2Proof.Machine

variable {α : Type}

@[simp] theorem Cells.get_nil (i : Nat) : Cells.get ([] : Cells α) i = none := rfl

theorem Cells.get_cons (j : Nat) (v : α) (c : Cells α) (i : Nat) :
    Cells.get ((j, v) :: c) i = if j = i then some v else Cells.get c i := rfl

@[simp] theorem Cells.get_set_same (c : Cells α) (i : Nat) (v : α) : (c.set i v).get i = some v := by
  induction c with
  | nil => simp [Cells.set, Cells.get_cons]
  | cons p c ih =>
    obtain ⟨j, u⟩ := p
    simp only [Cells.set]
    split_ifs with h1 h2
    · simp [Cells.get_cons]
    · simp [Cells.get_cons]
    · rw [Cells.get_cons, if_neg (fun h => h2 h.symm), ih]

theorem Cells.get_set_other (c : Cells α) {i k : Nat} (v : α) (h : k ≠ i) : (c.set i v).get k = c.get k := by
  induction c with
  | nil => simp [Cells.set, Cells.get_cons, h.symm]
  | cons p c ih =>
    obtain ⟨j, u⟩ := p
    simp only [Cells.set]
    split_ifs with h1 h2
    · rw [Cells.get_cons, if_neg h.symm]
    · subst h2; simp [Cells.get_cons, h.symm]
    · simp [Cells.get_cons, ih]

theorem Cells.get_ofList (vs : List α) (i k : Nat) :
    Cells.get (Cells.ofList i vs) k = if i ≤ k then vs[k - i]? else none := by
  induction vs generalizing i with
  | nil => simp [Cells.ofList]
  | cons v vs ih =>
    rw [Cells.ofList, Cells.get_cons, ih]
    by_cases h : i = k
    · simp [h]
    · by_cases h2 : i + 1 ≤ k
      · rw [if_neg h, if_pos h2, if_pos (by omega), show k - i = (k - (i + 1)) + 1 by omega,
          List.getElem?_cons_succ]
      · rw [if_neg h, if_neg h2, if_neg (by omega)]

theorem Cells.get_append (a b : Cells α) (k : Nat) :
    Cells.get (a ++ b) k = (Cells.get a k).or (Cells.get b k) := by
  induction a with
  | nil => simp
  | cons p a ih =>
    obtain ⟨j, u⟩ := p
    rw [List.cons_append, Cells.get_cons, Cells.get_cons, ih]
    split_ifs <;> simp

theorem Cells.get_filter_ge (c : Cells α) (n k : Nat) :
    Cells.get (c.filter fun p => decide (n ≤ p.1)) k = if n ≤ k then c.get k else none := by
  induction c with
  | nil => simp
  | cons p c ih =>
    obtain ⟨j, u⟩ := p
    rw [List.filter_cons, Cells.get_cons]
    by_cases h : n ≤ j
    · rw [if_pos (by simpa using h), Cells.get_cons, ih]
      by_cases hjk : j = k
      · subst hjk; simp [h]
      · simp [hjk]
    · rw [if_neg (by simpa using h), ih]
      by_cases hjk : j = k
      · subst hjk; simp [h]
      · simp [hjk]

/-- What `writePrefix` does: the cells below the length of the list hold it, every other cell keeps its content. -/
theorem Cells.get_writePrefix (vs : List α) (c : Cells α) (k : Nat) :
    (c.writePrefix vs).get k = if k < vs.length then vs[k]? else c.get k := by
  rw [Cells.writePrefix, Cells.get_append, Cells.get_ofList, Cells.get_filter_ge]
  by_cases h : k < vs.length
  · simp [h]
  · simp [h, Nat.le_of_not_lt h]

/-- What `write` does: the cells from `i` on hold the list, every other cell keeps its content. -/
theorem Cells.get_write (vs : List α) (c : Cells α) (i k : Nat) :
    (c.write i vs).get k = if i ≤ k ∧ k < i + vs.length then vs[k - i]? else c.get k := by
  induction vs generalizing c i with
  | nil => rw [Cells.write, if_neg (by simp)]
  | cons v vs ih =>
    rw [Cells.write, ih]
    by_cases h1 : i + 1 ≤ k ∧ k < i + 1 + vs.length
    · rw [if_pos h1, if_pos (by simp; omega), show k - i = (k - (i + 1)) + 1 by omega, List.getElem?_cons_succ]
    · rw [if_neg h1]
      by_cases h2 : k = i
      · subst h2; simp
      · rw [Cells.get_set_other _ _ h2, if_neg (by simp; omega)]

/-- What `read` answers: the values of the cells, when every one of them is written. -/
theorem Cells.read_eq_some_iff (c : Cells α) (i n : Nat) (vs : List α) :
    c.read i n = some vs ↔ vs.length = n ∧ ∀ j < n, c.get (i + j) = vs[j]? := by
  induction n generalizing i vs with
  | zero => cases vs <;> simp [Cells.read]
  | succ n ih =>
    rw [Cells.read]
    constructor
    · intro h
      split at h
      · rename_i v ws hv hw
        obtain rfl : v :: ws = vs := by simpa using h
        obtain ⟨hl, hg⟩ := (ih _ _).1 hw
        refine ⟨by simp [hl], fun j hj => ?_⟩
        cases j with
        | zero => simpa using hv
        | succ j =>
          have := hg j (by omega)
          rw [show i + (j + 1) = i + 1 + j by omega, this, List.getElem?_cons_succ]
      · simp at h
    · rintro ⟨hl, hg⟩
      cases vs with
      | nil => simp at hl
      | cons v ws =>
        have h0 : c.get i = some v := by simpa using hg 0 (by omega)
        have hw : c.read (i + 1) n = some ws := by
          refine (ih _ _).2 ⟨by simpa using hl, fun j hj => ?_⟩
          have := hg (j + 1) (by omega)
          rw [show i + 1 + j = i + (j + 1) by omega, this, List.getElem?_cons_succ]
        simp [h0, hw]

/-- `read` fails exactly when a cell of the range is unwritten. -/
theorem Cells.read_eq_none_iff (c : Cells α) (i n : Nat) :
    c.read i n = none ↔ ∃ j < n, c.get (i + j) = none := by
  induction n generalizing i with
  | zero => simp [Cells.read]
  | succ n ih =>
    rw [Cells.read]
    cases hv : c.get i with
    | none => simpa using ⟨0, by omega, by simpa using hv⟩
    | some v =>
      cases hw : c.read (i + 1) n with
      | none =>
        obtain ⟨j, hj, hn⟩ := (ih _).1 hw
        simpa using ⟨j + 1, by omega, by rwa [show i + (j + 1) = i + 1 + j by omega]⟩
      | some ws =>
        simp only [false_iff, not_exists, not_and, reduceCtorEq]
        intro j hj hn
        cases j with
        | zero => simp [hv] at hn
        | succ j =>
          have : c.read (i + 1) n = none := (ih _).2 ⟨j, by omega, by rwa [show i + 1 + j = i + (j + 1) by omega]⟩
          simp [hw] at this

/-- The length of what `read` answers. -/
theorem Cells.read_length {c : Cells α} {i n : Nat} {vs : List α} (h : c.read i n = some vs) : vs.length = n :=
  ((Cells.read_eq_some_iff c i n vs).1 h).1

/-! The canonical form. -/

theorem Cells.rising_mono {bound lo lo' : Nat} {c : Cells α} (hle : lo' ≤ lo) (h : Cells.rising bound lo c = true) :
    Cells.rising bound lo' c = true := by
  cases c with
  | nil => rfl
  | cons p c =>
    obtain ⟨j, u⟩ := p
    simp only [Cells.rising, Bool.and_eq_true, decide_eq_true_eq] at h ⊢
    exact ⟨⟨by omega, h.1.2⟩, h.2⟩

theorem Cells.rising_set {bound lo i : Nat} {c : Cells α} (v : α) (h : Cells.rising bound lo c = true)
    (hlo : lo ≤ i) (hi : i < bound) : Cells.rising bound lo (c.set i v) = true := by
  induction c generalizing lo with
  | nil => simp [Cells.set, Cells.rising, hlo, hi]
  | cons p c ih =>
    obtain ⟨j, u⟩ := p
    simp only [Cells.rising, Bool.and_eq_true, decide_eq_true_eq] at h
    simp only [Cells.set]
    split_ifs with h1 h2
    · simp only [Cells.rising, Bool.and_eq_true, decide_eq_true_eq]
      exact ⟨⟨hlo, hi⟩, ⟨by omega, h.1.2⟩, h.2⟩
    · subst h2
      simp only [Cells.rising, Bool.and_eq_true, decide_eq_true_eq]
      exact h
    · simp only [Cells.rising, Bool.and_eq_true, decide_eq_true_eq]
      exact ⟨h.1, ih h.2 (by omega)⟩

theorem Cells.rising_filter {bound lo : Nat} {c : Cells α} (f : Nat × α → Bool) (h : Cells.rising bound lo c = true) :
    Cells.rising bound lo (c.filter f) = true := by
  induction c generalizing lo with
  | nil => rfl
  | cons p c ih =>
    obtain ⟨j, u⟩ := p
    simp only [Cells.rising, Bool.and_eq_true, decide_eq_true_eq] at h
    rw [List.filter_cons]
    split_ifs
    · simp only [Cells.rising, Bool.and_eq_true, decide_eq_true_eq]
      exact ⟨h.1, ih h.2⟩
    · exact Cells.rising_mono (by omega) (ih h.2)

/-- A rising list all of whose indices are `n` or more rises from `n` on. -/
theorem Cells.rising_of_ge {bound lo n : Nat} {c : Cells α} (h : Cells.rising bound lo c = true)
    (hn : ∀ p ∈ c, n ≤ p.1) : Cells.rising bound n c = true := by
  cases c with
  | nil => rfl
  | cons p c =>
    obtain ⟨j, u⟩ := p
    simp only [Cells.rising, Bool.and_eq_true, decide_eq_true_eq] at h ⊢
    exact ⟨⟨hn (j, u) (by simp), h.1.2⟩, h.2⟩

theorem Cells.rising_ofList_append {bound : Nat} (vs : List α) (i : Nat) {c : Cells α}
    (h : Cells.rising bound (i + vs.length) c = true) (hb : i + vs.length ≤ bound) :
    Cells.rising bound i (Cells.ofList i vs ++ c) = true := by
  induction vs generalizing i with
  | nil => simpa [Cells.ofList] using h
  | cons v vs ih =>
    simp only [List.length_cons] at h hb
    simp only [Cells.ofList, List.cons_append, Cells.rising, Bool.and_eq_true, decide_eq_true_eq]
    refine ⟨⟨le_refl _, by omega⟩, ih (i + 1) ?_ (by omega)⟩
    rwa [show i + 1 + vs.length = i + (vs.length + 1) by omega]

@[simp] theorem Cells.wf_nil (bound : Nat) : Cells.wf bound ([] : Cells α) = true := rfl

theorem Cells.wf_set {bound i : Nat} {c : Cells α} (v : α) (h : c.wf bound = true) (hi : i < bound) :
    (c.set i v).wf bound = true := Cells.rising_set v h (Nat.zero_le _) hi

theorem Cells.wf_writePrefix {bound : Nat} {c : Cells α} (vs : List α) (h : c.wf bound = true)
    (hb : vs.length ≤ bound) : (c.writePrefix vs).wf bound = true := by
  refine Cells.rising_ofList_append vs 0 ?_ (by omega)
  refine Cells.rising_of_ge (Cells.rising_filter _ h) fun p hp => ?_
  have := (List.mem_filter.1 hp).2
  simpa using this

theorem Cells.wf_write {bound : Nat} (vs : List α) {c : Cells α} (i : Nat) (h : c.wf bound = true)
    (hb : i + vs.length ≤ bound) : (c.write i vs).wf bound = true := by
  induction vs generalizing c i with
  | nil => exact h
  | cons v vs ih =>
    simp only [List.length_cons] at hb
    exact ih (i + 1) (Cells.wf_set v h (by omega)) (by omega)

/-- In a canonical list the index of every written cell is below the capacity. -/
theorem Cells.lt_of_get {bound lo : Nat} {c : Cells α} (h : Cells.rising bound lo c = true) {i : Nat} {v : α}
    (hg : c.get i = some v) : lo ≤ i ∧ i < bound := by
  induction c generalizing lo with
  | nil => simp at hg
  | cons p c ih =>
    obtain ⟨j, u⟩ := p
    simp only [Cells.rising, Bool.and_eq_true, decide_eq_true_eq] at h
    rw [Cells.get_cons] at hg
    split_ifs at hg with hj
    · omega
    · have := ih h.2 hg; omega

/-- Canonical cells with the same contents are the same list. -/
theorem Cells.ext_of_rising {bound lo lo' : Nat} {c d : Cells α} (hc : Cells.rising bound lo c = true)
    (hd : Cells.rising bound lo' d = true) (h : ∀ i, c.get i = d.get i) : c = d := by
  induction c generalizing d lo lo' with
  | nil =>
    cases d with
    | nil => rfl
    | cons p d => obtain ⟨j, u⟩ := p; simpa [Cells.get_cons] using h j
  | cons p c ih =>
    obtain ⟨j, u⟩ := p
    cases d with
    | nil => simpa [Cells.get_cons] using h j
    | cons q d =>
      obtain ⟨k, w⟩ := q
      simp only [Cells.rising, Bool.and_eq_true, decide_eq_true_eq] at hc hd
      have hjk : j = k := by
        rcases Nat.lt_trichotomy j k with hlt | heq | hgt
        · have := h j
          rw [Cells.get_cons, if_pos rfl, Cells.get_cons, if_neg (by omega)] at this
          have := Cells.lt_of_get hd.2 this.symm; omega
        · exact heq
        · have := h k
          rw [Cells.get_cons, if_neg (by omega), Cells.get_cons, if_pos rfl] at this
          have := Cells.lt_of_get hc.2 this; omega
      subst hjk
      have hu : u = w := by simpa [Cells.get_cons] using h j
      subst hu
      have : c = d := by
        refine ih hc.2 hd.2 fun i => ?_
        have hi := h i
        rw [Cells.get_cons, Cells.get_cons] at hi
        by_cases hji : j = i
        · subst hji
          have h1 : Cells.get c j = none := by
            cases hg : Cells.get c j with
            | none => rfl
            | some v => have := Cells.lt_of_get hc.2 hg; omega
          have h2 : Cells.get d j = none := by
            cases hg : Cells.get d j with
            | none => rfl
            | some v => have := Cells.lt_of_get hd.2 hg; omega
          rw [h1, h2]
        · simpa [hji] using hi
      rw [this]

end Sys2Proof.Machine
end

