-- ==== Sys2Proof/Laws/State.lean ====
section
/-! SUPPORT. The small lemmas of the state updates: one per field per update, true by rfl or by the cases of the buffer. -/

namespace Sys2Proof.Machine

/-! setBuf. -/

@[simp] theorem State.buf_setBuf_same (s : State) (k : BufIdx) (b : BitBuffer) : (s.setBuf k b).buf k = b := by
  cases k <;> rfl

theorem State.buf_setBuf_other (s : State) {k j : BufIdx} (b : BitBuffer) (h : j ≠ k) :
    (s.setBuf k b).buf j = s.buf j := by
  cases k <;> cases j <;> first | rfl | exact absurd rfl h

theorem State.buf_setBuf (s : State) (k j : BufIdx) (b : BitBuffer) :
    (s.setBuf k b).buf j = if j = k then b else s.buf j := by
  split_ifs with h
  · subst h; simp
  · exact State.buf_setBuf_other s b h

@[simp] theorem State.setBuf_samples (s : State) (k : BufIdx) (b : BitBuffer) :
    (s.setBuf k b).samples = s.samples := by cases k <;> rfl
@[simp] theorem State.setBuf_lastErr (s : State) (k : BufIdx) (b : BitBuffer) :
    (s.setBuf k b).lastErr = s.lastErr := by cases k <;> rfl
@[simp] theorem State.setBuf_errSticky (s : State) (k : BufIdx) (b : BitBuffer) :
    (s.setBuf k b).errSticky = s.errSticky := by cases k <;> rfl
@[simp] theorem State.setBuf_snrDb (s : State) (k : BufIdx) (b : BitBuffer) :
    (s.setBuf k b).snrDb = s.snrDb := by cases k <;> rfl
@[simp] theorem State.setBuf_rngSeed (s : State) (k : BufIdx) (b : BitBuffer) :
    (s.setBuf k b).rngSeed = s.rngSeed := by cases k <;> rfl
@[simp] theorem State.setBuf_rng (s : State) (k : BufIdx) (b : BitBuffer) :
    (s.setBuf k b).rng = s.rng := by cases k <;> rfl
@[simp] theorem State.setBuf_nanCount (s : State) (k : BufIdx) (b : BitBuffer) :
    (s.setBuf k b).nanCount = s.nanCount := by cases k <;> rfl
@[simp] theorem State.setBuf_pending (s : State) (k : BufIdx) (b : BitBuffer) :
    (s.setBuf k b).pending = s.pending := by cases k <;> rfl
@[simp] theorem State.setBuf_responses (s : State) (k : BufIdx) (b : BitBuffer) :
    (s.setBuf k b).responses = s.responses := by cases k <;> rfl

/-! storeBits: a setBuf, so its other fields follow from the lemmas above. -/

@[simp] theorem State.buf_storeBits_same (s : State) (k : BufIdx) (out : List Bool) :
    (s.storeBits k out).buf k = { len := out.length, cells := (s.buf k).cells.writePrefix out } := by
  simp [State.storeBits]

theorem State.buf_storeBits_other (s : State) {k j : BufIdx} (out : List Bool) (h : j ≠ k) :
    (s.storeBits k out).buf j = s.buf j := State.buf_setBuf_other s _ h

@[simp] theorem State.storeBits_samples (s : State) (k : BufIdx) (out : List Bool) :
    (s.storeBits k out).samples = s.samples := State.setBuf_samples s k _
@[simp] theorem State.storeBits_lastErr (s : State) (k : BufIdx) (out : List Bool) :
    (s.storeBits k out).lastErr = s.lastErr := State.setBuf_lastErr s k _
@[simp] theorem State.storeBits_errSticky (s : State) (k : BufIdx) (out : List Bool) :
    (s.storeBits k out).errSticky = s.errSticky := State.setBuf_errSticky s k _
@[simp] theorem State.storeBits_snrDb (s : State) (k : BufIdx) (out : List Bool) :
    (s.storeBits k out).snrDb = s.snrDb := State.setBuf_snrDb s k _
@[simp] theorem State.storeBits_rngSeed (s : State) (k : BufIdx) (out : List Bool) :
    (s.storeBits k out).rngSeed = s.rngSeed := State.setBuf_rngSeed s k _
@[simp] theorem State.storeBits_rng (s : State) (k : BufIdx) (out : List Bool) :
    (s.storeBits k out).rng = s.rng := State.setBuf_rng s k _
@[simp] theorem State.storeBits_nanCount (s : State) (k : BufIdx) (out : List Bool) :
    (s.storeBits k out).nanCount = s.nanCount := State.setBuf_nanCount s k _
@[simp] theorem State.storeBits_pending (s : State) (k : BufIdx) (out : List Bool) :
    (s.storeBits k out).pending = s.pending := State.setBuf_pending s k _
@[simp] theorem State.storeBits_responses (s : State) (k : BufIdx) (out : List Bool) :
    (s.storeBits k out).responses = s.responses := State.setBuf_responses s k _

/-! storeSamples. -/

@[simp] theorem State.buf_storeSamples (s : State) (out : List F64) (k : BufIdx) :
    (s.storeSamples out).buf k = s.buf k := by cases k <;> rfl
@[simp] theorem State.storeSamples_samples (s : State) (out : List F64) : (s.storeSamples out).samples =
    { len := out.length, cells := s.samples.cells.writePrefix (out.map .whole) } := rfl
@[simp] theorem State.storeSamples_lastErr (s : State) (out : List F64) :
    (s.storeSamples out).lastErr = s.lastErr := rfl
@[simp] theorem State.storeSamples_errSticky (s : State) (out : List F64) :
    (s.storeSamples out).errSticky = s.errSticky := rfl
@[simp] theorem State.storeSamples_snrDb (s : State) (out : List F64) : (s.storeSamples out).snrDb = s.snrDb := rfl
@[simp] theorem State.storeSamples_rngSeed (s : State) (out : List F64) :
    (s.storeSamples out).rngSeed = s.rngSeed := rfl
@[simp] theorem State.storeSamples_rng (s : State) (out : List F64) : (s.storeSamples out).rng = s.rng := rfl
@[simp] theorem State.storeSamples_nanCount (s : State) (out : List F64) :
    (s.storeSamples out).nanCount = s.nanCount := rfl
@[simp] theorem State.storeSamples_pending (s : State) (out : List F64) :
    (s.storeSamples out).pending = s.pending := rfl
@[simp] theorem State.storeSamples_responses (s : State) (out : List F64) :
    (s.storeSamples out).responses = s.responses := rfl

/-! The updates that leave the buffers alone. -/

/-- The buffers of a state whose other fields are replaced, in the form simp leaves such an update in. -/
@[simp] theorem State.buf_mk (s : State) (sb : SampleBuffer) (e : LastErr) (b : Bool) (snr : F64) (seed : BitVec 64)
    (r n : Nat) (p : List Access) (q : List Response) (k : BufIdx) :
    (State.mk s.b0 s.b1 s.b2 s.b3 sb e b snr seed r n p q).buf k = s.buf k := by cases k <;> rfl

@[simp] theorem State.buf_withLastErr (s : State) (e : LastErr) (k : BufIdx) :
    ({ s with lastErr := e } : State).buf k = s.buf k := by cases k <;> rfl
@[simp] theorem State.buf_withStatus (s : State) (e : LastErr) (b : Bool) (k : BufIdx) :
    ({ s with lastErr := e, errSticky := b } : State).buf k = s.buf k := by cases k <;> rfl
@[simp] theorem State.buf_withRng (s : State) (r n : Nat) (k : BufIdx) :
    ({ s with rng := r, nanCount := n } : State).buf k = s.buf k := by cases k <;> rfl
@[simp] theorem State.buf_withRngOk (s : State) (r n : Nat) (e : LastErr) (k : BufIdx) :
    ({ s with rng := r, nanCount := n, lastErr := e } : State).buf k = s.buf k := by cases k <;> rfl
@[simp] theorem State.buf_withSamples (s : State) (b : SampleBuffer) (k : BufIdx) :
    ({ s with samples := b } : State).buf k = s.buf k := by cases k <;> rfl
@[simp] theorem State.buf_withPending (s : State) (l : List Access) (k : BufIdx) :
    ({ s with pending := l } : State).buf k = s.buf k := by cases k <;> rfl
@[simp] theorem State.buf_respond (s : State) (r : Response) (k : BufIdx) : (respond r s).buf k = s.buf k := by
  cases k <;> rfl
@[simp] theorem State.buf_writeStatus (s : State) (v : Word) (k : BufIdx) : (writeStatus v s).buf k = s.buf k := by
  cases k <;> rfl
@[simp] theorem State.buf_seedLoad (s : State) (k : BufIdx) : (seedLoad s).buf k = s.buf k := by cases k <;> rfl
@[simp] theorem State.buf_softReset (s : State) (k : BufIdx) : (softReset s).buf k = (s.buf k).softReset := by
  cases k <;> rfl

/-- The bits and the samples of a state whose other fields are replaced. -/
@[simp] theorem State.bit_mk (s : State) (sb : SampleBuffer) (e : LastErr) (b : Bool) (snr : F64) (seed : BitVec 64)
    (r n : Nat) (p : List Access) (q : List Response) (k : BufIdx) (i : Nat) :
    (State.mk s.b0 s.b1 s.b2 s.b3 sb e b snr seed r n p q).bit k i = s.bit k i := by simp [State.bit]
@[simp] theorem State.sample_mk (s : State) (b0 b1 b2 b3 : BitBuffer) (e : LastErr) (b : Bool) (snr : F64)
    (seed : BitVec 64) (r n : Nat) (p : List Access) (q : List Response) (i : Nat) :
    (State.mk b0 b1 b2 b3 s.samples e b snr seed r n p q).sample i = s.sample i := rfl

/-! respond. -/

@[simp] theorem respond_responses (r : Response) (s : State) : (respond r s).responses = r :: s.responses := rfl
@[simp] theorem respond_samples (r : Response) (s : State) : (respond r s).samples = s.samples := rfl
@[simp] theorem respond_lastErr (r : Response) (s : State) : (respond r s).lastErr = s.lastErr := rfl
@[simp] theorem respond_errSticky (r : Response) (s : State) : (respond r s).errSticky = s.errSticky := rfl
@[simp] theorem respond_snrDb (r : Response) (s : State) : (respond r s).snrDb = s.snrDb := rfl
@[simp] theorem respond_rngSeed (r : Response) (s : State) : (respond r s).rngSeed = s.rngSeed := rfl
@[simp] theorem respond_rng (r : Response) (s : State) : (respond r s).rng = s.rng := rfl
@[simp] theorem respond_nanCount (r : Response) (s : State) : (respond r s).nanCount = s.nanCount := rfl
@[simp] theorem respond_pending (r : Response) (s : State) : (respond r s).pending = s.pending := rfl

/-! softReset. -/

@[simp] theorem softReset_samples (s : State) : (softReset s).samples = { s.samples with len := 0 } := rfl
@[simp] theorem softReset_lastErr (s : State) : (softReset s).lastErr = .none := rfl
@[simp] theorem softReset_errSticky (s : State) : (softReset s).errSticky = false := rfl
@[simp] theorem softReset_snrDb (s : State) : (softReset s).snrDb = 0#64 := rfl
@[simp] theorem softReset_rngSeed (s : State) : (softReset s).rngSeed = 0#64 := rfl
@[simp] theorem softReset_rng (s : State) : (softReset s).rng = Config.seedToState 0#64 := rfl
@[simp] theorem softReset_nanCount (s : State) : (softReset s).nanCount = s.nanCount := rfl
@[simp] theorem softReset_pending (s : State) : (softReset s).pending = s.pending := rfl
@[simp] theorem softReset_responses (s : State) : (softReset s).responses = s.responses := rfl

/-! seedLoad. -/

@[simp] theorem seedLoad_rng (s : State) : (seedLoad s).rng = Config.seedToState s.rngSeed := rfl
@[simp] theorem seedLoad_samples (s : State) : (seedLoad s).samples = s.samples := rfl
@[simp] theorem seedLoad_lastErr (s : State) : (seedLoad s).lastErr = s.lastErr := rfl
@[simp] theorem seedLoad_errSticky (s : State) : (seedLoad s).errSticky = s.errSticky := rfl
@[simp] theorem seedLoad_snrDb (s : State) : (seedLoad s).snrDb = s.snrDb := rfl
@[simp] theorem seedLoad_rngSeed (s : State) : (seedLoad s).rngSeed = s.rngSeed := rfl
@[simp] theorem seedLoad_nanCount (s : State) : (seedLoad s).nanCount = s.nanCount := rfl
@[simp] theorem seedLoad_pending (s : State) : (seedLoad s).pending = s.pending := rfl
@[simp] theorem seedLoad_responses (s : State) : (seedLoad s).responses = s.responses := rfl

/-! Reading cells after a store. -/

/-- A bit after a command stored a sequence in a buffer (10_state.md R34). -/
theorem State.bit_storeBits (s : State) (k j : BufIdx) (out : List Bool) (i : Nat) :
    (s.storeBits k out).bit j i = if j = k ∧ i < out.length then out[i]? else s.bit j i := by
  by_cases h : j = k
  · subst h
    simp only [State.bit, State.buf_storeBits_same, Cells.get_writePrefix, true_and]
  · simp [State.bit, State.buf_storeBits_other s out h, h]

/-- A sample after a command stored a sequence in S (10_state.md R34, R35). -/
theorem State.sample_storeSamples (s : State) (out : List F64) (i : Nat) :
    (s.storeSamples out).sample i = if i < out.length then out[i]? else s.sample i := by
  simp only [State.sample, State.storeSamples_samples, Cells.get_writePrefix, List.length_map, List.getElem?_map]
  split_ifs with h
  · simp [List.getElem?_eq_getElem h, SampleCell.value?]
  · rfl

theorem sampleValues_eq_some_iff (l : List SampleCell) (vs : List F64) :
    sampleValues l = some vs ↔ vs.length = l.length ∧ ∀ i < l.length, (l[i]?).bind SampleCell.value? = vs[i]? := by
  induction l generalizing vs with
  | nil => cases vs <;> simp [sampleValues]
  | cons c l ih =>
    rw [sampleValues]
    constructor
    · intro h
      split at h
      · rename_i v ws hv hw
        obtain rfl : v :: ws = vs := by simpa using h
        obtain ⟨hl, hg⟩ := (ih ws).1 hw
        refine ⟨by simp [hl], fun i hi => ?_⟩
        cases i with
        | zero => simpa using hv
        | succ i => simpa using hg i (by simpa using hi)
      · simp at h
    · rintro ⟨hl, hg⟩
      cases vs with
      | nil => simp at hl
      | cons v ws =>
        have h0 : c.value? = some v := by simpa using hg 0 (by simp)
        have hw : sampleValues l = some ws :=
          (ih ws).2 ⟨by simpa using hl, fun i hi => by simpa using hg (i + 1) (by simpa using hi)⟩
        simp [h0, hw]

/-- What the snapshot of a source buffer is: the bits below its length, all of them written (41_encode.md R151). -/
theorem State.sourceBits_eq_some_iff (s : State) (k : BufIdx) (m : List Bool) :
    s.sourceBits k = some m ↔ m.length = (s.buf k).len ∧ ∀ i < (s.buf k).len, s.bit k i = m[i]? := by
  simp [State.sourceBits, Cells.read_eq_some_iff, State.bit]

/-- What the snapshot of S is: the samples below its length, all of them written (10_state.md R35). -/
theorem State.sourceSamples_eq_some_iff (s : State) (vs : List F64) :
    s.sourceSamples = some vs ↔
      vs.length = s.samples.len ∧ ∀ i < s.samples.len, s.sample i = vs[i]? := by
  rw [State.sourceSamples]
  constructor
  · intro h
    obtain ⟨l, hl, hv⟩ := Option.bind_eq_some_iff.1 h
    obtain ⟨hl1, hl2⟩ := (Cells.read_eq_some_iff _ _ _ _).1 hl
    obtain ⟨hv1, hv2⟩ := (sampleValues_eq_some_iff _ _).1 hv
    refine ⟨by rw [hv1, hl1], fun i hi => ?_⟩
    rw [State.sample, ← hv2 i (by omega)]
    have := hl2 i hi
    rw [Nat.zero_add] at this
    rw [this]
  · rintro ⟨hl, hg⟩
    cases hr : s.samples.cells.read 0 s.samples.len with
    | none =>
      obtain ⟨i, hi, hn⟩ := (Cells.read_eq_none_iff _ _ _).1 hr
      have := hg i hi
      rw [Nat.zero_add] at hn
      rw [State.sample, hn, List.getElem?_eq_getElem (by omega)] at this
      simp at this
    | some l =>
      obtain ⟨hl1, hl2⟩ := (Cells.read_eq_some_iff _ _ _ _).1 hr
      refine (sampleValues_eq_some_iff _ _).2 ⟨by rw [hl, hl1], fun i hi => ?_⟩
      rw [← hg i (by omega), State.sample]
      have := hl2 i (by omega)
      rw [Nat.zero_add] at this
      rw [this]

/-- The snapshot of a source buffer fails exactly on an unwritten bit below its length (00_scope.md R11). -/
theorem State.sourceBits_eq_none_iff (s : State) (k : BufIdx) :
    s.sourceBits k = none ↔ ∃ i < (s.buf k).len, s.bit k i = none := by
  simp [State.sourceBits, Cells.read_eq_none_iff, State.bit]

/-- The snapshot of S fails exactly on an unwritten sample below its length (00_scope.md R11). -/
theorem State.sourceSamples_eq_none_iff (s : State) :
    s.sourceSamples = none ↔ ∃ i < s.samples.len, s.sample i = none := by
  constructor
  · intro h
    by_contra hc
    have hw : ∀ i, ∃ v, i < s.samples.len → s.sample i = some v := fun i => by
      rcases hv : s.sample i with _ | v
      · exact ⟨0, fun hi => absurd ⟨i, hi, hv⟩ hc⟩
      · exact ⟨v, fun _ => rfl⟩
    choose f hf using hw
    have : s.sourceSamples = some ((List.range s.samples.len).map f) :=
      (State.sourceSamples_eq_some_iff s _).2 ⟨by simp, fun i hi => by simp [hf i hi, hi]⟩
    rw [h] at this
    cases this
  · rintro ⟨i, hi, hn⟩
    rcases h : s.sourceSamples with _ | vs
    · rfl
    · obtain ⟨hl, hg⟩ := (State.sourceSamples_eq_some_iff s vs).1 h
      have := hg i hi
      rw [hn, List.getElem?_eq_getElem (by omega)] at this
      cases this

end Sys2Proof.Machine
end

