-- ==== Sys2Proof/Laws/Commands.lean ====
section
/-! SUPPORT. Everything a command can do, said once: one inversion lemma per command, the lemmas of its completion, and what
the loop of CHANNEL leaves. -/

namespace Sys2Proof.Machine

/-- A next state of ENCODE is one of the two errors or the success (41_encode.md R150). -/
theorem execEncode_next {code : CodeField} {src dst : BufIdx} {s t : State}
    (h : execEncode code src dst s = .next t) :
    ((s.buf src).len % messageLength (resolveCode code) ≠ 0 ∧
      t = { s with lastErr := .shape, errSticky := true }) ∨
    ((s.buf src).len % messageLength (resolveCode code) = 0 ∧
      Config.maxBits < (s.buf src).len / messageLength (resolveCode code) * codewordLength (resolveCode code) ∧
      t = { s with lastErr := .capacity, errSticky := true }) ∨
    ((s.buf src).len % messageLength (resolveCode code) = 0 ∧
      (s.buf src).len / messageLength (resolveCode code) * codewordLength (resolveCode code) ≤ Config.maxBits ∧
      ∃ m, s.sourceBits src = some m ∧
        t = { s.storeBits dst (encodeBits (resolveCode code) m) with lastErr := .none }) := by
  simp only [execEncode] at h
  split at h
  · rename_i hs
    exact .inl ⟨hs, by simpa [raiseError, errorCode] using h.symm⟩
  · rename_i hs
    split at h
    · rename_i hc
      exact .inr (.inl ⟨by simpa using hs, hc, by simpa [raiseError, errorCode] using h.symm⟩)
    · rename_i hc
      split at h
      · simp at h
      · rename_i m hm
        exact .inr (.inr ⟨by simpa using hs, by omega, m, hm, by simpa [succeed] using h.symm⟩)

/-- ENCODE of a readable source of a right shape and size succeeds. -/
theorem execEncode_of_source {code : CodeField} {src dst : BufIdx} {s : State} {m : List Bool}
    (hshape : (s.buf src).len % messageLength (resolveCode code) = 0)
    (hcap : (s.buf src).len / messageLength (resolveCode code) * codewordLength (resolveCode code) ≤ Config.maxBits)
    (hm : s.sourceBits src = some m) :
    execEncode code src dst s =
      .next { s.storeBits dst (encodeBits (resolveCode code) m) with lastErr := .none } := by
  simp only [execEncode, hm, succeed]
  rw [if_neg (by simpa using hshape), if_neg (by omega)]

/-- A next state of DECODE is the shape error or the success (42_decode.md R170). -/
theorem execDecode_next {code : CodeField} {src dst : BufIdx} {s t : State}
    (h : execDecode code src dst s = .next t) :
    ((s.buf src).len % codewordLength (resolveCode code) ≠ 0 ∧
      t = { s with lastErr := .shape, errSticky := true }) ∨
    ((s.buf src).len % codewordLength (resolveCode code) = 0 ∧
      ∃ r, s.sourceBits src = some r ∧
        t = { s.storeBits dst (decodeBits (resolveCode code) r) with lastErr := .none }) := by
  simp only [execDecode] at h
  split at h
  · rename_i hs
    exact .inl ⟨hs, by simpa [raiseError, errorCode] using h.symm⟩
  · rename_i hs
    split at h
    · simp at h
    · rename_i r hr
      exact .inr ⟨by simpa using hs, r, hr, by simpa [succeed] using h.symm⟩

/-- DECODE of a readable source of a right shape succeeds. -/
theorem execDecode_of_source {code : CodeField} {src dst : BufIdx} {s : State} {r : List Bool}
    (hshape : (s.buf src).len % codewordLength (resolveCode code) = 0) (hr : s.sourceBits src = some r) :
    execDecode code src dst s =
      .next { s.storeBits dst (decodeBits (resolveCode code) r) with lastErr := .none } := by
  simp only [execDecode, hr, succeed]
  rw [if_neg (by simpa using hshape)]

/-- A next state of MODULATE is its success (43_channel.md R200). -/
theorem execModulate_next {src : BufIdx} {s t : State} (h : execModulate src s = .next t) :
    ∃ m, s.sourceBits src = some m ∧ t = { s.storeSamples (m.map bpsk) with lastErr := .none } := by
  simp only [execModulate] at h
  split at h
  · simp at h
  · rename_i m hm
    exact ⟨m, hm, by simpa [succeed] using h.symm⟩

/-- A next state of CHANNEL is its success (43_channel.md R206). -/
theorem channelWith_next {p : Params} {chan : ChannelType} {sc : Scheme} {s t : State}
    (h : channelWith p chan sc s = .next t) :
    ∃ xs, s.sourceSamples = some xs ∧
      t = { s.storeSamples (channelLoop p chan (sigmaOf p.pow10 s.snrDb sc) xs s.rng s.nanCount).out with
            rng := (channelLoop p chan (sigmaOf p.pow10 s.snrDb sc) xs s.rng s.nanCount).rng
            nanCount := (channelLoop p chan (sigmaOf p.pow10 s.snrDb sc) xs s.rng s.nanCount).nanCount
            lastErr := .none } := by
  simp only [channelWith] at h
  split at h
  · simp at h
  · rename_i xs hxs
    exact ⟨xs, hxs, by simpa [succeed] using h.symm⟩

/-- A next state of SLICE is its success (44_slicer.md R230). -/
theorem execSlice_next {dst : BufIdx} {s t : State} (h : execSlice dst s = .next t) :
    ∃ ys, s.sourceSamples = some ys ∧ t = { s.storeBits dst (ys.map sliceBit) with lastErr := .none } := by
  simp only [execSlice] at h
  split at h
  · simp at h
  · rename_i ys hys
    exact ⟨ys, hys, by simpa [succeed] using h.symm⟩

/-- No command is refused: every constructor has its meaning. -/
theorem exec_not_refused (i : Instr) (s : State) (q : Refusal) : exec i s ≠ .refused q := by
  cases i with
  | encode code src dst =>
    simp only [exec, execEncode, raiseError, succeed]
    split_ifs <;> [simp; simp; (split <;> simp)]
  | decode code src dst =>
    simp only [exec, execDecode, raiseError, succeed]
    split_ifs <;> [simp; (split <;> simp)]
  | modulate src => simp only [exec, execModulate, succeed]; split <;> simp
  | channel chan code => simp only [exec, execChannel, channelWith, succeed]; split <;> simp
  | slice dst => simp only [exec, execSlice, succeed]; split <;> simp

/-- The only fault of a command is the read of an unwritten cell (60_exceptions.md R249). -/
theorem fault_eq (f : Fault) : f = .unwrittenRead := by cases f; rfl

/-! The loop of CHANNEL. -/

/-- How many draws a sample takes (43_channel.md R209). -/
def drawsPerSample : ChannelType → Nat
  | .awgn => 1
  | .rayleigh => 3

@[simp] theorem rngAfter_zero (ns : NoiseSource) (rng : Nat) : rngAfter ns rng 0 = rng := rfl

theorem rngAfter_succ (ns : NoiseSource) (rng n : Nat) :
    rngAfter ns rng (n + 1) = rngAfter ns (draw ns rng).2 n := rfl

theorem rngAfter_add (ns : NoiseSource) (rng a b : Nat) :
    rngAfter ns rng (a + b) = rngAfter ns (rngAfter ns rng a) b := by
  induction a generalizing rng with
  | zero => simp
  | succ a ih => rw [Nat.succ_add, rngAfter_succ, rngAfter_succ, ih]

theorem channelSample_rng (ns : NoiseSource) (chan : ChannelType) (sigma x : F64) (rng : Nat) :
    (channelSample ns chan sigma x rng).2 = rngAfter ns rng (drawsPerSample chan) := by
  cases chan <;> rfl

@[simp] theorem channelLoop_nil (p : Params) (chan : ChannelType) (sigma : F64) (rng count : Nat) :
    channelLoop p chan sigma [] rng count = { out := [], rng := rng, nanCount := count } := rfl

/-- CHANNEL keeps the number of samples (43_channel.md R206). -/
theorem channelLoop_length (p : Params) (chan : ChannelType) (sigma : F64) (xs : List F64) (rng count : Nat) :
    (channelLoop p chan sigma xs rng count).out.length = xs.length := by
  induction xs generalizing rng count with
  | nil => rfl
  | cons x xs ih => simp [channelLoop, ih]

/-- CHANNEL takes one draw per sample for AWGN and three for Rayleigh (43_channel.md R209). -/
theorem channelLoop_rng (p : Params) (chan : ChannelType) (sigma : F64) (xs : List F64) (rng count : Nat) :
    (channelLoop p chan sigma xs rng count).rng = rngAfter p.noise rng (drawsPerSample chan * xs.length) := by
  induction xs generalizing rng count with
  | nil => simp [channelLoop]
  | cons x xs ih =>
    simp only [channelLoop, ih, channelSample_rng, List.length_cons]
    rw [← rngAfter_add]
    congr 1
    ring

/-- A free NaN pattern is a NaN (93_implementation_defined.md I7). -/
theorem isNaN_nanBits (n : NaN64) : isNaN (nanBits n) = true := by
  have hp := n.fractionPred.isLt
  simp only [isNaN, nanBits, ofMag, mag, infMag, BitVec.toNat_ofNat, decide_eq_true_eq]
  split_ifs <;> omega

/-- The stored sample is the computed one, up to the pattern of a NaN. -/
theorem sameSample_settleNaN (f : Nat → NaN64) (y : F64) (count : Nat) : sameSample (settleNaN f y count).1 y := by
  by_cases h : isNaN y
  · right; exact ⟨by simp [settleNaN, h, isNaN_nanBits], h⟩
  · left; simp [settleNaN, h]

/-- What CHANNEL leaves in sample i: the channel's formula on it, with the draws that follow those of the samples before
(43_channel.md R206, R209). -/
theorem channelLoop_out (p : Params) (chan : ChannelType) (sigma : F64) (xs : List F64) (rng count i : Nat) {x : F64}
    (hx : xs[i]? = some x) :
    ∃ y, (channelLoop p chan sigma xs rng count).out[i]? = some y ∧
      sameSample y (channelSample p.noise chan sigma x (rngAfter p.noise rng (drawsPerSample chan * i))).1 := by
  induction xs generalizing rng count i with
  | nil => simp at hx
  | cons z xs ih =>
    cases i with
    | zero =>
      obtain rfl : z = x := by simpa using hx
      exact ⟨(settleNaN p.freeNaN (channelSample p.noise chan sigma z rng).1 count).1, by simp [channelLoop],
        by simpa using sameSample_settleNaN p.freeNaN (channelSample p.noise chan sigma z rng).1 count⟩
    | succ i =>
      obtain ⟨y, hy, hs⟩ := ih (channelSample p.noise chan sigma z rng).2
        (settleNaN p.freeNaN (channelSample p.noise chan sigma z rng).1 count).2 i (by simpa using hx)
      refine ⟨y, by simpa [channelLoop] using hy, ?_⟩
      rw [channelSample_rng, ← rngAfter_add] at hs
      rwa [show drawsPerSample chan * (i + 1) = drawsPerSample chan + drawsPerSample chan * i by ring]

end Sys2Proof.Machine
end

