-- ==== Sys2Proof/Laws/Bus.lean ====
section
/-! SUPPORT. Everything a host access and a step can do, said once, and that the buffer updates keep the invariant. -/

namespace Sys2Proof.Machine

@[simp] theorem respondTo_next (r : Response) (s : State) : respondTo r (.next s) = .next (respond r s) := rfl

theorem respondTo_eq_next {r : Response} {o : Host.Outcome State Fault Refusal} {t : State}
    (h : respondTo r o = .next t) : ∃ u, o = .next u ∧ t = respond r u := by
  cases o with
  | next u => exact ⟨u, rfl, by simpa using h.symm⟩
  | fault f => simp [respondTo] at h
  | refused q => simp [respondTo] at h

/-- A refused access only answers (60_exceptions.md R248). -/
@[simp] theorem refuseAccess_eq (s : State) : refuseAccess s = .next (respond .busError s) := rfl

/-- Issuing a word that is no command raises IllegalCommand (60_exceptions.md R247). -/
theorem issueCommand_error {w : Word} {e : DecodeError} (h : decode w = .error e) (s : State) :
    issueCommand w s = .next { s with lastErr := .illegalCmd, errSticky := true } := by
  simp [issueCommand, h, raiseError, errorCode]

/-- Issuing a command word runs the command (30_encoding.md R90). -/
theorem issueCommand_ok {w : Word} {i : Instr} (h : decode w = .ok i) (s : State) : issueCommand w s = exec i s := by
  simp [issueCommand, h]

/-- What a read that completes did: it answered, a bus error or a word, and changed nothing (20_memory.md R69). -/
theorem hostRead_next {a : BusAddr} {width : Nat} {s t : State} (h : hostRead a width s = .next t) :
    (t = respond .busError s ∧ (width ≠ 32 ∨ busTarget a = none)) ∨
    (width = 32 ∧ ∃ g w, busTarget a = some g ∧ readTarget s g = some w ∧ t = respond (.data w) s) := by
  simp only [hostRead, refuseAccess_eq] at h
  split at h
  · rename_i hw
    exact .inl ⟨by simpa using h.symm, .inl hw⟩
  · rename_i hw
    split at h
    · rename_i hn
      exact .inl ⟨by simpa using h.symm, .inr hn⟩
    · rename_i g hg
      split at h
      · simp at h
      · rename_i w hr
        exact .inr ⟨by simpa using hw, g, w, hg, hr, by simpa using h.symm⟩

/-- What a write that completes did: it was refused and changed nothing, or it was a full write of a mapped address. -/
theorem hostWrite_next {a : BusAddr} {width : Nat} {strobes : BitVec 4} {v : Word} {s t : State}
    (h : hostWrite a width strobes v s = .next t) :
    (t = respond .busError s ∧ (width ≠ 32 ∨ strobes ≠ 0b1111#4 ∨ busTarget a = none)) ∨
    (width = 32 ∧ strobes = 0b1111#4 ∧ ∃ g, busTarget a = some g ∧ writeTarget v s g = .next t) := by
  simp only [hostWrite, refuseAccess_eq] at h
  split at h
  · rename_i hw
    exact .inl ⟨by simpa using h.symm, by tauto⟩
  · rename_i hw
    rw [not_or, not_not, not_not] at hw
    split at h
    · rename_i hn
      exact .inl ⟨by simpa using h.symm, .inr (.inr hn)⟩
    · rename_i g hg
      exact .inr ⟨hw.1, hw.2, g, hg, h⟩

/-- What a write of a mapped address did, target by target (20_memory.md R62 to R64, R69). -/
theorem writeTarget_next {v : Word} {s t : State} {g : Target} (h : writeTarget v s g = .next t) :
    match g with
    | .cmd => ∃ u, issueCommand v s = .next u ∧ t = respond .okay u
    | .status => t = respond .okay (writeStatus v s)
    | .ctrl => t = respond .okay (writeCtrl v s)
    | .snrLow => t = respond .okay { s with snrDb := joinHalves v (highHalf s.snrDb) }
    | .snrHigh => t = respond .okay { s with snrDb := joinHalves (lowHalf s.snrDb) v }
    | .seedLow => t = respond .okay { s with rngSeed := joinHalves v (highHalf s.rngSeed) }
    | .seedHigh => t = respond .okay { s with rngSeed := joinHalves (lowHalf s.rngSeed) v }
    | .bufLen k =>
      (v.toNat ≤ Config.maxBits ∧ t = respond .okay (writeBufLen k v.toNat s)) ∨
        (Config.maxBits < v.toNat ∧ t = respond .busError s)
    | .sampleLen =>
      (v.toNat ≤ Config.maxSamples ∧ t = respond .okay { s with samples := { s.samples with len := v.toNat } }) ∨
        (Config.maxSamples < v.toNat ∧ t = respond .busError s)
    | .bitWord k w => t = respond .okay (writeBitWord k w v s)
    | .sampleLow i => t = respond .okay (setSampleCell i (storeLow v (s.samples.cells.get i)) s)
    | .sampleHigh i => t = respond .okay (setSampleCell i (storeHigh v (s.samples.cells.get i)) s) := by
  cases g with
  | cmd => exact respondTo_eq_next h
  | bufLen k =>
    simp only [writeTarget, refuseAccess_eq, respondTo_next] at h
    split_ifs at h with hv
    · exact .inl ⟨hv, (Host.Outcome.next.inj h).symm⟩
    · exact .inr ⟨by omega, (Host.Outcome.next.inj h).symm⟩
  | sampleLen =>
    simp only [writeTarget, refuseAccess_eq, respondTo_next] at h
    split_ifs at h with hv
    · exact .inl ⟨hv, (Host.Outcome.next.inj h).symm⟩
    · exact .inr ⟨by omega, (Host.Outcome.next.inj h).symm⟩
  | status => exact (Host.Outcome.next.inj h).symm
  | ctrl => exact (Host.Outcome.next.inj h).symm
  | snrLow => exact (Host.Outcome.next.inj h).symm
  | snrHigh => exact (Host.Outcome.next.inj h).symm
  | seedLow => exact (Host.Outcome.next.inj h).symm
  | seedHigh => exact (Host.Outcome.next.inj h).symm
  | bitWord k w => exact (Host.Outcome.next.inj h).symm
  | sampleLow i => exact (Host.Outcome.next.inj h).symm
  | sampleHigh i => exact (Host.Outcome.next.inj h).symm

/-- A step with an access pending performs it on the state without it (20_memory.md R61). -/
theorem step_cons {s : State} {a : Access} {rest : List Access} (h : s.pending = a :: rest) :
    step s = performAccess a { s with pending := rest } := by
  simp [step, h]

/-- A step with nothing pending changes nothing (log 2). -/
theorem step_nil {s : State} (h : s.pending = []) : step s = .next s := by simp [step, h]

/-- The next states of a step: idle, or the oldest access performed. -/
theorem step_next {s t : State} (h : step s = .next t) :
    (s.pending = [] ∧ t = s) ∨
    ∃ a rest, s.pending = a :: rest ∧ performAccess a { s with pending := rest } = .next t := by
  cases hp : s.pending with
  | nil => exact .inl ⟨rfl, by simpa [step_nil hp] using h.symm⟩
  | cons a rest => exact .inr ⟨a, rest, rfl, by rwa [step_cons hp] at h⟩

/-- The index part of what an address reaches is inside the storage. -/
def targetInside : Target → Prop
  | .bitWord _ w => w < 2048
  | .sampleLow i => i < 65536
  | .sampleHigh i => i < 65536
  | _ => True

theorem registerAt_inside {n : Nat} {g : Target} (h : registerAt n = some g) : targetInside g := by
  unfold registerAt at h
  split at h <;> cases h <;> trivial

/-- What an address reaches is inside the storage (20_memory.md R62 to R64). -/
theorem busTarget_inside {a : BusAddr} {g : Target} (h : busTarget a = some g) : targetInside g := by
  have ha : a.toNat < 1048576 := a.isLt
  rw [busTarget] at h
  split_ifs at h
  generalize a.toNat = n at *
  rw [mapped] at h
  split_ifs at h
  · exact registerAt_inside h
  · obtain rfl := Option.some.inj h
    show _ < 2048
    omega
  · obtain rfl := Option.some.inj h
    show _ < 65536
    omega
  · obtain rfl := Option.some.inj h
    show _ < 65536
    omega

@[simp] theorem length_bitsOfWord (v : Word) : (bitsOfWord v).length = 32 := by simp [bitsOfWord]

theorem getElem?_bitsOfWord (v : Word) {j : Nat} (h : j < 32) : (bitsOfWord v)[j]? = some (v.getLsbD j) := by
  simp [bitsOfWord, h]

/-! Accepted accesses. -/

/-- A full write of a mapped address is the write of what it reaches (20_memory.md R60, R62). -/
theorem step_write {s : State} {a : BusAddr} {v : Word} {rest : List Access} {g : Target}
    (hp : s.pending = .write a 32 0b1111#4 v :: rest) (hg : busTarget a = some g) :
    step s = writeTarget v { s with pending := rest } g := by
  rw [step_cons hp]
  simp [performAccess, hostWrite, hg]

/-- A read of a mapped address answers with its word, or is the fault on an unwritten cell (20_memory.md R60, R62). -/
theorem step_read {s : State} {a : BusAddr} {rest : List Access} {g : Target}
    (hp : s.pending = .read a 32 :: rest) (hg : busTarget a = some g) :
    step s = match readTarget { s with pending := rest } g with
      | none => .fault .unwrittenRead
      | some w => .next { s with pending := rest, responses := .data w :: s.responses } := by
  rw [step_cons hp]
  simp only [performAccess, hostRead, hg]
  rfl

/-- The address of word w of the window of B[k] (20_memory.md R63). -/
theorem busTarget_bitWord (k : BufIdx) {w : Nat} (h : w < 2048) :
    busTarget (BitVec.ofNat 20 (0x10000 + bufNum k * 0x2000 + 4 * w)) = some (.bitWord k w) := by
  have hk : bufNum k < 4 := by cases k <;> decide
  have e : (BitVec.ofNat 20 (0x10000 + bufNum k * 0x2000 + 4 * w)).toNat = 0x10000 + bufNum k * 0x2000 + 4 * w := by
    rw [BitVec.toNat_ofNat]
    omega
  rw [busTarget, e, if_pos (by omega), mapped, if_neg (by omega), if_pos (by omega)]
  have h1 : (0x10000 + bufNum k * 0x2000 + 4 * w - 0x10000) / 0x2000 = bufNum k := by omega
  have h2 : (0x10000 + bufNum k * 0x2000 + 4 * w - 0x10000) % 0x2000 / 4 = w := by omega
  rw [h1, h2]
  cases k <;> rfl

/-- The addresses of the two words of sample i (20_memory.md R64). -/
theorem busTarget_sample {i : Nat} (h : i < 65536) :
    busTarget (BitVec.ofNat 20 (0x80000 + 8 * i)) = some (.sampleLow i) ∧
      busTarget (BitVec.ofNat 20 (0x80000 + 8 * i + 4)) = some (.sampleHigh i) := by
  have e1 : (BitVec.ofNat 20 (0x80000 + 8 * i)).toNat = 0x80000 + 8 * i := by
    rw [BitVec.toNat_ofNat]
    omega
  have e2 : (BitVec.ofNat 20 (0x80000 + 8 * i + 4)).toNat = 0x80000 + 8 * i + 4 := by
    rw [BitVec.toNat_ofNat]
    omega
  constructor
  · rw [busTarget, e1, if_pos (by omega), mapped, if_neg (by omega), if_neg (by omega), if_neg (by omega),
      if_pos (by omega)]
    congr 2
    omega
  · rw [busTarget, e2, if_pos (by omega), mapped, if_neg (by omega), if_neg (by omega), if_neg (by omega),
      if_neg (by omega)]
    congr 2
    omega

/-- The samples after one cell is replaced (20_memory.md R64). -/
theorem sample_setSampleCell (s : State) (i j : Nat) (c : SampleCell) :
    (setSampleCell i c s).sample j = if j = i then c.value? else s.sample j := by
  simp only [State.sample, setSampleCell]
  split_ifs with h
  · subst h
    simp
  · rw [Cells.get_set_other _ _ h]

/-- Replacing a sample cell changes that cell only (20_memory.md R64). -/
theorem onlySampleChanged_setSampleCell (s : State) (i : Nat) (c : SampleCell) :
    onlySampleChanged i s (setSampleCell i c s) :=
  ⟨fun _ hj => Cells.get_set_other _ _ hj, rfl, fun k => by cases k <;> rfl, rfl, rfl, rfl, rfl, rfl, rfl⟩

/-- What a full write of the low word of a sample does (20_memory.md R64). -/
theorem step_sampleLow {s : State} {i : Nat} {v : Word} {rest : List Access} (hi : i < 65536)
    (hp : s.pending = .write (BitVec.ofNat 20 (0x80000 + 8 * i)) 32 0b1111#4 v :: rest) :
    step s = .next (respond .okay
      (setSampleCell i (storeLow v (s.samples.cells.get i)) { s with pending := rest })) := by
  rw [step_write hp (busTarget_sample hi).1]
  rfl

/-- What a full write of the high word of a sample does (20_memory.md R64). -/
theorem step_sampleHigh {s : State} {i : Nat} {v : Word} {rest : List Access} (hi : i < 65536)
    (hp : s.pending = .write (BitVec.ofNat 20 (0x80000 + 8 * i + 4)) 32 0b1111#4 v :: rest) :
    step s = .next (respond .okay
      (setSampleCell i (storeHigh v (s.samples.cells.get i)) { s with pending := rest })) := by
  rw [step_write hp (busTarget_sample hi).2]
  rfl

/-! The word of 32 cells. -/

theorem testBit_foldr_bits (bits : List Bool) (j : Nat) :
    (bits.foldr (fun (b : Bool) (n : Nat) => b.toNat + 2 * n) 0).testBit j = bits.getD j false := by
  induction bits generalizing j with
  | nil => simp
  | cons b bs ih =>
    cases j with
    | zero =>
      simp only [List.foldr_cons, Nat.testBit_zero, List.getD_cons_zero]
      cases b <;> simp
    | succ j =>
      have h : ∀ n, (b.toNat + 2 * n) / 2 = n := by
        intro n
        cases b <;> simp
        omega
      rw [List.foldr_cons, Nat.testBit_succ, h, ih, List.getD_cons_succ]

/-- Bit j of the word of 32 cells is cell j (20_memory.md R63). -/
theorem getLsbD_wordOfBits (bits : List Bool) {j : Nat} (h : j < 32) :
    (wordOfBits bits).getLsbD j = bits.getD j false := by
  rw [wordOfBits, BitVec.getLsbD_ofNat, testBit_foldr_bits]
  simp [h]

/-! The invariant. -/

/-- The invariant, buffer by buffer. -/
theorem State.inv_iff (s : State) : s.Inv ↔ (∀ k, (s.buf k).ok = true) ∧ s.samples.ok = true := by
  constructor
  · rintro ⟨h0, h1, h2, h3, hs⟩
    exact ⟨fun k => by cases k <;> assumption, hs⟩
  · rintro ⟨hk, hs⟩
    exact ⟨hk .b0, hk .b1, hk .b2, hk .b3, hs⟩

theorem BitBuffer.ok_iff (b : BitBuffer) : b.ok = true ↔ b.len ≤ Config.maxBits ∧ b.cells.wf Config.maxBits = true := by
  simp [BitBuffer.ok]

theorem SampleBuffer.ok_iff (b : SampleBuffer) :
    b.ok = true ↔ b.len ≤ Config.maxSamples ∧ b.cells.wf Config.maxSamples = true := by
  simp [SampleBuffer.ok]

/-- Replacing a buffer by a legal one keeps the invariant. -/
theorem State.inv_setBuf {s : State} {k : BufIdx} {b : BitBuffer} (h : s.Inv) (hb : b.ok = true) :
    (s.setBuf k b).Inv := by
  rw [State.inv_iff] at h ⊢
  refine ⟨fun j => ?_, by simpa using h.2⟩
  rw [State.buf_setBuf]
  split_ifs <;> [exact hb; exact h.1 j]

/-- Storing a sequence that fits keeps the invariant. -/
theorem State.inv_storeBits {s : State} {k : BufIdx} {out : List Bool} (h : s.Inv)
    (hl : out.length ≤ Config.maxBits) : (s.storeBits k out).Inv := by
  have hk := (BitBuffer.ok_iff _).1 ((State.inv_iff s).1 h |>.1 k)
  exact State.inv_setBuf h ((BitBuffer.ok_iff _).2 ⟨hl, Cells.wf_writePrefix out hk.2 hl⟩)

theorem State.inv_storeSamples {s : State} {out : List F64} (h : s.Inv) (hl : out.length ≤ Config.maxSamples) :
    (s.storeSamples out).Inv := by
  have hs := (SampleBuffer.ok_iff _).1 ((State.inv_iff s).1 h).2
  rw [State.inv_iff]
  refine ⟨fun k => by simpa using ((State.inv_iff s).1 h).1 k, (SampleBuffer.ok_iff _).2 ⟨hl, ?_⟩⟩
  exact Cells.wf_writePrefix _ hs.2 (by simpa using hl)

/-- The invariant speaks of the buffers only. -/
theorem State.inv_of_buffers {s t : State} (h : s.Inv) (hk : ∀ k, t.buf k = s.buf k)
    (hs : t.samples = s.samples) : t.Inv := by
  rw [State.inv_iff] at h ⊢
  exact ⟨fun k => by rw [hk]; exact h.1 k, by rw [hs]; exact h.2⟩

end Sys2Proof.Machine
end

