-- ==== Sys2Proof/Laws/Decode.lean ====
section
/-! SUPPORT. Laws of the decoder: what a field is, and the operand each field value gives. -/

namespace Sys2Proof

/-- A field of a word is the bits it names, read as a number (00_scope.md R7). -/
theorem wordField_eq_extractLsb' (w : Word) (hi lo : Nat) :
    wordField w hi lo = (w.extractLsb' lo (hi + 1 - lo)).toNat := by
  simp [wordField, BitVec.extractLsb'_toNat, Nat.shiftRight_eq_div_pow]

/-- The operand of a CODE field is the well-formed one with that number (30_encoding.md R93). -/
theorem codeOfField_eq_iff {n : Nat} (hn : n < 8) (c : CodeField) :
    codeOfField n = c ↔ c.wf = true ∧ codeNum c = n := by
  constructor
  · rintro rfl
    interval_cases n <;> simp [codeOfField, CodeField.wf, codeNum]
  · rintro ⟨h, rfl⟩
    cases c with
    | unassigned n =>
      simp only [CodeField.wf, Bool.and_eq_true, decide_eq_true_eq] at h
      obtain ⟨h1, h2⟩ := h
      interval_cases n <;> rfl
    | none => rfl
    | rep3 => rfl
    | rep5 => rfl
    | hamming74 => rfl
    | hamming1511 => rfl

/-- The operand of a CHAN field is the well-formed one with that number (30_encoding.md R94). -/
theorem chanOfField_eq_iff {n : Nat} (hn : n < 4) (c : ChanField) :
    chanOfField n = c ↔ c.wf = true ∧ chanNum c = n := by
  constructor
  · rintro rfl
    interval_cases n <;> simp [chanOfField, ChanField.wf, chanNum]
  · rintro ⟨h, rfl⟩
    cases c with
    | unassigned n =>
      simp only [ChanField.wf, Bool.and_eq_true, decide_eq_true_eq] at h
      obtain ⟨h1, h2⟩ := h
      interval_cases n <;> rfl
    | awgn => rfl
    | rayleigh => rfl

/-- The buffer of a SRC or DST field is the one with that number (30_encoding.md R95). -/
theorem bufOfField_eq_iff {n : Nat} (hn : n < 4) (b : BufIdx) : bufOfField n = b ↔ bufNum b = n := by
  constructor
  · rintro rfl
    interval_cases n <;> rfl
  · rintro rfl
    cases b <;> rfl

/-- The words that spell no command (30_encoding.md R90). -/
theorem decode_isError_iff (w : Word) :
    (∃ e, decode w = .error e) ↔ opAssigned w = false ∨ reservedClear w = false := by
  unfold decode
  constructor
  · rintro ⟨e, h⟩
    by_contra hc
    rw [not_or] at hc
    rw [if_neg hc.1, if_neg hc.2] at h
    dsimp only at h
    split at h <;> exact absurd h (by simp)
  · intro h
    by_cases h1 : opAssigned w = false
    · exact ⟨_, if_pos h1⟩
    · exact ⟨_, by rw [if_neg h1, if_pos (h.resolve_left h1)]⟩

end Sys2Proof
end

