-- ==== Sys2Proof/Laws/PerInstr.lean ====
section
/-! SUPPORT. The facts proved instruction by instruction. -/

/-- The mask and match of an instruction's row of spec/opcode_table.json (30_encoding.md R100). -/
def Sys2Proof.Laws.rowMatch : Sys2Proof.Instr → Sys2Proof.Word
  | .encode _ _ _ => 0x00000001#32
  | .decode _ _ _ => 0x00000002#32
  | .modulate _ => 0x00000003#32
  | .channel _ _ => 0x00000004#32
  | .slice _ => 0x00000005#32

/-- The encoding of an instruction has the fixed bits of its row (30_encoding.md R100). -/
def Sys2Proof.Laws.TableMatch.Statement (i : Sys2Proof.Instr) : Prop :=
  Sys2Proof.encode i &&& 0xFFFCCC8F#32 = Sys2Proof.Laws.rowMatch i

namespace Sys2Proof.Laws

theorem codeNum_lt (c : CodeField) : codeNum c < 8 := by cases c <;> simp [codeNum]; omega

theorem chanNum_lt (c : ChanField) : chanNum c < 4 := by cases c <;> simp [chanNum]; omega

theorem bufNum_lt (b : BufIdx) : bufNum b < 4 := by cases b <;> decide

/-- The bits of a command word the mask of the table keeps are those of OP (30_encoding.md R100). -/
theorem commandWord_masked (op code chan src dst : Nat) (h0 : op < 6) (h1 : code < 8) (h2 : chan < 4) (h3 : src < 4)
    (h4 : dst < 4) : commandWord op code chan src dst &&& 0xFFFCCC8F#32 = BitVec.ofNat 32 op := by
  have key : ∀ (o : Fin 6) (c : Fin 8) (h : Fin 4) (s : Fin 4) (d : Fin 4),
      commandWord o c h s d &&& 0xFFFCCC8F#32 = BitVec.ofNat 32 o := by decide
  exact key ⟨op, h0⟩ ⟨code, h1⟩ ⟨chan, h2⟩ ⟨src, h3⟩ ⟨dst, h4⟩

theorem TableMatch.encode (code : CodeField) (src dst : BufIdx) : TableMatch.Statement (.encode code src dst) :=
  commandWord_masked 1 _ _ _ _ (by decide) (codeNum_lt _) (by decide) (bufNum_lt _) (bufNum_lt _)

theorem TableMatch.decode (code : CodeField) (src dst : BufIdx) : TableMatch.Statement (.decode code src dst) :=
  commandWord_masked 2 _ _ _ _ (by decide) (codeNum_lt _) (by decide) (bufNum_lt _) (bufNum_lt _)

theorem TableMatch.modulate (src : BufIdx) : TableMatch.Statement (.modulate src) :=
  commandWord_masked 3 _ _ _ _ (by decide) (by decide) (by decide) (bufNum_lt _) (by decide)

theorem TableMatch.channel (chan : ChanField) (code : CodeField) : TableMatch.Statement (.channel chan code) :=
  commandWord_masked 4 _ _ _ _ (by decide) (codeNum_lt _) (chanNum_lt _) (by decide) (by decide)

theorem TableMatch.slice (dst : BufIdx) : TableMatch.Statement (.slice dst) :=
  commandWord_masked 5 _ _ _ _ (by decide) (by decide) (by decide) (by decide) (bufNum_lt _)

end Sys2Proof.Laws
end

