-- ==== Sys2Proof/Tests/Slice0.lean ====
section
/-! SUPPORT. Tests. Expected results are the vectors of 95_test_vectors.md or are computed by hand from the rule named. The
theorems named `test_hyp_…` show states and operands that meet the hypotheses of a statement. -/

namespace Sys2Proof.Tests
open Sys2Proof Sys2Proof.Machine

/-! Well-formedness: every check refuses an ill-formed term. -/

theorem test_wf_code_below : (Instr.encode (.unassigned 4) .b0 .b1).wf = false := by decide
theorem test_wf_code_above : (Instr.decode (.unassigned 8) .b0 .b1).wf = false := by decide
theorem test_wf_chan_below : (Instr.channel (.unassigned 1) .none).wf = false := by decide
theorem test_wf_chan_above : (Instr.channel (.unassigned 4) .none).wf = false := by decide
theorem test_wf_channel_code : (Instr.channel .awgn (.unassigned 4)).wf = false := by decide

/-! Decoding, bit by bit from the patterns of R100, and the words of V8. -/

theorem test_decode_encode_bits :
    decode 0b00000000000000010000000000110001#32 = .ok (.encode .hamming74 .b0 .b1) := by decide
theorem test_decode_decode_bits :
    decode 0b00000000000000100001000000110010#32 = .ok (.decode .hamming74 .b1 .b2) := by decide
theorem test_decode_modulate_bits :
    decode 0b00000000000000110001001101110011#32 = .ok (.modulate .b1) := by decide
theorem test_decode_channel_bits :
    decode 0b00000000000000000000000100110100#32 = .ok (.channel .rayleigh .hamming74) := by decide
theorem test_decode_slice_bits :
    decode 0b00000000000000100000000000000101#32 = .ok (.slice .b2) := by decide
theorem test_decode_unassigned : decode 0x00000304#32 = .ok (.channel (.unassigned 3) .none) := by decide
theorem test_decode_reserved_op : decode 0x0000000F#32 = .error .reservedOp := by decide
theorem test_decode_reserved_bit : decode 0x00000401#32 = .error .reservedBit := by decide
theorem test_encode_word : encode (.encode .hamming74 .b0 .b1) = 0x00010031#32 := by decide
theorem test_asm_text : asmText (.encode .hamming74 .b0 .b1) = "ENCODE HAMMING74, B0, B1" := by decide
theorem test_table_word : decodeTableWord 32 0x00020005 = some (.slice .b2) := by decide

/-! Small states. -/

/-- The bits written as digits. -/
def bits (digits : List Nat) : List Bool := digits.map fun d => decide (d = 1)

/-- A buffer that holds a sequence. -/
def buffer (digits : List Nat) : BitBuffer := { len := digits.length, cells := Cells.ofList 0 (bits digits) }

/-- The power-on state with a sequence in B0. -/
def inB0 (digits : List Nat) : State := { State.reset with b0 := buffer digits }

/-- The power-on state with a sequence in B1. -/
def inB1 (digits : List Nat) : State := { State.reset with b1 := buffer digits }

/-- The power-on state with a length in LEN_B0 and no bit written. -/
def lenB0 (n : Nat) : State := { State.reset with b0 := { len := n, cells := [] } }

/-- The power-on state with samples in S. -/
def inS (ys : List F64) : State :=
  { State.reset with samples := { len := ys.length, cells := Cells.ofList 0 (ys.map .whole) } }

/-- The power-on state with accesses pending. -/
def host (l : List Access) : State := { State.reset with pending := l }

/-- The next state has a property. -/
def goesTo (o : Host.Outcome State Fault Refusal) (p : State → Bool) : Bool :=
  match o with
  | .next t => p t
  | .fault _ => false
  | .refused _ => false

/-- The step stops on an unwritten cell. -/
def faults (o : Host.Outcome State Fault Refusal) : Bool :=
  match o with
  | .next _ => false
  | .fault _ => true
  | .refused _ => false

/-- A finite value from its pattern. -/
def finite (x : F64) : FiniteF64 :=
  { sign := isNeg x, exponent := Fin.ofNat 2047 (mag x / 2 ^ 52), fraction := BitVec.ofNat 52 (mag x) }

/-- The noise source of 95_test_vectors.md that gives the values of a list in order, at 0 dB. -/
def listParams (l : List F64) : Params :=
  { pow10 := fun _ => one64
    noise := { seedToState := fun _ => 0, next := fun n => (finite (l.getD n 0#64), n + 1) }
    freeNaN := fun _ => { sign := false, fractionPred := 0 } }

/-! One step of each command (V2 to V6). -/

/-- V2: two blocks. -/
theorem test_encode_hamming74 :
    goesTo (exec (.encode .hamming74 .b0 .b1) (inB0 [1, 0, 1, 1, 0, 0, 0, 1])) (fun t =>
      decide (t.b1 = buffer [0, 1, 1, 0, 0, 1, 1, 1, 1, 0, 1, 0, 0, 1]) && decide (t.lastErr = .none)) = true := by
  decide

/-- V2: the destination is the source. -/
theorem test_encode_snapshot :
    goesTo (exec (.encode .hamming74 .b0 .b0) (inB0 [1, 1, 1, 1])) (fun t =>
      decide (t.b0 = buffer [1, 1, 1, 1, 1, 1, 1])) = true := by decide

/-- V3: a block with index 2 flipped. -/
theorem test_decode_hamming74 :
    goesTo (exec (.decode .hamming74 .b1 .b2) (inB1 [0, 1, 0, 0, 0, 1, 1])) (fun t =>
      decide (t.b2 = buffer [1, 0, 1, 1])) = true := by decide

/-- V3: the majority vote, the destination being the source; the cells beyond keep their content (R34). -/
theorem test_decode_repetition5 :
    goesTo (exec (.decode .rep5 .b1 .b1) (inB1 [1, 1, 1, 0, 0, 0, 0, 0, 1, 1])) (fun t =>
      decide (t.b1.len = 2 ∧ t.bit .b1 0 = some true ∧ t.bit .b1 1 = some false ∧ t.bit .b1 2 = some true)) = true := by
  decide

/-- V4. -/
theorem test_modulate :
    goesTo (exec (.modulate .b1) (inB1 [0, 1, 1])) (fun t =>
      decide (t.samples = (inS [0xBFF0000000000000#64, 0x3FF0000000000000#64, 0x3FF0000000000000#64]).samples)) = true := by
  decide

/-- R206: S = [1.0], 0 dB, no code, the draw −2.0. -/
theorem test_channel_awgn :
    goesTo (channelWith (listParams [0xC000000000000000#64]) .awgn .uncoded
        { inS [0x3FF0000000000000#64] with rng := 0 }) (fun t =>
      decide (t.sample 0 = some 0xBFDA827999FCEF34#64 ∧ t.rng = 1)) = true := by decide

/-- V6: +1.0 at 10 dB with the draws 3.0, 4.0 and −1.0, in that order. -/
theorem test_channel_rayleigh :
    goesTo (channelWith { listParams [0x4008000000000000#64, 0x4010000000000000#64, 0xBFF0000000000000#64] with
          pow10 := fun _ => ten64 } .rayleigh .hamming74 { inS [0x3FF0000000000000#64] with rng := 0 }) (fun t =>
      decide (t.sample 0 = some 0x4009EAF784C37755#64 ∧ t.rng = 3)) = true := by decide

/-- R230 and R231: −0.2247…, the smallest subnormal, a NaN, −0. -/
theorem test_slice :
    goesTo (exec (.slice .b3) (inS [0xBFCCC470A0490970#64, 0x0000000000000001#64, 0x7FF8000000000000#64,
        0x8000000000000000#64])) (fun t => decide (t.b3 = buffer [0, 1, 0, 0])) = true := by decide

/-! Errors (V2, V8) and the fault. -/

theorem test_shape_before_capacity :
    goesTo (issueCommand 0x00010031#32 (lenB0 37453)) (fun t => decide (t.lastErr = .shape)) = true := by decide
theorem test_capacity_before_source :
    goesTo (issueCommand 0x00010031#32 (lenB0 37452)) (fun t => decide (t.lastErr = .capacity ∧ t.errSticky = true)) =
      true := by decide
theorem test_illegal_before_shape :
    goesTo (issueCommand 0x000100B1#32 (lenB0 5)) (fun t => decide (t.lastErr = .illegalCmd)) = true := by decide
theorem test_unwritten_source : faults (issueCommand 0x00010031#32 (lenB0 4)) = true := by decide

/-! Numbers (V5, R202, R203). -/

theorem test_sigma_rep5_at_10_dB :
    sigmaOf (fun _ => 0x4024000000000000#64) 0x4024000000000000#64 .repetition5 = 0x3FE0000000000000#64 := by decide
theorem test_fadd_rounds_to_even : fadd 0x3FF0000000000000#64 0x3CA0000000000000#64 = 0x3FF0000000000000#64 := by decide
theorem test_fmul_subnormal : fmul 0x0000000000000003#64 0x3FE0000000000000#64 = 0x0000000000000002#64 := by decide
theorem test_fdiv_third : fdiv 0x3FF0000000000000#64 0x4008000000000000#64 = 0x3FD5555555555555#64 := by decide
theorem test_fsqrt_half : fsqrt 0x3FE0000000000000#64 = 0x3FE6A09E667F3BCD#64 := by decide

/-! The bus (V9). -/

theorem test_bus_len_limit :
    goesTo (step (host [.write 0x00020#20 32 0b1111#4 65537#32])) (fun t =>
      decide (t.responses = [.busError] ∧ t.b0.len = 0)) = true := by decide
theorem test_bus_last_word :
    goesTo (step (host [.write 0x17FFC#20 32 0b1111#4 0xFFFFFFFF#32])) (fun t =>
      decide (t.bit .b3 65535 = some true ∧ t.bit .b3 65503 = none)) = true := by decide
theorem test_bus_status :
    goesTo (step { host [.read 0x00004#20 32] with lastErr := .capacity, errSticky := true }) (fun t =>
      decide (t.responses = [.data 0x00000103#32])) = true := by decide
theorem test_fetch_word :
    goesTo (step (State.reset.withFetchWord 32 0x00000000)) (fun t => decide (t.lastErr = .illegalCmd)) = true := by decide

/-! Witnesses of the hypotheses of the statements. -/

theorem test_hyp_DecodeOfEncodeIsTheCommand :
    (Instr.encode (.unassigned 5) .b3 .b0).wf = true ∧ (Instr.decode (.unassigned 7) .b0 .b3).wf = true ∧
      (Instr.modulate .b3).wf = true ∧ (Instr.channel (.unassigned 2) .hamming1511).wf = true ∧
      (Instr.channel (.unassigned 3) .none).wf = true ∧ (Instr.slice .b3).wf = true := by decide

theorem test_hyp_WordsSpellTheirTableRow :
    (0x00030350#32 &&& 0xFFFCCC8F#32).toNat < 1 ∧ 5 < (0x00000006#32 &&& 0xFFFCCC8F#32).toNat ∧
      5 < (0x80000003#32 &&& 0xFFFCCC8F#32).toNat := by decide

theorem test_hyp_IgnoredFieldsHaveNoEffect :
    (BitVec.extractLsb' 0 4 0x00010031#32 = 1#4 ∧ 0x00010031#32 &&& 0xFFFFFCFF#32 = 0x00010331#32 &&& 0xFFFFFCFF#32) ∧
      (BitVec.extractLsb' 0 4 0x00021032#32 = 2#4 ∧
        0x00021032#32 &&& 0xFFFFFCFF#32 = 0x00021132#32 &&& 0xFFFFFCFF#32) ∧
      (BitVec.extractLsb' 0 4 0x00001003#32 = 3#4 ∧
        0x00001003#32 &&& 0xFFFCFC8F#32 = 0x00031373#32 &&& 0xFFFCFC8F#32) ∧
      (BitVec.extractLsb' 0 4 0x00000134#32 = 4#4 ∧
        0x00000134#32 &&& 0xFFFCCFFF#32 = 0x00033134#32 &&& 0xFFFCCFFF#32) ∧
      (BitVec.extractLsb' 0 4 0x00030005#32 = 5#4 ∧
        0x00030005#32 &&& 0xFFFFCC8F#32 = 0x00033375#32 &&& 0xFFFFCC8F#32) ∧
      (0x00000081#32).getLsbD 7 = true ∧ (0x00000401#32).getLsbD 10 = true ∧ (0x00000801#32).getLsbD 11 = true ∧
      (0x00004001#32).getLsbD 14 = true ∧ (0x00008001#32).getLsbD 15 = true ∧ (0x00040001#32).getLsbD 18 = true ∧
      (0x80000003#32).getLsbD 31 = true := by decide

theorem test_hyp_SelectorsResolveToTheirDefaults :
    decode 0x00000041#32 = .ok (.encode .hamming1511 .b0 .b0) ∧
      decode 0x00000052#32 = .ok (.decode (.unassigned 5) .b0 .b0) ∧
      decode 0x00000104#32 = .ok (.channel .rayleigh .none) ∧
      decode 0x00000274#32 = .ok (.channel (.unassigned 2) (.unassigned 7)) := by decide

theorem test_hyp_StepRunsTheDecodedCommand :
    (host [issueAccess 0x00010031#32]).pending = .write 0x00000#20 32 0b1111#4 0x00010031#32 :: [] ∧
      decode 0x00010031#32 = .ok (.encode .hamming74 .b0 .b1) ∧
      goesTo (exec (.encode .hamming74 .b0 .b1) { host [issueAccess 0x00010031#32] with pending := [] }) (fun _ => true) =
        true ∧
      faults (exec (.encode .hamming74 .b0 .b1) { lenB0 4 with pending := [] }) = true := by decide

theorem test_hyp_StepTakesOneAccess :
    goesTo (step State.reset) (fun t => decide (t.responses = [])) = true ∧
      goesTo (step (host [.read 0x0000C#20 32])) (fun t => decide (t.responses = [.busError])) = true := by decide

theorem test_hyp_IllegalCommandExactlyWhenReserved :
    goesTo (issueCommand 0x00000006#32 State.reset) (fun t => decide (t.lastErr = .illegalCmd)) = true ∧
      goesTo (issueCommand 0x00040001#32 State.reset) (fun t => decide (t.lastErr = .illegalCmd)) = true ∧
      goesTo (issueCommand 0x00000071#32 State.reset) (fun t => decide (t.lastErr = .none)) = true := by decide

theorem test_hyp_ErrorsFollowTheTable :
    goesTo (issueCommand 0x00010031#32 (lenB0 5)) (fun t => decide (t.lastErr = .shape)) = true ∧
      goesTo (issueCommand 0x00010021#32 (lenB0 13108)) (fun t => decide (t.lastErr = .capacity)) = true ∧
      goesTo (issueCommand 0x00010032#32 (lenB0 6)) (fun t => decide (t.lastErr = .shape)) = true ∧
      goesTo (issueCommand 0x00000003#32 State.reset) (fun t => decide (t.lastErr = .none)) = true ∧
      goesTo (issueCommand 0x00000004#32 State.reset) (fun t => decide (t.lastErr = .none)) = true ∧
      goesTo (issueCommand 0x00000005#32 State.reset) (fun t => decide (t.lastErr = .none)) = true := by decide

theorem test_hyp_CommandEndsInSuccessOrError :
    goesTo (issueCommand 0x00010001#32 { inB0 [1, 0, 1] with lastErr := .shape, errSticky := true }) (fun t =>
        decide (t.lastErr = .none ∧ t.errSticky = true)) = true ∧
      goesTo (issueCommand 0x00000000#32 State.reset) (fun t => decide (t.lastErr ≠ .none)) = true := by decide

theorem test_hyp_FlagsAreWrittenOnlyByCommandsAndTheHost :
    goesTo (step (host [issueAccess 0x00000000#32])) (fun t => decide (t.lastErr ≠ .none)) = true ∧
      goesTo (step { host [.write 0x00004#20 32 0b1111#4 0x00000100#32] with errSticky := true }) (fun t =>
        decide (t.errSticky ≠ true)) = true ∧
      goesTo (step { host [.write 0x00008#20 32 0b1111#4 0x00000001#32] with lastErr := .shape }) (fun t =>
        decide (t.lastErr ≠ .shape)) = true ∧
      goesTo (exec (.modulate .b0) State.reset) (fun _ => true) = true ∧ faults (exec (.modulate .b0) (lenB0 1)) = true := by
  decide

/-- For CodewordsHaveZeroSyndrome, GeneratorRowsAreOrthogonalToParityRows, BlockEncoderIsLinear and
BlockRoundTripAndPositions: a message of each scheme, and a row of each matrix. -/
theorem test_hyp_blocks :
    (bits [1]).length = messageLength .uncoded ∧ (bits [0]).length = messageLength .repetition3 ∧
      (bits [1]).length = messageLength .repetition5 ∧ (bits [1, 0, 1, 1]).length = messageLength .hamming74 ∧
      (bits [1, 0, 1, 1, 0, 0, 1, 0, 1, 1, 1]).length = messageLength .hamming1511 ∧
      Scheme.hamming74 ≠ .uncoded ∧ bitRow [1, 1, 1, 0, 0, 0, 0] ∈ generator .hamming74 ∧
      bitRow [0, 0, 0, 1, 1, 1, 1] ∈ parityCheck .hamming74 := by decide

theorem test_hyp_RepetitionDecodesByMajority :
    (bits [1, 0, 0]).length = 3 ∧ (bits [1, 1, 0, 0, 1]).length = 5 ∧
      (bits [1, 0, 0]).countP (fun x => x != false) ≤ (3 - 1) / 2 ∧
      (bits [1, 1, 0, 0, 1]).countP (fun x => x != true) ≤ (5 - 1) / 2 := by decide

/-- For Hamming74CorrectsEverySingleFlip and Hamming1511DecoderCorrectsNothing. -/
theorem test_hyp_hamming_blocks :
    (bits [0, 1, 1, 0]).length = 4 ∧ (bits [0, 1, 0, 1, 1, 0, 1, 1, 0, 0, 1, 0, 1, 1, 1]).length = 15 := by decide

/-- For EncodeWritesTheCodewords, EncodeThenDecodeRestoresTheMessage and ModulateWritesPlusMinusOne: one block, and none. -/
theorem test_hyp_EncodeWritesTheCodewords :
    (∀ i < ((inB0 [1, 0, 1, 1]).buf .b0).len, (inB0 [1, 0, 1, 1]).bit .b0 i ≠ none) ∧
      ((inB0 [1, 0, 1, 1]).buf .b0).len % messageLength .hamming74 = 0 ∧
      ((inB0 [1, 0, 1, 1]).buf .b0).len / messageLength .hamming74 * codewordLength .hamming74 ≤ 65536 ∧
      (∀ i < (State.reset.buf .b3).len, State.reset.bit .b3 i ≠ none) := by decide

theorem test_hyp_DecodeWritesTheMessages :
    (∀ i < ((inB1 [0, 1, 0, 0, 0, 1, 1]).buf .b1).len, (inB1 [0, 1, 0, 0, 0, 1, 1]).bit .b1 i ≠ none) ∧
      ((inB1 [0, 1, 0, 0, 0, 1, 1]).buf .b1).len % codewordLength .hamming74 = 0 := by decide

theorem test_hyp_BitWritingCommandsFrame :
    goesTo (exec (.encode .none .b0 .b1) (inB0 [1])) (fun _ => true) = true ∧
      goesTo (exec (.decode .rep3 .b0 .b1) (lenB0 4)) (fun t => decide (t.lastErr = .shape)) = true ∧
      goesTo (exec (.slice .b2) (inS [0x3FF0000000000000#64])) (fun _ => true) = true := by decide

/-- For ChannelAwgnAddsScaledDraws, ChannelRayleighFadesAndAddsDraws and SliceDetectsPositiveSamples. -/
theorem test_hyp_samplesWritten :
    (∀ i < (inS [0x3FF0000000000000#64]).samples.len, (inS [0x3FF0000000000000#64]).sample i ≠ none) ∧
      resolveChan (.unassigned 2) = .awgn ∧ resolveChan .awgn = .awgn := by decide

theorem test_hyp_ChannelStoresNumbersExactly :
    [0x3FF0000000000000#64, 0xBFF0000000000000#64][1]? = some 0xBFF0000000000000#64 := by decide

/-- Two states whose one sample differs in the pattern of a NaN. -/
theorem test_hyp_ChannelIsReproducible :
    ∃ t t' u u' : State,
      exec (.channel .awgn .none) (inS [0x7FF8000000000000#64]) = .next t ∧
        exec (.channel .awgn .none) (inS [0xFFF8000000000000#64]) = .next t' ∧
        exec (.slice .b0) t = .next u ∧ exec (.slice .b0) t' = .next u' ∧
        sameSample 0x7FF8000000000000#64 0xFFF8000000000000#64 :=
  ⟨_, _, _, _, rfl, rfl, rfl, rfl, .inr ⟨by decide, by decide⟩⟩

theorem test_hyp_OnlyChannelAndCtrlChangeTheRng :
    ∃ t, step { host [.write 0x00008#20 32 0b1111#4 0x00000002#32] with
          rng := machineParams.noise.seedToState 0#64 + 1 } = .next t ∧
        t.rng ≠ machineParams.noise.seedToState 0#64 + 1 :=
  ⟨_, rfl, (Nat.succ_ne_self _).symm⟩

/-- For OnlyChannelAndCtrlChangeTheRng, the reads. -/
theorem test_hyp_hostRead :
    goesTo (hostRead 0x00004#20 32 State.reset) (fun t => decide (t.responses = [.data 0#32])) = true := by decide

/-- For PowTenHasTheNamedProperties, PowTenDefaultIsCorrectlyRounded, SigmaCornerCases and SigmaFallsAsSnrRises. -/
theorem test_hyp_pow10_arguments :
    isNaN 0x7FF0000000000001#64 = true ∧ isNaN 0xFFFFFFFFFFFFFFFF#64 = true ∧ isNaN 0x7FF0000000000000#64 = false ∧
      isNaN 0x8000000000000000#64 = false ∧ isNaN 0x4024000000000000#64 = false ∧
      orderKey 0x8000000000000000#64 ≤ orderKey 0x4024000000000000#64 ∧
      isFinite 0xC07FFFFFFFFFFFFF#64 = true ∧ isFinite 0x4080000000000000#64 = true ∧
      isFinite 0xFFEFFFFFFFFFFFFF#64 = true := by decide

/-- For FadeIsNonnegative and the four roundings: the largest finite value and the smallest ones. -/
theorem test_hyp_finite_operands :
    isFinite 0x7FEFFFFFFFFFFFFF#64 = true ∧ isFinite 0x8000000000000001#64 = true ∧
      isZero 0x8000000000000001#64 = false ∧ isNeg 0x0000000000000001#64 = false ∧
      isZero 0x0000000000000001#64 = false ∧ isFinite 0x0000000000000001#64 = true := by decide

theorem test_hyp_AdditionIsCorrectlyRounded :
    valueOf 0x0000000000000000#64 + valueOf 0x8000000000000000#64 = 0 ∧
      valueOf 0x0000000000000001#64 + valueOf 0x0000000000000000#64 ≠ 0 := by
  constructor <;> norm_num [valueOf, valueOfMag, sigOfMag, expOfMag, mag, isNeg]

theorem test_hyp_BusErrorsExactlyWhenRefused :
    goesTo (step (host [.read 0x00000#20 8])) (fun t => decide (t.responses = [.busError])) = true ∧
      goesTo (step (host [.read 0x00002#20 32])) (fun t => decide (t.responses = [.busError])) = true ∧
      goesTo (step (host [.read 0x00034#20 32])) (fun t => decide (t.responses = [.busError])) = true ∧
      goesTo (step (host [.read 0x7FFFC#20 32])) (fun t => decide (t.responses = [.busError])) = true ∧
      goesTo (step (host [.write 0x00010#20 32 0b0111#4 1#32])) (fun t => decide (t.responses = [.busError])) = true ∧
      goesTo (step (host [.write 0x00030#20 32 0b1111#4 65536#32])) (fun t => decide (t.responses = [.okay])) = true := by
  decide

theorem test_hyp_ReadsHaveNoSideEffects :
    goesTo (hostWrite 0x80004#20 32 0b1111#4 5#32 State.reset) (fun t =>
      goesTo (hostWrite 0x80004#20 32 0b1111#4 5#32 t) (fun u => decide (u.responses = [.okay, .okay]))) = true := by
  decide

/-- For StatusReadsAndClears, CtrlResetsAndLoadsTheSeed, SnrAndSeedAreReadAndWrittenByHalves and
CmdIssuesEveryWordAndReadsZero: `host` puts any access first, and the CTRL values 2 and 3. -/
theorem test_hyp_pending_control :
    (host [.read 0x00004#20 32]).pending = .read 0x00004#20 32 :: [] ∧
      (0x00000003#32).getLsbD 0 = true ∧ (0x00000002#32).getLsbD 0 = false ∧ (0x00000002#32).getLsbD 1 = true ∧
      State.reset.snrDb = 0#32 ++ 0#32 ∧ State.reset.rngSeed = 0#32 ++ 0#32 := by decide

/-- At both ends of the range, for a length register and S_LEN: 65536 is taken and 65537 refused. -/
theorem test_hyp_LengthRegisters :
    goesTo (step (host [.write (BitVec.ofNat 20 (0x20 + 4 * bufNum .b3)) 32 0b1111#4 65536#32])) (fun t =>
        decide (t.b3.len = 65536)) = true ∧
      goesTo (step (host [.write 0x00030#20 32 0b1111#4 65537#32])) (fun t => decide (t.samples.len = 0)) = true ∧
      goesTo (step { host [.read 0x00030#20 32] with samples := { len := 65536, cells := [] } }) (fun t =>
        decide (t.responses = [.data 65536#32])) = true := by decide

/-- For LengthRegisters. -/
theorem test_hyp_Inv : (host [.read 0x00004#20 32]).Inv := ⟨rfl, rfl, rfl, rfl, rfl⟩

/-- The last word of the last window: its cells written, and one unwritten. -/
theorem test_hyp_BitWindowHoldsThirtyTwoCellsPerWord :
    faults (step (host [.read (BitVec.ofNat 20 (0x10000 + bufNum .b3 * 0x2000 + 4 * 2047)) 32])) = true ∧
      goesTo (step { host [.read (BitVec.ofNat 20 (0x10000 + bufNum .b0 * 0x2000 + 4 * 0)) 32] with
        b0 := { len := 0, cells := Cells.ofList 0 (bitsOfWord 0x8000000D#32) } }) (fun t =>
          decide (t.responses = [.data 0x8000000D#32])) = true := by decide

/-- The last sample: written, untouched and half-written, with a write of its other half. -/
theorem test_hyp_SampleWindowHoldsTwoWordsPerSample :
    ({ State.reset with samples := { len := 0, cells := [(65535, .whole 0x3FF0000000000001#64)] } } : State).sample 65535 =
        some (0x3FF00000#32 ++ 0x00000001#32) ∧
      State.reset.samples.cells.get 65535 = none ∧
      ({ State.reset with samples := { len := 0, cells := [(65535, .lowOnly 1#32)] } } : State).sample 65535 = none ∧
      Cells.get [(65535, SampleCell.lowOnly 1#32)] 65535 = some (.lowOnly 1#32) ∧
      Cells.get [(65535, SampleCell.highOnly 1#32)] 65535 = some (.highOnly 1#32) ∧
      goesTo (step { host [.write (BitVec.ofNat 20 (0x80000 + 8 * 65535 + 4)) 32 0b1111#4 2#32] with
        samples := { len := 3, cells := [(65535, .lowOnly 1#32)] } }) (fun t =>
          decide (t.sample 65535 = some 0x0000000200000001#64)) = true ∧
      faults (step (host [.read 0xFFFFC#20 32])) = true := by decide

theorem test_hyp_HostAddressesAreBasePlusOffset :
    offsetIn 0x40000000 0x400FFFFF = some 0xFFFFF#20 ∧ offsetIn 0x40000000 0x40100000 = none ∧
      offsetIn 0x40000000 0x3FFFFFFF = none := by decide

theorem test_hyp_EveryCommandSucceedsAfterReset :
    goesTo (exec (.encode .hamming74 .b0 .b1) (softReset (inB0 [1, 0, 1]))) (fun t => decide (t.lastErr = .none)) = true := by
  decide

theorem test_hyp_StepKeepsTheInvariant :
    (inB0 [1, 0, 1, 1]).Inv ∧
      goesTo (step { inB0 [1, 0, 1, 1] with pending := [issueAccess 0x00010031#32] }) (fun t =>
        decide (t.b1.len = 7)) = true := ⟨⟨rfl, rfl, rfl, rfl, rfl⟩, by decide⟩

theorem test_hyp_ReachableStatesStayWithinCapacity :
    ∃ s, ReachedBy [.write 0x00020#20 32 0b1111#4 65536#32] s ∧ s.b0.len = 65536 :=
  ⟨_, .step .reset rfl, rfl⟩

end Sys2Proof.Tests
end

section
/-! PROOFS. When a command stops with the model fault (00_scope.md R11, 60_exceptions.md R249). -/

namespace Sys2Proof.Machine

/-- ENCODE faults exactly when both its checks pass and its source cannot be read (41_encode.md R150, log 13). -/
theorem execEncode_eq_fault_iff (code : CodeField) (src dst : BufIdx) (s : State) :
    execEncode code src dst s = .fault .unwrittenRead ↔
      (s.buf src).len % messageLength (resolveCode code) = 0 ∧
        (s.buf src).len / messageLength (resolveCode code) * codewordLength (resolveCode code) ≤ Config.maxBits ∧
        s.sourceBits src = none := by
  by_cases hshape : (s.buf src).len % messageLength (resolveCode code) = 0
  · by_cases hcap : Config.maxBits < (s.buf src).len / messageLength (resolveCode code) * codewordLength (resolveCode code)
    · simp [execEncode, raiseError, hshape, hcap]
    · cases hm : s.sourceBits src with
      | none => simp [execEncode, hshape, hm, not_lt.1 hcap]
      | some m => simp [execEncode_of_source hshape (not_lt.1 hcap) hm]
  · simp [execEncode, raiseError, hshape]

/-- DECODE faults exactly when its check passes and its source cannot be read (42_decode.md R170, log 13). -/
theorem execDecode_eq_fault_iff (code : CodeField) (src dst : BufIdx) (s : State) :
    execDecode code src dst s = .fault .unwrittenRead ↔
      (s.buf src).len % codewordLength (resolveCode code) = 0 ∧ s.sourceBits src = none := by
  by_cases hshape : (s.buf src).len % codewordLength (resolveCode code) = 0
  · cases hr : s.sourceBits src with
    | none => simp [execDecode, hshape, hr]
    | some r => simp [execDecode_of_source hshape hr]
  · simp [execDecode, raiseError, hshape]

/-- MODULATE faults exactly when its source cannot be read (43_channel.md R200). -/
theorem execModulate_eq_fault_iff (src : BufIdx) (s : State) :
    execModulate src s = .fault .unwrittenRead ↔ s.sourceBits src = none := by
  cases hm : s.sourceBits src with
  | none => simp [execModulate, hm]
  | some m => simp [execModulate, hm, succeed]

/-- CHANNEL faults exactly when the signal cannot be read (43_channel.md R206). -/
theorem channelWith_eq_fault_iff (p : Params) (chan : ChannelType) (sc : Scheme) (s : State) :
    channelWith p chan sc s = .fault .unwrittenRead ↔ s.sourceSamples = none := by
  cases hx : s.sourceSamples with
  | none => simp [channelWith, hx]
  | some xs => simp [channelWith, hx, succeed]

/-- SLICE faults exactly when the signal cannot be read (44_slicer.md R230). -/
theorem execSlice_eq_fault_iff (dst : BufIdx) (s : State) :
    execSlice dst s = .fault .unwrittenRead ↔ s.sourceSamples = none := by
  cases hy : s.sourceSamples with
  | none => simp [execSlice, hy]
  | some ys => simp [execSlice, hy, succeed]

/-- Settles O26: each command's fault is the failing read of its source, and that read fails on an unwritten cell. -/
theorem commandsFaultExactlyOnUnwrittenCells : Obligations.CommandsFaultExactlyOnUnwrittenCells := by
  intro i s
  refine ⟨?_, exec_not_refused i s⟩
  cases i with
  | encode code src dst =>
    simp only [← State.sourceBits_eq_none_iff]
    exact execEncode_eq_fault_iff code src dst s
  | decode code src dst =>
    simp only [← State.sourceBits_eq_none_iff]
    exact execDecode_eq_fault_iff code src dst s
  | modulate src => exact (execModulate_eq_fault_iff src s).trans (State.sourceBits_eq_none_iff s src)
  | channel chan code => exact (channelWith_eq_fault_iff machineParams _ _ s).trans (State.sourceSamples_eq_none_iff s)
  | slice dst => exact (execSlice_eq_fault_iff dst s).trans (State.sourceSamples_eq_none_iff s)

end Sys2Proof.Machine
end

section
/-! PROOFS. The binary64 operations on finite operands are the exact results rounded (00_scope.md R9). -/

namespace Sys2Proof.Machine

/-! Finite patterns. -/

theorem isNaN_of_isFinite {x : F64} (h : isFinite x = true) : isNaN x = false := by
  simp only [isFinite, isNaN, decide_eq_true_eq, decide_eq_false_iff_not] at *
  omega

theorem isInf_of_isFinite {x : F64} (h : isFinite x = true) : isInf x = false := by
  simp only [isFinite, isInf, decide_eq_true_eq, decide_eq_false_iff_not] at *
  omega

/-- The significand is 0 for the zeros only. -/
theorem sig_eq_zero_iff (x : F64) : sig x = 0 ↔ isZero x = true := by
  cases h : isZero x with
  | true =>
    have hm : mag x = 0 := by simpa [isZero] using h
    simp [sig, sigOfMag, hm]
  | false => simpa using (sig_pos_lt h).1.ne'

/-- A pattern is the value 0 when its magnitude is 0. -/
theorem valueOf_eq_zero_iff (x : F64) : valueOf x = 0 ↔ mag x = 0 := by
  have hp : (2 : ℚ) ^ expo x ≠ 0 := zpow_ne_zero _ (by norm_num)
  have hs : (if isNeg x then -1 else 1 : ℚ) ≠ 0 := by split_ifs <;> norm_num
  rw [valueOf_eq, mul_eq_zero_iff_left hs, mul_eq_zero_iff_right hp, Nat.cast_eq_zero, sig_eq_zero_iff]
  simp [isZero]

/-- A pattern with the sign bit set has no positive value. -/
theorem valueOf_nonpos {x : F64} (h : isNeg x = true) : valueOf x ≤ 0 := by
  have := valueOfMag_nonneg (mag x)
  rw [valueOf, if_pos h]
  linarith

/-- The size of a value: the significand at its exponent. -/
theorem abs_valueOf (x : F64) : |valueOf x| = (sig x : ℚ) * (2 : ℚ) ^ expo x := by
  have h : 0 ≤ (sig x : ℚ) * (2 : ℚ) ^ expo x := by positivity
  rw [valueOf_eq]
  split_ifs <;> simp [abs_mul]

/-! `roundTo`. -/

/-- `roundTo` of a nonzero number is its rounding, cut off at the infinity, with the sign. -/
theorem roundTo_roundsTo (neg : Bool) {m : Nat} {e : Int} {sticky : Bool} {v : ℝ} (hm : 0 < m)
    (hexact : sticky = false → v = (m : ℝ) * (2 : ℝ) ^ e)
    (hsticky : sticky = true → (m : ℝ) * (2 : ℝ) ^ e < v ∧ v < ((m : ℝ) + 1) * (2 : ℝ) ^ e ∧ 2 ^ 54 ≤ m) :
    ∃ r, RoundsTo v r ∧ roundTo neg m e sticky = ofMag neg (min r infMag) := by
  obtain ⟨r, hr, hmag⟩ := roundMag_roundsTo hm hexact hsticky
  exact ⟨r, hr, by rw [roundTo, if_neg hm.ne', hmag]⟩

/-- `roundTo` of zero is the zero of that sign, the rounding of the number 0. -/
theorem roundTo_zero_roundsTo (neg : Bool) (e : Int) (sticky : Bool) :
    ∃ r, RoundsTo (0 : ℝ) r ∧ roundTo neg 0 e sticky = ofMag neg (min r infMag) :=
  ⟨0, by simpa [valueOfMag_zero] using roundsTo_self 0, by simp [roundTo]⟩

/-- `roundTo` of an exactly given number, zero included. -/
theorem roundTo_exact_roundsTo (neg : Bool) (m : Nat) (e : Int) :
    ∃ r, RoundsTo ((m : ℝ) * (2 : ℝ) ^ e) r ∧ roundTo neg m e false = ofMag neg (min r infMag) := by
  rcases Nat.eq_zero_or_pos m with rfl | hm
  · simpa using roundTo_zero_roundsTo neg e false
  · exact roundTo_roundsTo neg hm (fun _ => rfl) (by simp)

/-! Addition. -/

/-- The exact sum at the smaller of the two exponents, as `fadd` forms it. -/
def exactSum (x y : F64) : Int := scaled x (min (expo x) (expo y)) + scaled y (min (expo x) (expo y))

/-- `fadd` of finite operands by its exact sum: the two cases of R9 and log 9. -/
theorem fadd_of_isFinite {x y : F64} (hx : isFinite x = true) (hy : isFinite y = true) :
    fadd x y = if exactSum x y = 0 then ofMag (isNeg x && isNeg y) 0
      else roundTo (decide (exactSum x y < 0)) (exactSum x y).natAbs (min (expo x) (expo y)) false := by
  simp only [fadd, isNaN_of_isFinite hx, isNaN_of_isFinite hy, isInf_of_isFinite hx, isInf_of_isFinite hy, Bool.or_self,
    Bool.false_eq_true, if_false]
  rfl

theorem exactSum_value (x y : F64) :
    (exactSum x y : ℚ) * (2 : ℚ) ^ min (expo x) (expo y) = valueOf x + valueOf y := by
  rw [exactSum, Int.cast_add, add_mul, scaled_value x (min_le_left _ _), scaled_value y (min_le_right _ _)]

theorem exactSum_eq_zero_iff (x y : F64) : exactSum x y = 0 ↔ valueOf x + valueOf y = 0 := by
  have hp : (2 : ℚ) ^ min (expo x) (expo y) ≠ 0 := zpow_ne_zero _ (by norm_num)
  rw [← exactSum_value, mul_eq_zero_iff_right hp, Int.cast_eq_zero]

theorem exactSum_neg_iff (x y : F64) : exactSum x y < 0 ↔ valueOf x + valueOf y < 0 := by
  have hp : (0 : ℚ) < (2 : ℚ) ^ min (expo x) (expo y) := zpow_pos (by norm_num) _
  rw [← exactSum_value, mul_neg_iff, Int.cast_lt_zero]
  simp [hp, hp.not_gt]

theorem abs_exactSum_value (x y : F64) :
    ((exactSum x y).natAbs : ℝ) * (2 : ℝ) ^ min (expo x) (expo y) = |((valueOf x + valueOf y : ℚ) : ℝ)| := by
  rw [← exactSum_value]
  push_cast
  rw [abs_mul, abs_of_pos (zpow_pos (by norm_num : (0 : ℝ) < 2) _), Nat.cast_natAbs, Int.cast_abs]

/-- Two negative operands whose values cancel are both −0. -/
theorem isNeg_both_iff_of_sum_zero {x y : F64} (h : valueOf x + valueOf y = 0) :
    (isNeg x && isNeg y) = true ↔ x = 0x8000000000000000#64 ∧ y = 0x8000000000000000#64 := by
  constructor
  · rw [Bool.and_eq_true]
    rintro ⟨hx, hy⟩
    have hvx := valueOf_nonpos hx
    have hvy := valueOf_nonpos hy
    have hmx := (valueOf_eq_zero_iff x).1 (by linarith)
    have hmy := (valueOf_eq_zero_iff y).1 (by linarith)
    rw [← ofMag_isNeg_mag x, ← ofMag_isNeg_mag y, hx, hy, hmx, hmy]
    decide
  · rintro ⟨rfl, rfl⟩
    decide

/-- Settles O41: the exact sum is an integer at the smaller exponent, which `roundTo` rounds. -/
theorem additionIsCorrectlyRounded : Obligations.AdditionIsCorrectlyRounded := by
  intro x y hx hy
  rw [fadd_of_isFinite hx hy]
  constructor
  · intro hne
    rw [if_neg (mt (exactSum_eq_zero_iff x y).1 hne), ← abs_exactSum_value]
    simp only [exactSum_neg_iff]
    exact roundTo_exact_roundsTo _ _ _
  · intro hzero
    rw [if_pos ((exactSum_eq_zero_iff x y).2 hzero)]
    simp only [← isNeg_both_iff_of_sum_zero hzero]
    cases isNeg x && isNeg y <;> decide

/-! Multiplication. -/

theorem fmul_of_isFinite {x y : F64} (hx : isFinite x = true) (hy : isFinite y = true) :
    fmul x y = roundTo (isNeg x != isNeg y) (sig x * sig y) (expo x + expo y) false := by
  simp [fmul, isNaN_of_isFinite, isInf_of_isFinite, hx, hy]

theorem abs_valueOf_mul (x y : F64) :
    |((valueOf x * valueOf y : ℚ) : ℝ)| = ((sig x * sig y : Nat) : ℝ) * (2 : ℝ) ^ (expo x + expo y) := by
  rw [← Rat.cast_abs, abs_mul, abs_valueOf, abs_valueOf, zpow_add₀ (by norm_num)]
  push_cast
  ring

/-- Settles O42: the product of the significands at the sum of the exponents is exact, and `roundTo` rounds it. -/
theorem multiplicationIsCorrectlyRounded : Obligations.MultiplicationIsCorrectlyRounded := by
  intro x y hx hy
  rw [fmul_of_isFinite hx hy, abs_valueOf_mul]
  exact roundTo_exact_roundsTo _ _ _

/-! Division. -/

theorem fdiv_of_isFinite {x y : F64} (hx : isFinite x = true) (hy : isFinite y = true) (h0 : isZero y = false) :
    fdiv x y = roundTo (isNeg x != isNeg y) (sig x * 2 ^ divScale / sig y) (expo x - expo y - (divScale : Int))
      (decide (sig x * 2 ^ divScale % sig y ≠ 0)) := by
  simp only [fdiv, isNaN_of_isFinite hx, isNaN_of_isFinite hy, isInf_of_isFinite hx, isInf_of_isFinite hy, h0,
    Bool.or_self, Bool.false_eq_true, if_false]

/-- The scaled quotient is the exact quotient (00_scope.md R9). -/
theorem abs_valueOf_div (x y : F64) :
    |((valueOf x / valueOf y : ℚ) : ℝ)| =
      ((sig x * 2 ^ divScale : Nat) : ℝ) / (sig y : ℝ) * (2 : ℝ) ^ (expo x - expo y - (divScale : Int)) := by
  rw [← Rat.cast_abs, abs_div, abs_valueOf, abs_valueOf, zpow_sub₀ (by norm_num), zpow_sub₀ (by norm_num), zpow_natCast]
  push_cast
  field_simp

/-- A quotient of natural numbers is the integer quotient when nothing remains, and else lies strictly above it and below the
next integer. -/
theorem natCast_div_cases {a b : Nat} (hb : 0 < b) :
    (a % b = 0 → (a : ℝ) / b = (a / b : Nat)) ∧
      (a % b ≠ 0 → ((a / b : Nat) : ℝ) < (a : ℝ) / b ∧ (a : ℝ) / b < ((a / b : Nat) : ℝ) + 1) := by
  have hb' : (0 : ℝ) < b := Nat.cast_pos.2 hb
  have hdiv : ((a / b : Nat) : ℝ) * b + (a % b : Nat) = a := by exact_mod_cast Nat.div_add_mod' a b
  have hlt : ((a % b : Nat) : ℝ) < b := Nat.cast_lt.2 (Nat.mod_lt a hb)
  constructor
  · intro h
    rw [h, Nat.cast_zero, add_zero] at hdiv
    rw [div_eq_iff hb'.ne', hdiv]
  · intro h
    have hpos : (0 : ℝ) < (a % b : Nat) := Nat.cast_pos.2 (Nat.pos_of_ne_zero h)
    rw [lt_div_iff₀ hb', div_lt_iff₀ hb']
    constructor <;> linarith

/-- The integer quotient `fdiv` forms of a nonzero dividend is wide enough for its sticky bit. -/
theorem two_pow_le_quotient {x y : F64} (hx : isZero x = false) (hy : isZero y = false) :
    2 ^ 54 ≤ sig x * 2 ^ divScale / sig y := by
  have h1 := (sig_pos_lt hx).1
  have h2 := sig_pos_lt hy
  rw [Nat.le_div_iff_mul_le h2.1]
  simp only [divScale]
  omega

/-- Settles O43: the integer quotient of the scaled dividend and its sticky bit locate the exact quotient. -/
theorem divisionIsCorrectlyRounded : Obligations.DivisionIsCorrectlyRounded := by
  intro x y hx hy h0
  rw [fdiv_of_isFinite hx hy h0, abs_valueOf_div]
  cases hx0 : isZero x with
  | true => simpa [(sig_eq_zero_iff x).2 hx0] using roundTo_zero_roundsTo _ _ _
  | false =>
    have hwide := two_pow_le_quotient hx0 h0
    have hpow : (0 : ℝ) < (2 : ℝ) ^ (expo x - expo y - (divScale : Int)) := zpow_pos (by norm_num) _
    obtain ⟨hexact, hbetween⟩ := natCast_div_cases (a := sig x * 2 ^ divScale) (sig_pos_lt h0).1
    refine roundTo_roundsTo _ (lt_of_lt_of_le (by norm_num) hwide) (fun h => ?_) fun h => ?_
    · rw [hexact (by simpa using h)]
    · obtain ⟨hlo, hhi⟩ := hbetween (by simpa using h)
      exact ⟨mul_lt_mul_of_pos_right hlo hpow, mul_lt_mul_of_pos_right hhi hpow, hwide⟩

/-! The square root. -/

/-- How far `fsqrt` scales its operand: the exponent left is even. -/
def sqrtScale (x : F64) : Nat := if expo x % 2 = 0 then 110 else 111

/-- The scaled significand of which `fsqrt` takes the integer square root. -/
def sqrtArg (x : F64) : Nat := sig x * 2 ^ sqrtScale x

/-- The integer square root `fsqrt` forms. -/
def sqrtRoot (x : F64) : Nat := isqrtFrom (sqrtArg x) 83 0

theorem fsqrt_of_isFinite {x : F64} (hx : isFinite x = true) (hn : isNeg x = false) (h0 : isZero x = false) :
    fsqrt x = roundTo false (sqrtRoot x) ((expo x - (sqrtScale x : Int)) / 2)
      (decide (sqrtRoot x * sqrtRoot x ≠ sqrtArg x)) := by
  simp only [fsqrt, isNaN_of_isFinite hx, isInf_of_isFinite hx, hn, h0, Bool.false_eq_true, if_false]
  rfl

/-- The scale is 110 or 111 and leaves an even exponent. -/
theorem sqrtScale_spec (x : F64) :
    110 ≤ sqrtScale x ∧ sqrtScale x ≤ 111 ∧
      expo x = 2 * ((expo x - (sqrtScale x : Int)) / 2) + (sqrtScale x : Int) := by
  unfold sqrtScale
  split_ifs <;> omega

/-- The argument of the integer square root of a nonzero operand lies between 2^110 and 4^83. -/
theorem sqrtArg_bounds {x : F64} (h0 : isZero x = false) : 2 ^ 110 ≤ sqrtArg x ∧ sqrtArg x < 2 ^ 83 * 2 ^ 83 := by
  obtain ⟨hpos, hlt⟩ := sig_pos_lt h0
  obtain ⟨hlo, hhi, _⟩ := sqrtScale_spec x
  constructor
  · calc 2 ^ 110 ≤ 1 * 2 ^ sqrtScale x := by rw [one_mul]; exact Nat.pow_le_pow_right (by norm_num) hlo
      _ ≤ sqrtArg x := Nat.mul_le_mul_right _ hpos
  · calc sqrtArg x ≤ sig x * 2 ^ 111 := Nat.mul_le_mul_left _ (Nat.pow_le_pow_right (by norm_num) hhi)
      _ < 2 ^ 83 * 2 ^ 83 := by omega

/-- The integer square root is the exact root cut off, and wide enough for its sticky bit. -/
theorem sqrtRoot_spec {x : F64} (h0 : isZero x = false) :
    sqrtRoot x * sqrtRoot x ≤ sqrtArg x ∧ sqrtArg x < (sqrtRoot x + 1) * (sqrtRoot x + 1) ∧ 2 ^ 54 ≤ sqrtRoot x := by
  obtain ⟨hlo, hhi⟩ := sqrtArg_bounds h0
  obtain ⟨h1, h2⟩ := isqrtFrom_spec (sqrtArg x) 83 0 (Nat.zero_le _) (by simpa using hhi)
  refine ⟨h1, h2, ?_⟩
  by_contra hlt
  have h3 : sqrtRoot x + 1 ≤ 2 ^ 54 := by omega
  have h4 := Nat.mul_le_mul h3 h3
  have h5 := h2.trans_le h4
  omega

/-- The exact root is the root of the scaled significand at half the exponent left. -/
theorem sqrt_valueOf {x : F64} (hn : isNeg x = false) :
    Real.sqrt ((valueOf x : ℚ) : ℝ) =
      Real.sqrt (sqrtArg x : ℝ) * (2 : ℝ) ^ ((expo x - (sqrtScale x : Int)) / 2) := by
  obtain ⟨_, _, he⟩ := sqrtScale_spec x
  generalize hE : (expo x - (sqrtScale x : Int)) / 2 = E at he
  have hpow : (0 : ℝ) ≤ (2 : ℝ) ^ E := zpow_nonneg (by norm_num) _
  have hval : ((valueOf x : ℚ) : ℝ) = (sqrtArg x : ℝ) * ((2 : ℝ) ^ E * (2 : ℝ) ^ E) := by
    rw [valueOf_eq, hn, he, two_mul, zpow_add₀ (by norm_num), zpow_add₀ (by norm_num), zpow_natCast, sqrtArg]
    push_cast
    simp
    ring
  rw [hval, Real.sqrt_mul (Nat.cast_nonneg _), Real.sqrt_mul_self hpow]

/-- The magnitude whose value is 2^k. -/
theorem valueOfMag_two_pow (k : Nat) : valueOfMag ((k + 1022) * 2 ^ 52 + 2 ^ 52) = 2 ^ k := by
  rw [valueOfMag_grid (k + 1022) _ (by norm_num) (.inl le_rfl),
    show ((k + 1022 : Nat) : Int) - 1074 = (k : Int) - (52 : Nat) by omega, zpow_sub₀ (by norm_num), zpow_natCast,
    zpow_natCast]
  rw [Nat.cast_pow, Nat.cast_ofNat]
  field_simp

/-- A finite value is below 2^1024. -/
theorem valueOf_lt_two_pow {x : F64} (hx : isFinite x = true) : valueOf x < 2 ^ 1024 := by
  have hmag : valueOfMag (mag x) < valueOfMag infMag := valueOfMag_strictMono (of_decide_eq_true hx)
  rw [show infMag = (1024 + 1022) * 2 ^ 52 + 2 ^ 52 by norm_num, valueOfMag_two_pow] at hmag
  exact (le_abs_self _).trans_lt ((abs_valueOf x).trans_lt hmag)

/-- The root of a finite value is at most 2^512, hence far below the overflow. -/
theorem sqrt_valueOf_le {x : F64} (hx : isFinite x = true) :
    Real.sqrt ((valueOf x : ℚ) : ℝ) ≤ (valueOfMag ((512 + 1022) * 2 ^ 52 + 2 ^ 52) : ℝ) := by
  have hlt : valueOf x < (2 ^ 512) ^ 2 := by
    rw [← pow_mul]
    exact valueOf_lt_two_pow hx
  rw [valueOfMag_two_pow, Real.sqrt_le_left (by positivity)]
  exact_mod_cast hlt.le

/-- Settles O44: the integer root of the scaled significand and its sticky bit locate the exact root. -/
theorem squareRootIsCorrectlyRounded : Obligations.SquareRootIsCorrectlyRounded := by
  intro x hx hn h0
  obtain ⟨hsq, hnext, hwide⟩ := sqrtRoot_spec h0
  have hpow : (0 : ℝ) < (2 : ℝ) ^ ((expo x - (sqrtScale x : Int)) / 2) := zpow_pos (by norm_num) _
  obtain ⟨r, hr, heq⟩ : ∃ r, RoundsTo (Real.sqrt ((valueOf x : ℚ) : ℝ)) r ∧ fsqrt x = ofMag false (min r infMag) := by
    rw [fsqrt_of_isFinite hx hn h0, sqrt_valueOf hn]
    refine roundTo_roundsTo _ (lt_of_lt_of_le (by norm_num) hwide) (fun h => ?_) fun h => ?_
    · have hexact : sqrtRoot x * sqrtRoot x = sqrtArg x := by simpa using h
      rw [← hexact, Nat.cast_mul, Real.sqrt_mul_self (Nat.cast_nonneg _)]
    · have hlt : sqrtRoot x * sqrtRoot x < sqrtArg x := lt_of_le_of_ne hsq (by simpa using h)
      refine ⟨mul_lt_mul_of_pos_right ?_ hpow, mul_lt_mul_of_pos_right ?_ hpow, hwide⟩
      · exact Real.lt_sqrt_of_sq_lt (by rw [sq]; exact_mod_cast hlt)
      · rw [Real.sqrt_lt' (by positivity), sq]
        exact_mod_cast hnext
  have hlt : r < infMag :=
    (hr.le_of_le (roundsTo_self _) (sqrt_valueOf_le hx)).trans_lt (by norm_num)
  exact ⟨r, hr, hlt, by rw [heq, min_eq_left hlt.le]⟩

end Sys2Proof.Machine
end

section
/-! PROOFS. What a step can do to the flags and to the RNG state, said once: nothing, unless it is a full write of the one
address of CMD, STATUS or CTRL (10_state.md R37, R38, R43, R45; 20_memory.md R62). -/

namespace Sys2Proof.Machine

/-! The addresses of the control and length registers (20_memory.md R62). -/

theorem registerAt_control {n : Nat} {g : Target} (h : registerAt n = some g) :
    (g = .cmd → n = 0x00000) ∧ (g = .status → n = 0x00004) ∧ (g = .ctrl → n = 0x00008) := by
  unfold registerAt at h
  split at h <;> cases h <;> simp

/-- CMD, STATUS and CTRL are each reached from one address only. -/
theorem busTarget_control {a : BusAddr} {g : Target} (h : busTarget a = some g) :
    (g = .cmd → a = 0x00000#20) ∧ (g = .status → a = 0x00004#20) ∧ (g = .ctrl → a = 0x00008#20) := by
  rw [busTarget] at h
  split_ifs at h
  rw [mapped] at h
  split_ifs at h
  · obtain ⟨hcmd, hstatus, hctrl⟩ := registerAt_control h
    exact ⟨fun hg => BitVec.eq_of_toNat_eq (hcmd hg), fun hg => BitVec.eq_of_toNat_eq (hstatus hg),
      fun hg => BitVec.eq_of_toNat_eq (hctrl hg)⟩
  all_goals
    obtain rfl := Option.some.inj h
    simp

theorem busTarget_bufLen (k : BufIdx) : busTarget (BitVec.ofNat 20 (0x20 + 4 * bufNum k)) = some (.bufLen k) := by
  cases k <;> rfl

/-! CTRL (10_state.md R38). -/

/-- With bit 0 set a CTRL write is the soft reset: a seed load after it gives the RNG state it has already
(70_reset_and_hazards.md R271). -/
theorem writeCtrl_of_reset {v : Word} (h : v.getLsbD 0 = true) (s : State) : writeCtrl v s = softReset s := by
  cases hload : v.getLsbD 1 <;> simp only [writeCtrl, h, hload] <;> rfl

theorem writeCtrl_of_no_reset {v : Word} (h : v.getLsbD 0 = false) (s : State) :
    writeCtrl v s = if v.getLsbD 1 = true then seedLoad s else s := by
  simp only [writeCtrl, h, Bool.false_eq_true, if_false]

@[simp] theorem writeCtrl_pending (v : Word) (s : State) : (writeCtrl v s).pending = s.pending := by
  unfold writeCtrl
  split_ifs <;> rfl

@[simp] theorem writeCtrl_responses (v : Word) (s : State) : (writeCtrl v s).responses = s.responses := by
  unfold writeCtrl
  split_ifs <;> rfl

/-! A step. -/

/-- What an issued word that completes did: it raised IllegalCommand, or it ran a command (30_encoding.md R90). -/
theorem issueCommand_next {w : Word} {s t : State} (h : issueCommand w s = .next t) :
    t = { s with lastErr := .illegalCmd, errSticky := true } ∨ ∃ i, decode w = .ok i ∧ exec i s = .next t := by
  cases hd : decode w with
  | error e =>
    rw [issueCommand_error hd] at h
    exact .inl (Host.Outcome.next.inj h).symm
  | ok i => exact .inr ⟨i, rfl, by rwa [issueCommand_ok hd] at h⟩

/-- A step that completes is idle, only answers, or is a full write of a mapped address. -/
theorem step_next_idle_or_answer_or_write {s t : State} (h : step s = .next t) :
    (s.pending = [] ∧ t = s) ∨
    (∃ rest r, t = respond r { s with pending := rest }) ∨
    (∃ a v rest g, s.pending = .write a 32 0b1111#4 v :: rest ∧ busTarget a = some g ∧
      writeTarget v { s with pending := rest } g = .next t) := by
  rcases step_next h with hidle | ⟨a, rest, hp, ha⟩
  · exact .inl hidle
  · cases a with
    | read addr width =>
      rcases hostRead_next ha with ⟨ht, _⟩ | ⟨_, _, _, _, _, ht⟩
      · exact .inr (.inl ⟨rest, _, ht⟩)
      · exact .inr (.inl ⟨rest, _, ht⟩)
    | write addr width strobes v =>
      rcases hostWrite_next ha with ⟨ht, _⟩ | ⟨rfl, rfl, g, hg, hw⟩
      · exact .inr (.inl ⟨rest, _, ht⟩)
      · exact .inr (.inr ⟨addr, v, rest, g, hp, hg, hw⟩)

/-- Two states have the same flags and the same RNG state. -/
def sameFlagsAndRng (s t : State) : Prop := t.lastErr = s.lastErr ∧ t.errSticky = s.errSticky ∧ t.rng = s.rng

/-- A write of anything but CMD, STATUS and CTRL leaves the flags and the RNG state. -/
theorem writeTarget_sameFlagsAndRng {v : Word} {s t : State} {g : Target} (h : writeTarget v s g = .next t)
    (hcmd : g ≠ .cmd) (hstatus : g ≠ .status) (hctrl : g ≠ .ctrl) : sameFlagsAndRng s t := by
  have ht := writeTarget_next h
  cases g with
  | cmd => exact absurd rfl hcmd
  | status => exact absurd rfl hstatus
  | ctrl => exact absurd rfl hctrl
  | bufLen k => rcases ht with ⟨_, rfl⟩ | ⟨_, rfl⟩ <;> simp [sameFlagsAndRng, writeBufLen]
  | sampleLen => rcases ht with ⟨_, rfl⟩ | ⟨_, rfl⟩ <;> exact ⟨rfl, rfl, rfl⟩
  | bitWord k w =>
    obtain rfl : t = _ := ht
    simp [sameFlagsAndRng, writeBitWord]
  | snrLow => obtain rfl : t = _ := ht; exact ⟨rfl, rfl, rfl⟩
  | snrHigh => obtain rfl : t = _ := ht; exact ⟨rfl, rfl, rfl⟩
  | seedLow => obtain rfl : t = _ := ht; exact ⟨rfl, rfl, rfl⟩
  | seedHigh => obtain rfl : t = _ := ht; exact ⟨rfl, rfl, rfl⟩
  | sampleLow i => obtain rfl : t = _ := ht; exact ⟨rfl, rfl, rfl⟩
  | sampleHigh i => obtain rfl : t = _ := ht; exact ⟨rfl, rfl, rfl⟩

/-- What a step does to the flags and the RNG state: nothing, unless it is a full write of CMD, STATUS or CTRL. -/
theorem step_flags_and_rng {s t : State} (h : step s = .next t) :
    sameFlagsAndRng s t ∨
    (∃ w rest u, s.pending = .write 0x00000#20 32 0b1111#4 w :: rest ∧
      issueCommand w { s with pending := rest } = .next u ∧ t = respond .okay u) ∨
    (∃ v rest, s.pending = .write 0x00004#20 32 0b1111#4 v :: rest ∧
      t = respond .okay (writeStatus v { s with pending := rest })) ∨
    (∃ v rest, s.pending = .write 0x00008#20 32 0b1111#4 v :: rest ∧
      t = respond .okay (writeCtrl v { s with pending := rest })) := by
  rcases step_next_idle_or_answer_or_write h with ⟨_, rfl⟩ | ⟨rest, r, rfl⟩ | ⟨a, v, rest, g, hp, hg, hw⟩
  · exact .inl ⟨rfl, rfl, rfl⟩
  · exact .inl ⟨rfl, rfl, rfl⟩
  · obtain ⟨hcmd, hstatus, hctrl⟩ := busTarget_control hg
    by_cases h1 : g = .cmd
    · obtain rfl := hcmd h1
      subst h1
      obtain ⟨u, hu, ht⟩ := writeTarget_next hw
      exact .inr (.inl ⟨v, rest, u, hp, hu, ht⟩)
    by_cases h2 : g = .status
    · obtain rfl := hstatus h2
      subst h2
      exact .inr (.inr (.inl ⟨v, rest, hp, writeTarget_next hw⟩))
    by_cases h3 : g = .ctrl
    · obtain rfl := hctrl h3
      subst h3
      exact .inr (.inr (.inr ⟨v, rest, hp, writeTarget_next hw⟩))
    · exact .inl (writeTarget_sameFlagsAndRng (s := { s with pending := rest }) hw h1 h2 h3)

end Sys2Proof.Machine
end

section
/-! PROOFS. The invariant of the buffers holds after power-on and every step keeps it (10_state.md R33, R35, R46). -/

namespace Sys2Proof.Machine

/-! The commands. -/

theorem State.len_le_of_inv {s : State} (h : s.Inv) (k : BufIdx) : (s.buf k).len ≤ 65536 :=
  ((BitBuffer.ok_iff _).1 (((State.inv_iff s).1 h).1 k)).1

theorem State.samples_len_le_of_inv {s : State} (h : s.Inv) : s.samples.len ≤ 65536 :=
  ((SampleBuffer.ok_iff _).1 ((State.inv_iff s).1 h).2).1

/-- The bits of a source buffer fit in any buffer. -/
theorem State.sourceBits_length_le {s : State} (h : s.Inv) {k : BufIdx} {m : List Bool} (hm : s.sourceBits k = some m) :
    m.length ≤ 65536 :=
  ((State.sourceBits_eq_some_iff s k m).1 hm).1.trans_le (State.len_le_of_inv h k)

/-- The samples of the signal fit in any buffer. -/
theorem State.sourceSamples_length_le {s : State} (h : s.Inv) {xs : List F64} (hx : s.sourceSamples = some xs) :
    xs.length ≤ 65536 :=
  ((State.sourceSamples_eq_some_iff s xs).1 hx).1.trans_le (State.samples_len_le_of_inv h)

/-- A decoded sequence is no longer than the received one, since k ≤ n (40_code_schemes.md R120). -/
theorem length_decodeBits_le (sc : Scheme) (r : List Bool) : (decodeBits sc r).length ≤ r.length := by
  rw [length_decodeBits]
  exact (Nat.mul_le_mul_left _ (messageLength_le sc)).trans (Nat.div_mul_le_self _ _)

theorem execEncode_inv {code : CodeField} {src dst : BufIdx} {s t : State} (hs : s.Inv)
    (h : execEncode code src dst s = .next t) : t.Inv := by
  rcases execEncode_next h with ⟨_, rfl⟩ | ⟨_, _, rfl⟩ | ⟨_, hcap, m, hm, rfl⟩
  · exact hs
  · exact hs
  · refine State.inv_storeBits (k := dst) hs ?_
    rwa [length_encodeBits, ((State.sourceBits_eq_some_iff s src m).1 hm).1]

theorem execDecode_inv {code : CodeField} {src dst : BufIdx} {s t : State} (hs : s.Inv)
    (h : execDecode code src dst s = .next t) : t.Inv := by
  rcases execDecode_next h with ⟨_, rfl⟩ | ⟨_, r, hr, rfl⟩
  · exact hs
  · exact State.inv_storeBits (k := dst) hs ((length_decodeBits_le _ r).trans (State.sourceBits_length_le hs hr))

/-- Every command keeps the invariant. -/
theorem exec_inv {i : Instr} {s t : State} (hs : s.Inv) (h : exec i s = .next t) : t.Inv := by
  cases i with
  | encode code src dst => exact execEncode_inv hs h
  | decode code src dst => exact execDecode_inv hs h
  | modulate src =>
    obtain ⟨m, hm, rfl⟩ := execModulate_next h
    exact State.inv_storeSamples hs ((List.length_map bpsk).trans_le (State.sourceBits_length_le hs hm))
  | channel chan code =>
    obtain ⟨xs, hxs, rfl⟩ := channelWith_next h
    exact State.inv_storeSamples hs ((channelLoop_length ..).trans_le (State.sourceSamples_length_le hs hxs))
  | slice dst =>
    obtain ⟨ys, hys, rfl⟩ := execSlice_next h
    exact State.inv_storeBits (k := dst) hs ((List.length_map sliceBit).trans_le (State.sourceSamples_length_le hs hys))

theorem issueCommand_inv {w : Word} {s t : State} (hs : s.Inv) (h : issueCommand w s = .next t) : t.Inv := by
  rcases issueCommand_next h with rfl | ⟨i, _, hi⟩
  · exact hs
  · exact exec_inv hs hi

/-! The host's writes. -/

theorem State.inv_softReset {s : State} (h : s.Inv) : (softReset s).Inv := by
  obtain ⟨hk, hs⟩ := (State.inv_iff s).1 h
  refine (State.inv_iff _).2 ⟨fun k => ?_, ?_⟩
  · rw [State.buf_softReset, BitBuffer.ok_iff]
    exact ⟨Nat.zero_le _, ((BitBuffer.ok_iff _).1 (hk k)).2⟩
  · exact (SampleBuffer.ok_iff _).2 ⟨Nat.zero_le _, ((SampleBuffer.ok_iff _).1 hs).2⟩

theorem State.inv_writeCtrl {s : State} (v : Word) (h : s.Inv) : (writeCtrl v s).Inv := by
  cases hreset : v.getLsbD 0 with
  | true =>
    rw [writeCtrl_of_reset hreset]
    exact State.inv_softReset h
  | false =>
    rw [writeCtrl_of_no_reset hreset]
    split_ifs <;> exact h

theorem State.inv_writeBufLen {s : State} {k : BufIdx} {n : Nat} (h : s.Inv) (hn : n ≤ Config.maxBits) :
    (writeBufLen k n s).Inv :=
  State.inv_setBuf h ((BitBuffer.ok_iff _).2 ⟨hn, ((BitBuffer.ok_iff _).1 (((State.inv_iff s).1 h).1 k)).2⟩)

/-- Writing cells inside the capacity keeps a bit buffer legal. -/
theorem BitBuffer.ok_write {b : BitBuffer} (h : b.ok = true) {i : Nat} {vs : List Bool}
    (hfits : i + vs.length ≤ Config.maxBits) : ({ b with cells := b.cells.write i vs } : BitBuffer).ok = true := by
  rw [BitBuffer.ok_iff] at h ⊢
  exact ⟨h.1, Cells.wf_write vs i h.2 hfits⟩

theorem State.inv_writeBitWord {s : State} {k : BufIdx} {w : Nat} (v : Word) (h : s.Inv) (hw : w < 2048) :
    (writeBitWord k w v s).Inv := by
  refine State.inv_setBuf h (BitBuffer.ok_write (((State.inv_iff s).1 h).1 k) ?_)
  simp only [length_bitsOfWord, Config.maxBits]
  omega

/-- Replacing the sample buffer by a legal one keeps the invariant. -/
theorem State.inv_withSamples {s : State} {b : SampleBuffer} (h : s.Inv) (hb : b.ok = true) :
    ({ s with samples := b } : State).Inv := by
  obtain ⟨h0, h1, h2, h3, _⟩ := h
  exact ⟨h0, h1, h2, h3, hb⟩

theorem State.inv_setSampleCell {s : State} {i : Nat} (c : SampleCell) (h : s.Inv) (hi : i < 65536) :
    (setSampleCell i c s).Inv := by
  obtain ⟨hlen, hwf⟩ := (SampleBuffer.ok_iff _).1 ((State.inv_iff s).1 h).2
  exact State.inv_withSamples h ((SampleBuffer.ok_iff _).2 ⟨hlen, Cells.wf_set c hwf hi⟩)

/-- A write of what an address reaches keeps the invariant. -/
theorem writeTarget_inv {v : Word} {s t : State} {g : Target} (hs : s.Inv) (hg : targetInside g)
    (h : writeTarget v s g = .next t) : t.Inv := by
  have ht := writeTarget_next h
  cases g with
  | cmd =>
    obtain ⟨u, hu, rfl⟩ := ht
    exact (issueCommand_inv hs hu : u.Inv)
  | ctrl => obtain rfl : t = _ := ht; exact State.inv_writeCtrl v hs
  | bufLen k =>
    rcases ht with ⟨hv, rfl⟩ | ⟨_, rfl⟩
    · exact State.inv_writeBufLen hs hv
    · exact hs
  | sampleLen =>
    rcases ht with ⟨hv, rfl⟩ | ⟨_, rfl⟩
    · exact State.inv_withSamples (s := s) hs
        ((SampleBuffer.ok_iff _).2 ⟨hv, ((SampleBuffer.ok_iff _).1 ((State.inv_iff s).1 hs).2).2⟩)
    · exact hs
  | bitWord k w => obtain rfl : t = _ := ht; exact State.inv_writeBitWord v hs hg
  | sampleLow i => obtain rfl : t = _ := ht; exact State.inv_setSampleCell _ hs hg
  | sampleHigh i => obtain rfl : t = _ := ht; exact State.inv_setSampleCell _ hs hg
  | status => obtain rfl : t = _ := ht; exact hs
  | snrLow => obtain rfl : t = _ := ht; exact hs
  | snrHigh => obtain rfl : t = _ := ht; exact hs
  | seedLow => obtain rfl : t = _ := ht; exact hs
  | seedHigh => obtain rfl : t = _ := ht; exact hs

/-- Settles O57: only a full write changes a buffer, and what its address reaches lies inside the storage. -/
theorem stepKeepsTheInvariant : Obligations.StepKeepsTheInvariant := by
  intro s t hs h
  rcases step_next_idle_or_answer_or_write h with ⟨_, rfl⟩ | ⟨rest, r, rfl⟩ | ⟨a, v, rest, g, _, hg, hw⟩
  · exact hs
  · exact hs
  · exact writeTarget_inv (s := { s with pending := rest }) hs (busTarget_inside hg) hw

/-- Settles O58: after power-on every buffer is empty. -/
theorem resetMeetsTheInvariant : Obligations.ResetMeetsTheInvariant := ⟨rfl, rfl, rfl, rfl, rfl⟩

/-! Runs. -/

/-- Every state of a run meets the invariant. -/
theorem ReachedBy.inv {accesses : List Access} {s : State} (h : ReachedBy accesses s) : s.Inv := by
  induction h with
  | reset => exact resetMeetsTheInvariant
  | step _ hstep ih => exact stepKeepsTheInvariant _ _ ih hstep

/-- In canonical cells nothing is written at or beyond the capacity. -/
theorem Cells.get_eq_none_of_wf {α : Type} {bound i : Nat} {c : Cells α} (h : c.wf bound = true) (hi : bound ≤ i) :
    c.get i = none :=
  Option.eq_none_iff_forall_ne_some.2 fun _ hv => absurd (Cells.lt_of_get h hv).2 (not_lt.2 hi)

/-- Settles O59: every state of a run meets the invariant, which bounds the lengths and the indices. -/
theorem reachableStatesStayWithinCapacity : Obligations.ReachableStatesStayWithinCapacity := by
  intro accesses s hr
  obtain ⟨hbuf, hsamples⟩ := (State.inv_iff s).1 hr.inv
  refine ⟨State.len_le_of_inv hr.inv, State.samples_len_le_of_inv hr.inv, fun k i hi => ?_, fun i hi => ?_⟩
  · exact Cells.get_eq_none_of_wf ((BitBuffer.ok_iff _).1 (hbuf k)).2 hi
  · rw [State.sample, Cells.get_eq_none_of_wf ((SampleBuffer.ok_iff _).1 hsamples).2 hi]
    rfl

end Sys2Proof.Machine
end

section
/-! PROOFS. Who writes the flags and the RNG state, and that no command reads the flags and no read the RNG state
(10_state.md R43, R45; 43_channel.md R209). -/

namespace Sys2Proof.Machine

/-! The flags are no input of a command. -/

/-- The state with the flags replaced. -/
def State.withFlags (e : LastErr) (b : Bool) (s : State) : State := { s with lastErr := e, errSticky := b }

/-- What a command's outcome becomes when it starts with ERR_STICKY `b`: a success keeps `b`, an error sets it
(60_exceptions.md R243). -/
def restartedWith (b : Bool) : Host.Outcome State Fault Refusal → Host.Outcome State Fault Refusal
  | .next t => .next { t with errSticky := if t.lastErr = .none then b else true }
  | .fault f => .fault f
  | .refused q => .refused q

@[simp] theorem State.buf_withFlags (e : LastErr) (b : Bool) (s : State) (k : BufIdx) :
    (s.withFlags e b).buf k = s.buf k := by cases k <;> rfl
@[simp] theorem State.sourceBits_withFlags (e : LastErr) (b : Bool) (s : State) (k : BufIdx) :
    (s.withFlags e b).sourceBits k = s.sourceBits k := by cases k <;> rfl
@[simp] theorem State.sourceSamples_withFlags (e : LastErr) (b : Bool) (s : State) :
    (s.withFlags e b).sourceSamples = s.sourceSamples := rfl
theorem State.storeBits_withFlags (e : LastErr) (b : Bool) (s : State) (k : BufIdx) (out : List Bool) :
    (s.withFlags e b).storeBits k out = (s.storeBits k out).withFlags e b := by cases k <;> rfl

theorem raiseError_withFlags (x : CommandError) (e : LastErr) (b : Bool) (s : State) :
    raiseError x (s.withFlags e b) = restartedWith b (raiseError x s) := by cases x <;> rfl

theorem succeed_withFlags (e : LastErr) (b : Bool) (s : State) :
    succeed (s.withFlags e b) = restartedWith b (succeed s) := rfl

/-- A command computes from a readable source or stops; the flags enter neither. -/
theorem execEncode_withFlags (code : CodeField) (src dst : BufIdx) (e : LastErr) (b : Bool) (s : State) :
    execEncode code src dst (s.withFlags e b) = restartedWith b (execEncode code src dst s) := by
  simp only [execEncode, State.buf_withFlags, State.sourceBits_withFlags, State.storeBits_withFlags,
    raiseError_withFlags, succeed_withFlags]
  split_ifs
  · rfl
  · rfl
  · cases s.sourceBits src <;> rfl

theorem execDecode_withFlags (code : CodeField) (src dst : BufIdx) (e : LastErr) (b : Bool) (s : State) :
    execDecode code src dst (s.withFlags e b) = restartedWith b (execDecode code src dst s) := by
  simp only [execDecode, State.buf_withFlags, State.sourceBits_withFlags, State.storeBits_withFlags,
    raiseError_withFlags, succeed_withFlags]
  split_ifs
  · rfl
  · cases s.sourceBits src <;> rfl

theorem execModulate_withFlags (src : BufIdx) (e : LastErr) (b : Bool) (s : State) :
    execModulate src (s.withFlags e b) = restartedWith b (execModulate src s) := by
  simp only [execModulate, State.sourceBits_withFlags]
  cases s.sourceBits src <;> rfl

theorem channelWith_withFlags (p : Params) (chan : ChannelType) (sc : Scheme) (e : LastErr) (b : Bool) (s : State) :
    channelWith p chan sc (s.withFlags e b) = restartedWith b (channelWith p chan sc s) := by
  simp only [channelWith, State.sourceSamples_withFlags]
  cases s.sourceSamples <;> rfl

theorem execSlice_withFlags (dst : BufIdx) (e : LastErr) (b : Bool) (s : State) :
    execSlice dst (s.withFlags e b) = restartedWith b (execSlice dst s) := by
  simp only [execSlice, State.sourceSamples_withFlags, State.storeBits_withFlags, succeed_withFlags]
  cases s.sourceSamples <;> rfl

/-- No command reads the flags (10_state.md R45). -/
theorem exec_withFlags (i : Instr) (e : LastErr) (b : Bool) (s : State) :
    exec i (s.withFlags e b) = restartedWith b (exec i s) := by
  cases i with
  | encode code src dst => exact execEncode_withFlags code src dst e b s
  | decode code src dst => exact execDecode_withFlags code src dst e b s
  | modulate src => exact execModulate_withFlags src e b s
  | channel chan code => exact channelWith_withFlags machineParams (resolveChan chan) (resolveCode code) e b s
  | slice dst => exact execSlice_withFlags dst e b s

/-! The writers of the flags. -/

/-- A 1 in bit 8 of a STATUS write clears ERR_STICKY; nothing else of the write has an effect (10_state.md R37). -/
theorem writeStatus_eq (v : Word) (s : State) :
    writeStatus v s = { s with errSticky := if v.getLsbD 8 = true then false else s.errSticky } := by
  unfold writeStatus
  cases v.getLsbD 8 <;> simp

/-- Only a 1 in bit 8 of a STATUS write changes a flag, and it clears ERR_STICKY (10_state.md R37). -/
theorem writeStatus_flags_changed {v : Word} {s : State}
    (h : (writeStatus v s).lastErr ≠ s.lastErr ∨ (writeStatus v s).errSticky ≠ s.errSticky) :
    v.getLsbD 8 = true ∧ (writeStatus v s).errSticky = false := by
  cases hv : v.getLsbD 8 with
  | true => exact ⟨rfl, by rw [writeStatus_eq, if_pos hv]⟩
  | false =>
    rw [writeStatus_eq, if_neg (by rw [hv]; decide)] at h
    simp at h

/-- Only the soft reset of a CTRL write changes a flag (10_state.md R38). -/
theorem writeCtrl_flags_changed {v : Word} {s : State}
    (h : (writeCtrl v s).lastErr ≠ s.lastErr ∨ (writeCtrl v s).errSticky ≠ s.errSticky) : v.getLsbD 0 = true := by
  cases hv : v.getLsbD 0 with
  | true => rfl
  | false =>
    rw [writeCtrl_of_no_reset hv] at h
    split_ifs at h <;> simp at h

/-- Settles O11: a step that changes a flag writes CMD, STATUS or CTRL, and a command only ever sets the flags. -/
theorem flagsAreWrittenOnlyByCommandsAndTheHost : Obligations.FlagsAreWrittenOnlyByCommandsAndTheHost := by
  refine ⟨fun s t h hchanged => ?_, fun i s e b => ?_⟩
  · rcases step_flags_and_rng h with
      ⟨hlast, hsticky, _⟩ | ⟨w, rest, _, hp, _, _⟩ | ⟨v, rest, hp, rfl⟩ | ⟨v, rest, hp, rfl⟩
    · exact absurd hchanged (by simp [hlast, hsticky])
    · exact ⟨w, rest, .inl hp⟩
    · obtain ⟨hbit, hclear⟩ := writeStatus_flags_changed (s := { s with pending := rest }) hchanged
      exact ⟨v, rest, .inr (.inl ⟨hp, hbit, rfl, hclear⟩)⟩
    · exact ⟨v, rest, .inr (.inr ⟨hp, writeCtrl_flags_changed (s := { s with pending := rest }) hchanged⟩)⟩
  · have hexec : exec i { s with lastErr := e, errSticky := b } = restartedWith b (exec i s) := exec_withFlags i e b s
    exact ⟨fun t ht => by rw [hexec, ht]; rfl, fun f hf => by rw [hexec, hf]; rfl⟩

/-! The RNG state. -/

/-- No command but CHANNEL draws (43_channel.md R209). -/
theorem exec_rng {i : Instr} {s t : State} (hi : ∀ chan code, i ≠ .channel chan code) (h : exec i s = .next t) :
    t.rng = s.rng := by
  cases i with
  | encode code src dst =>
    rcases execEncode_next h with ⟨_, rfl⟩ | ⟨_, _, rfl⟩ | ⟨_, _, m, _, rfl⟩
    · rfl
    · rfl
    · exact State.storeBits_rng s dst _
  | decode code src dst =>
    rcases execDecode_next h with ⟨_, rfl⟩ | ⟨_, r, _, rfl⟩
    · rfl
    · exact State.storeBits_rng s dst _
  | modulate src =>
    obtain ⟨m, _, rfl⟩ := execModulate_next h
    rfl
  | channel chan code => exact absurd rfl (hi chan code)
  | slice dst =>
    obtain ⟨ys, _, rfl⟩ := execSlice_next h
    exact State.storeBits_rng s dst _

/-- A command word that changes the RNG state spells a CHANNEL command. -/
theorem issueCommand_rng_changed {w : Word} {s t : State} (h : issueCommand w s = .next t) (hr : t.rng ≠ s.rng) :
    ∃ chan code, decode w = .ok (.channel chan code) := by
  rcases issueCommand_next h with rfl | ⟨i, hd, hi⟩
  · exact absurd rfl hr
  · by_contra hno
    exact hr (exec_rng (fun chan code hch => hno ⟨chan, code, by rw [hd, hch]⟩) hi)

/-- A CTRL write that changes the RNG state has bit 0 or bit 1 set (10_state.md R38). -/
theorem writeCtrl_rng_changed {v : Word} {s : State} (h : (writeCtrl v s).rng ≠ s.rng) :
    v.getLsbD 0 = true ∨ v.getLsbD 1 = true := by
  by_contra hno
  obtain ⟨h0, h1⟩ := not_or.1 hno
  rw [writeCtrl_of_no_reset (Bool.eq_false_iff.2 h0), if_neg h1] at h
  exact h rfl

/-- What a read returns does not depend on the RNG state. -/
theorem readTarget_withRng (s : State) (r : Nat) (g : Target) : readTarget { s with rng := r } g = readTarget s g := by
  cases g with
  | bufLen k => cases k <;> rfl
  | bitWord k w => cases k <;> rfl
  | _ => rfl

/-- Settles O34: a step that changes the RNG state writes CMD or CTRL; a read returns what no RNG state enters. -/
theorem onlyChannelAndCtrlChangeTheRng : Obligations.OnlyChannelAndCtrlChangeTheRng := by
  refine ⟨fun s t h hr => ?_, fun s t a width r h => ?_⟩
  · rcases step_flags_and_rng h with
      ⟨_, _, hsame⟩ | ⟨w, rest, u, hp, hu, rfl⟩ | ⟨v, rest, hp, rfl⟩ | ⟨v, rest, hp, rfl⟩
    · exact absurd hsame hr
    · obtain ⟨chan, code, hd⟩ := issueCommand_rng_changed hu hr
      exact .inl ⟨w, rest, chan, code, hp, hd⟩
    · exact absurd rfl hr
    · exact .inr ⟨v, rest, hp, writeCtrl_rng_changed (s := { s with pending := rest }) hr⟩
  · rcases hostRead_next h with ⟨rfl, hw | hn⟩ | ⟨rfl, g, w, hg, hread, rfl⟩
    · simp only [hostRead, if_pos hw]
      rfl
    · simp [hostRead, hn, respond]
    · simp [hostRead, hg, readTarget_withRng, hread, respond]

end Sys2Proof.Machine
end

section
/-! PROOFS. The control and length registers, as the host reads and writes them (10_state.md R36 to R42). -/

namespace Sys2Proof.Machine

/-- Settles O53: CMD passes every word on and reads 0. -/
theorem cmdIssuesEveryWordAndReadsZero : Obligations.CmdIssuesEveryWordAndReadsZero :=
  fun _ _ => ⟨fun _ hp => step_write (g := .cmd) hp rfl, fun hp => step_read (g := .cmd) hp rfl⟩

/-! STATUS (10_state.md R37). -/

theorem lastErrNum_lt (e : LastErr) : lastErrNum e < 2 ^ 3 := by cases e <;> decide

/-- The bits of the STATUS word: LAST_ERR below bit 8, and ERR_STICKY from there on. -/
theorem getLsbD_statusWord (s : State) {j : Nat} (hj : j < 32) : (statusWord s).getLsbD j =
    if j < 8 then (lastErrNum s.lastErr).testBit j else s.errSticky.toNat.testBit (j - 8) := by
  have hlt : lastErrNum s.lastErr < 2 ^ 8 := (lastErrNum_lt _).trans (by norm_num)
  rw [statusWord, BitVec.getLsbD_ofNat, Nat.add_comm, Nat.testBit_two_pow_mul_add _ hlt]
  simp [hj]

theorem statusWord_errSticky (s : State) : (statusWord s).getLsbD 8 = s.errSticky := by
  rw [getLsbD_statusWord s (by norm_num), if_neg (by norm_num)]
  cases s.errSticky <;> rfl

theorem statusWord_lastErr (s : State) : (statusWord s).extractLsb' 0 3 = BitVec.ofNat 3 (lastErrNum s.lastErr) := by
  apply BitVec.eq_of_toNat_eq
  simp only [statusWord, BitVec.extractLsb'_toNat, BitVec.toNat_ofNat, Nat.shiftRight_zero]
  omega

/-- The reserved bits of STATUS read 0. -/
theorem statusWord_reserved (s : State) {j : Nat} (h3 : 3 ≤ j) (h8 : j ≠ 8) : (statusWord s).getLsbD j = false := by
  by_cases hj : j < 32
  · rw [getLsbD_statusWord s hj]
    split_ifs with hlow
    · exact Nat.testBit_lt_two_pow ((lastErrNum_lt _).trans_le (Nat.pow_le_pow_right (by norm_num) h3))
    · have hpos : 1 ≤ j - 8 := by omega
      exact Nat.testBit_lt_two_pow ((Bool.toNat_lt _).trans_le (Nat.pow_le_pow_right two_pos hpos))
  · exact BitVec.getLsbD_of_ge _ _ (by omega)

/-- Settles O47: the bits of the STATUS word, and the write-one-to-clear. -/
theorem statusReadsAndClears : Obligations.StatusReadsAndClears := by
  refine fun s rest => ⟨fun hp => ⟨statusWord s, step_read (g := .status) hp rfl, ?_, statusWord_errSticky s,
    fun j h3 h8 => statusWord_reserved s h3 h8⟩, fun v hp => ?_⟩
  · rw [statusWord_lastErr]
    cases s.lastErr <;> rfl
  · rw [step_write (g := .status) hp rfl]
    simp only [writeTarget, writeStatus_eq, respondTo_next]
    rfl

/-! CTRL (10_state.md R38). -/

/-- Settles O48: bit 0 is the soft reset whatever bit 1 is, else bit 1 alone loads the seed. -/
theorem ctrlResetsAndLoadsTheSeed : Obligations.CtrlResetsAndLoadsTheSeed := by
  refine fun s rest => ⟨fun v hp => ⟨respond .okay (writeCtrl v { s with pending := rest }), ?_, ?_, ?_, ?_, ?_⟩,
    fun hp => step_read (g := .ctrl) hp rfl⟩
  · exact step_write (g := .ctrl) hp rfl
  · simp
  · simp
  · intro hreset
    rw [writeCtrl_of_reset hreset]
    exact ⟨fun k => by cases k <;> exact ⟨rfl, fun _ => rfl⟩, rfl, rfl, rfl, rfl, rfl, rfl, rfl⟩
  · intro hreset
    rw [writeCtrl_of_no_reset hreset]
    split_ifs <;> exact ⟨fun k => by simp, rfl, rfl, rfl, rfl, rfl, rfl⟩

/-! SNR_DB and RNG_SEED (10_state.md R39, R40). -/

@[simp] theorem lowHalf_append (hi lo : Word) : lowHalf (hi ++ lo) = lo := BitVec.extractLsb'_append_eq_right

@[simp] theorem highHalf_append (hi lo : Word) : highHalf (hi ++ lo) = hi := BitVec.extractLsb'_append_eq_left

/-- Settles O49: each half of the two registers is a word of its own. -/
theorem snrAndSeedAreReadAndWrittenByHalves : Obligations.SnrAndSeedAreReadAndWrittenByHalves := by
  refine fun s rest lo hi v => ⟨fun hsnr => ⟨fun hp => ?_, fun hp => ?_, fun hp => ?_, fun hp => ?_⟩,
    fun hseed => ⟨fun hp => ?_, fun hp => ?_, fun hp => ?_, fun hp => ?_⟩⟩
  · simp [step_write (g := .snrLow) hp rfl, writeTarget, respond, joinHalves, hsnr]
  · simp [step_write (g := .snrHigh) hp rfl, writeTarget, respond, joinHalves, hsnr]
  · simp [step_read (g := .snrLow) hp rfl, readTarget, hsnr]
  · simp [step_read (g := .snrHigh) hp rfl, readTarget, hsnr]
  · simp [step_write (g := .seedLow) hp rfl, writeTarget, respond, joinHalves, hseed]
  · simp [step_write (g := .seedHigh) hp rfl, writeTarget, respond, joinHalves, hseed]
  · simp [step_read (g := .seedLow) hp rfl, readTarget, hseed]
  · simp [step_read (g := .seedHigh) hp rfl, readTarget, hseed]

/-! The length registers (10_state.md R41, R42). -/

/-- A length within the capacity fits in a word. -/
theorem toNat_ofNat_len {n : Nat} (h : n ≤ 65536) : (BitVec.ofNat 32 n).toNat = n := by
  rw [BitVec.toNat_ofNat]
  omega

/-- Settles O50: a length register takes the legal values and refuses the others; a legal length reads back exactly. -/
theorem lengthRegisters : Obligations.LengthRegisters := by
  refine fun s rest hs => ⟨fun k v hp => ?_, fun k hp => ?_, fun v hp => ?_, fun hp => ?_⟩
  · rw [step_write hp (busTarget_bufLen k)]
    by_cases hv : v.toNat ≤ 65536
    · refine ⟨respond .okay (writeBufLen k v.toNat { s with pending := rest }), by simp [writeTarget, hv], ?_⟩
      simp +contextual [writeBufLen, State.buf_setBuf, sameDraws, hv, not_lt.2 hv]
    · refine ⟨respond .busError { s with pending := rest }, by simp [writeTarget, hv], ?_⟩
      simp [sameDraws, hv, not_le.1 hv]
  · refine ⟨BitVec.ofNat 32 (s.buf k).len, ?_, toNat_ofNat_len (State.len_le_of_inv hs k)⟩
    simp [step_read hp (busTarget_bufLen k), readTarget]
  · rw [step_write (g := .sampleLen) hp rfl]
    by_cases hv : v.toNat ≤ 65536
    · refine ⟨_, if_pos hv, ?_⟩
      simp [sameDraws, hv, not_lt.2 hv]
    · refine ⟨respond .busError { s with pending := rest }, by simp [writeTarget, hv], ?_⟩
      simp [sameDraws, hv, not_le.1 hv]
  · exact ⟨BitVec.ofNat 32 s.samples.len, step_read (g := .sampleLen) hp rfl,
      toNat_ofNat_len (State.samples_len_le_of_inv hs)⟩

end Sys2Proof.Machine
end

section
/-! PROOFS. One access, one response: what a step does to the host's queue and its responses, and that a read or a repeated
plain write changes nothing else (20_memory.md R61, R69, R71). -/

namespace Sys2Proof.Machine

/-! One response per access. -/

/-- The access that led from `s` to `t` got exactly one response and left the accesses to come (20_memory.md R61). -/
def answersOnce (s t : State) : Prop := t.pending = s.pending ∧ ∃ r, t.responses = r :: s.responses

/-- Answering a state with the queue and the responses of `s` gives `s` one response. -/
theorem answersOnce_respond {s u : State} (r : Response) (hp : u.pending = s.pending)
    (hr : u.responses = s.responses) : answersOnce s (respond r u) :=
  ⟨hp, r, by rw [respond_responses, hr]⟩

/-- A command does not touch the host's side (10_state.md R39, R40). -/
theorem exec_sameHostSide {i : Instr} {s t : State} (h : exec i s = .next t) : sameHostSide s t := by
  cases i with
  | encode code src dst =>
    rcases execEncode_next h with ⟨_, rfl⟩ | ⟨_, _, rfl⟩ | ⟨_, _, m, _, rfl⟩
    · exact ⟨rfl, rfl, rfl, rfl⟩
    · exact ⟨rfl, rfl, rfl, rfl⟩
    · simp [sameHostSide]
  | decode code src dst =>
    rcases execDecode_next h with ⟨_, rfl⟩ | ⟨_, r, _, rfl⟩
    · exact ⟨rfl, rfl, rfl, rfl⟩
    · simp [sameHostSide]
  | modulate src =>
    obtain ⟨m, _, rfl⟩ := execModulate_next h
    exact ⟨rfl, rfl, rfl, rfl⟩
  | channel chan code =>
    obtain ⟨xs, _, rfl⟩ := channelWith_next h
    exact ⟨rfl, rfl, rfl, rfl⟩
  | slice dst =>
    obtain ⟨ys, _, rfl⟩ := execSlice_next h
    simp [sameHostSide]

theorem issueCommand_sameHostSide {w : Word} {s t : State} (h : issueCommand w s = .next t) : sameHostSide s t := by
  rcases issueCommand_next h with rfl | ⟨i, _, hi⟩
  · exact ⟨rfl, rfl, rfl, rfl⟩
  · exact exec_sameHostSide hi

/-- A write of a mapped address gets one response, whatever it reaches. -/
theorem writeTarget_answersOnce {v : Word} {s t : State} {g : Target} (h : writeTarget v s g = .next t) :
    answersOnce s t := by
  have ht := writeTarget_next h
  cases g with
  | cmd =>
    obtain ⟨u, hu, rfl⟩ := ht
    obtain ⟨_, _, hp, hr⟩ := issueCommand_sameHostSide hu
    exact answersOnce_respond _ hp hr
  | ctrl =>
    obtain rfl : t = _ := ht
    exact answersOnce_respond _ (writeCtrl_pending v s) (writeCtrl_responses v s)
  | bufLen k =>
    rcases ht with ⟨_, rfl⟩ | ⟨_, rfl⟩
    · exact answersOnce_respond _ (State.setBuf_pending s k _) (State.setBuf_responses s k _)
    · exact answersOnce_respond _ rfl rfl
  | sampleLen => rcases ht with ⟨_, rfl⟩ | ⟨_, rfl⟩ <;> exact answersOnce_respond _ rfl rfl
  | bitWord k w =>
    obtain rfl : t = _ := ht
    exact answersOnce_respond _ (State.setBuf_pending s k _) (State.setBuf_responses s k _)
  | status | snrLow | snrHigh | seedLow | seedHigh | sampleLow _ | sampleHigh _ =>
    obtain rfl : t = _ := ht
    exact answersOnce_respond _ rfl rfl

/-- A read that completes does nothing but answer (20_memory.md R69). -/
theorem hostRead_next_eq_respond {a : BusAddr} {width : Nat} {s t : State} (h : hostRead a width s = .next t) :
    ∃ r, t = respond r s := by
  rcases hostRead_next h with ⟨ht, _⟩ | ⟨_, _, w, _, _, ht⟩
  · exact ⟨_, ht⟩
  · exact ⟨_, ht⟩

/-- Every access that completes gets one response. -/
theorem performAccess_answersOnce {a : Access} {s t : State} (h : performAccess a s = .next t) : answersOnce s t := by
  cases a with
  | read addr width =>
    obtain ⟨r, rfl⟩ := hostRead_next_eq_respond h
    exact answersOnce_respond r rfl rfl
  | write addr width strobes v =>
    rcases hostWrite_next h with ⟨rfl, _⟩ | ⟨_, _, g, _, hw⟩
    · exact answersOnce_respond _ rfl rfl
    · exact writeTarget_answersOnce hw

/-- Settles O7: a step is idle or performs the oldest access, and every access that completes gets one response. -/
theorem stepTakesOneAccess : Obligations.StepTakesOneAccess := by
  intro s t h
  rcases step_next h with hidle | ⟨a, rest, hp, ha⟩
  · exact .inl hidle
  · obtain ⟨hrest, r, hr⟩ := performAccess_answersOnce ha
    exact .inr ⟨a, r, by rw [hrest, hp], hr⟩

/-! Storing the same values in the same cells twice. -/

section
variable {α : Type}

@[simp] theorem Cells.set_set_same (c : Cells α) (i : Nat) (v : α) : (c.set i v).set i v = c.set i v := by
  induction c with
  | nil => simp [Cells.set]
  | cons p c ih =>
    obtain ⟨j, u⟩ := p
    rcases Nat.lt_trichotomy i j with hlt | rfl | hgt
    · simp [Cells.set, hlt]
    · simp [Cells.set]
    · simp [Cells.set, hgt.not_gt, hgt.ne', ih]

/-- Stores to two cells commute, in a list that need not be in canonical form either. -/
theorem Cells.set_set_comm (c : Cells α) {i k : Nat} (v u : α) (h : i < k) :
    (c.set k u).set i v = (c.set i v).set k u := by
  induction c with
  | nil => simp [Cells.set, h, h.not_gt, h.ne']
  | cons p c ih =>
    obtain ⟨j, x⟩ := p
    have hki : ¬ k < i := h.not_gt
    simp only [Cells.set]
    rcases Nat.lt_trichotomy k j with hk | rfl | hk
    · simp [Cells.set, hk, h, h.trans hk, hki, h.ne']
    · simp [Cells.set, h, hki, h.ne']
    · rw [if_neg hk.not_gt, if_neg hk.ne']
      rcases Nat.lt_trichotomy i j with hi | rfl | hi
      · simp [Cells.set, hi, hk.not_gt, hk.ne', hki, h.ne']
      · simp [Cells.set, hki, h.ne']
      · simp [Cells.set, hi.not_gt, hi.ne', hk.not_gt, hk.ne', ih]

/-- A store before a range commutes with the write of the range. -/
theorem Cells.set_write_comm (vs : List α) (c : Cells α) {i k : Nat} (v : α) (h : i < k) :
    (c.write k vs).set i v = (c.set i v).write k vs := by
  induction vs generalizing c k with
  | nil => rfl
  | cons u vs ih => rw [Cells.write, Cells.write, ih _ (Nat.lt_succ_of_lt h), Cells.set_set_comm c v u h]

@[simp] theorem Cells.write_write_same (vs : List α) (c : Cells α) (i : Nat) :
    (c.write i vs).write i vs = c.write i vs := by
  induction vs generalizing c i with
  | nil => rfl
  | cons v vs ih =>
    simp only [Cells.write]
    rw [Cells.set_write_comm vs _ v (Nat.lt_succ_self i), Cells.set_set_same, ih]

end

/-! Halves of 64-bit values. -/

@[simp] theorem lowHalf_joinHalves (lo hi : Word) : lowHalf (joinHalves lo hi) = lo := lowHalf_append hi lo

@[simp] theorem highHalf_joinHalves (lo hi : Word) : highHalf (joinHalves lo hi) = hi := highHalf_append hi lo

theorem storeLow_storeLow (w : Word) (c : Option SampleCell) : storeLow w (some (storeLow w c)) = storeLow w c := by
  rcases c with _ | _ | _ | _ <;> simp [storeLow]

theorem storeHigh_storeHigh (w : Word) (c : Option SampleCell) :
    storeHigh w (some (storeHigh w c)) = storeHigh w c := by
  rcases c with _ | _ | _ | _ <;> simp [storeHigh]

/-! Repeated writes. -/

/-- The write of a buffer's replacement, repeated after the response to the first, changes nothing more. -/
theorem State.setBuf_respond_setBuf (s : State) (k : BufIdx) (b : BitBuffer) (r : Response) :
    (respond r (s.setBuf k b)).setBuf k b = respond r (s.setBuf k b) := by cases k <;> rfl

theorem writeBufLen_repeated (k : BufIdx) (n : Nat) (r : Response) (s : State) :
    writeBufLen k n (respond r (writeBufLen k n s)) = respond r (writeBufLen k n s) := by
  simp only [writeBufLen, State.buf_respond, State.buf_setBuf_same, State.setBuf_respond_setBuf]

theorem writeBitWord_repeated (k : BufIdx) (w : Nat) (v : Word) (r : Response) (s : State) :
    writeBitWord k w v (respond r (writeBitWord k w v s)) = respond r (writeBitWord k w v s) := by
  simp only [writeBitWord, State.buf_respond, State.buf_setBuf_same, Cells.write_write_same,
    State.setBuf_respond_setBuf]

theorem setSampleCell_repeated (i : Nat) (c : SampleCell) (r : Response) (s : State) :
    setSampleCell i c (respond r (setSampleCell i c s)) = respond r (setSampleCell i c s) := by
  simp [setSampleCell, respond]

/-- What the cell holds that a store has just replaced. -/
theorem get_respond_setSampleCell (i : Nat) (c : SampleCell) (r : Response) (s : State) :
    (respond r (setSampleCell i c s)).samples.cells.get i = some c := Cells.get_set_same _ _ _

/-- Repeating a write of anything but CMD, STATUS and CTRL only answers once more (20_memory.md R69). -/
theorem writeTarget_repeated {v : Word} {s t u : State} {g : Target} (hcmd : g ≠ .cmd) (hstatus : g ≠ .status)
    (hctrl : g ≠ .ctrl) (hfirst : writeTarget v s g = .next t) (hagain : writeTarget v t g = .next u) :
    ∃ r, u = respond r t := by
  have ht := writeTarget_next hfirst
  have hu := writeTarget_next hagain
  cases g with
  | cmd => exact absurd rfl hcmd
  | status => exact absurd rfl hstatus
  | ctrl => exact absurd rfl hctrl
  | bufLen k =>
    rcases hu with ⟨hle, rfl⟩ | ⟨_, rfl⟩
    · rcases ht with ⟨_, rfl⟩ | ⟨hlt, _⟩
      · exact ⟨_, by rw [writeBufLen_repeated]⟩
      · exact absurd hle hlt.not_ge
    · exact ⟨_, rfl⟩
  | sampleLen =>
    rcases hu with ⟨hle, rfl⟩ | ⟨_, rfl⟩
    · rcases ht with ⟨_, rfl⟩ | ⟨hlt, _⟩
      · exact ⟨_, rfl⟩
      · exact absurd hle hlt.not_ge
    · exact ⟨_, rfl⟩
  | snrLow | snrHigh | seedLow | seedHigh =>
    obtain ⟨rfl, rfl⟩ : t = _ ∧ u = _ := ⟨ht, hu⟩
    exact ⟨.okay, by simp [respond]⟩
  | bitWord k w =>
    obtain ⟨rfl, rfl⟩ : t = _ ∧ u = _ := ⟨ht, hu⟩
    exact ⟨.okay, by rw [writeBitWord_repeated]⟩
  | sampleLow i =>
    obtain ⟨rfl, rfl⟩ : t = _ ∧ u = _ := ⟨ht, hu⟩
    exact ⟨.okay, by rw [get_respond_setSampleCell, storeLow_storeLow, setSampleCell_repeated]⟩
  | sampleHigh i =>
    obtain ⟨rfl, rfl⟩ : t = _ ∧ u = _ := ⟨ht, hu⟩
    exact ⟨.okay, by rw [get_respond_setSampleCell, storeHigh_storeHigh, setSampleCell_repeated]⟩

/-- A write that has been refused is refused again, and one that has been accepted reaches the same target again. -/
theorem hostWrite_repeated {a : BusAddr} {width : Nat} {strobes : BitVec 4} {v : Word} {s t u : State}
    (hcmd : a ≠ 0x00000#20) (hstatus : a ≠ 0x00004#20) (hctrl : a ≠ 0x00008#20)
    (hfirst : hostWrite a width strobes v s = .next t) (hagain : hostWrite a width strobes v t = .next u) :
    ∃ r, u = respond r t := by
  rcases hostWrite_next hagain with ⟨hu, _⟩ | ⟨hw, hst, g, hg, hwrite⟩
  · exact ⟨_, hu⟩
  · rcases hostWrite_next hfirst with ⟨_, hrefused⟩ | ⟨_, _, g', hg', hwrite'⟩
    · simp [hw, hst, hg] at hrefused
    · obtain rfl : g = g' := Option.some.inj (hg.symm.trans hg')
      obtain ⟨honlyCmd, honlyStatus, honlyCtrl⟩ := busTarget_control hg
      exact writeTarget_repeated (mt honlyCmd hcmd) (mt honlyStatus hstatus) (mt honlyCtrl hctrl) hwrite' hwrite

/-- Settles O46: a read only answers, and so does the second of two equal writes. -/
theorem readsHaveNoSideEffects : Obligations.ReadsHaveNoSideEffects := by
  refine ⟨fun s t addr width rest hp h => ?_, fun s t u addr width strobes v hcmd hstatus hctrl hfirst hagain => ?_⟩
  · rw [step_cons hp] at h
    exact hostRead_next_eq_respond h
  · obtain ⟨r, rfl⟩ := hostWrite_repeated hcmd hstatus hctrl hfirst hagain
    rfl

end Sys2Proof.Machine
end

section
/-! PROOFS. The two kinds of window, and where the host sees them (20_memory.md R63, R64, R76). -/

namespace Sys2Proof.Machine

/-! The bit windows (20_memory.md R63). -/

/-- The bits after a write of a word of a bit window. -/
theorem State.bit_writeBitWord (k j : BufIdx) (w i : Nat) (v : Word) (s : State) :
    (writeBitWord k w v s).bit j i =
      if j = k ∧ 32 * w ≤ i ∧ i < 32 * w + 32 then some (v.getLsbD (i - 32 * w)) else s.bit j i := by
  by_cases hj : j = k
  · subst hj
    simp only [State.bit, writeBitWord, State.buf_setBuf_same, Cells.get_write, length_bitsOfWord, true_and]
    split_ifs with hi
    · exact getElem?_bitsOfWord v (by omega)
    · rfl
  · simp [State.bit, writeBitWord, State.buf_setBuf_other s _ hj, hj]

@[simp] theorem State.bit_respond (r : Response) (s : State) (k : BufIdx) (i : Nat) :
    (respond r s).bit k i = s.bit k i := by rw [State.bit, State.buf_respond, State.bit]

/-- A word of a bit window cannot be read exactly when one of its cells is unwritten. -/
theorem readTarget_bitWord_eq_none_iff (s : State) (k : BufIdx) (w : Nat) :
    readTarget s (.bitWord k w) = none ↔ ∃ j < 32, s.bit k (32 * w + j) = none := by
  rw [readTarget, Option.map_eq_none_iff, Cells.read_eq_none_iff]
  rfl

/-- The word read from a bit window has cell j in bit j. -/
theorem bit_of_readTarget_bitWord {s : State} {k : BufIdx} {w j : Nat} {v : Word}
    (h : readTarget s (.bitWord k w) = some v) (hj : j < 32) : s.bit k (32 * w + j) = some (v.getLsbD j) := by
  obtain ⟨bits, hbits, rfl⟩ := Option.map_eq_some_iff.1 h
  obtain ⟨hlen, hget⟩ := (Cells.read_eq_some_iff _ _ _ _).1 hbits
  have hj' : j < bits.length := by omega
  rw [getLsbD_wordOfBits bits hj, State.bit, hget j hj, List.getD_eq_getElem?_getD, List.getElem?_eq_getElem hj']
  rfl

/-- Settles O51: a write stores the word's 32 bits in its 32 cells, and a read collects them or meets an unwritten one. -/
theorem bitWindowHoldsThirtyTwoCellsPerWord : Obligations.BitWindowHoldsThirtyTwoCellsPerWord := by
  refine fun s rest k w hw => ⟨fun v hp => ?_, fun hp => ⟨fun hnone => ?_, fun hall => ?_⟩⟩
  · refine ⟨respond .okay (writeBitWord k w v { s with pending := rest }), step_write hp (busTarget_bitWord k hw),
      by simp [writeBitWord], by simp [writeBitWord], fun j hj => ?_, fun i hi => ?_, by simp [writeBitWord],
      fun j hj => by simp [writeBitWord, State.buf_setBuf_other _ _ hj], ?_⟩
    · rw [State.bit_respond, State.bit_writeBitWord, if_pos ⟨rfl, by omega, by omega⟩, Nat.add_sub_cancel_left]
    · rw [State.bit_respond, State.bit_writeBitWord, if_neg (by omega)]
      simp
    · simp [writeBitWord, sameDraws]
  · rw [step_read hp (busTarget_bitWord k hw), (readTarget_bitWord_eq_none_iff _ k w).2 (by simpa using hnone)]
  · rw [step_read hp (busTarget_bitWord k hw)]
    cases hr : readTarget { s with pending := rest } (.bitWord k w) with
    | none =>
      obtain ⟨j, hj, hn⟩ := (readTarget_bitWord_eq_none_iff _ k w).1 hr
      exact absurd (by simpa using hn) (hall j hj)
    | some v => exact ⟨v, rfl, fun j hj => by simpa using bit_of_readTarget_bitWord hr hj⟩

/-! The sample window (20_memory.md R64). -/

/-- Only a whole cell is a written sample. -/
theorem State.sample_eq_some_iff (s : State) (i : Nat) (x : F64) :
    s.sample i = some x ↔ s.samples.cells.get i = some (.whole x) := by
  rw [State.sample]
  rcases s.samples.cells.get i with _ | _ | _ | _ <;> simp [SampleCell.value?]

/-- The state after an accepted write that leaves `c` in sample cell `i`: what `step_sampleLow` and `step_sampleHigh` say. -/
def State.afterSampleStore (s : State) (rest : List Access) (i : Nat) (c : SampleCell) : State :=
  respond .okay (setSampleCell i c { s with pending := rest })

theorem get_afterSampleStore (s : State) (rest : List Access) (i : Nat) (c : SampleCell) :
    (s.afterSampleStore rest i c).samples.cells.get i = some c := get_respond_setSampleCell i c _ _

theorem sample_afterSampleStore (s : State) (rest : List Access) (i : Nat) (c : SampleCell) :
    (s.afterSampleStore rest i c).sample i = c.value? := by rw [State.sample, get_afterSampleStore]; rfl

theorem onlySampleChanged_afterSampleStore (s : State) (rest : List Access) (i : Nat) (c : SampleCell) :
    onlySampleChanged i s (s.afterSampleStore rest i c) :=
  onlySampleChanged_setSampleCell { s with pending := rest } i c

theorem onlySampleChanged_trans {i : Nat} {s t u : State} (hst : onlySampleChanged i s t)
    (htu : onlySampleChanged i t u) : onlySampleChanged i s u := by
  obtain ⟨cells, len, buf, lastErr, sticky, snr, seed, rng, nan⟩ := hst
  obtain ⟨cells', len', buf', lastErr', sticky', snr', seed', rng', nan'⟩ := htu
  exact ⟨fun j hj => (cells' j hj).trans (cells j hj), len'.trans len, fun k => (buf' k).trans (buf k),
    lastErr'.trans lastErr, sticky'.trans sticky, snr'.trans snr, seed'.trans seed, rng'.trans rng, nan'.trans nan⟩

/-- What one accepted write of a half shows of the sample: the value its new cell has. -/
theorem exists_next_of_sampleStore {s : State} {rest : List Access} {i : Nat} {c : SampleCell}
    (h : step s = .next (s.afterSampleStore rest i c)) :
    ∃ t, step s = .next t ∧ t.sample i = c.value? ∧ onlySampleChanged i s t ∧ t.pending = rest ∧
      t.responses = .okay :: s.responses :=
  ⟨_, h, sample_afterSampleStore s rest i c, onlySampleChanged_afterSampleStore s rest i c, rfl, rfl⟩

/-- A write of the low word makes of the cell what `storeLow` says. -/
theorem step_sampleLow_of_cell {s : State} {rest : List Access} {i : Nat} {v : Word} {cell : Option SampleCell}
    (hi : i < 65536) (hp : s.pending = .write (BitVec.ofNat 20 (0x80000 + 8 * i)) 32 0b1111#4 v :: rest)
    (hcell : s.samples.cells.get i = cell) : step s = .next (s.afterSampleStore rest i (storeLow v cell)) := by
  rw [step_sampleLow hi hp, hcell]
  rfl

/-- A write of the high word makes of the cell what `storeHigh` says. -/
theorem step_sampleHigh_of_cell {s : State} {rest : List Access} {i : Nat} {v : Word} {cell : Option SampleCell}
    (hi : i < 65536) (hp : s.pending = .write (BitVec.ofNat 20 (0x80000 + 8 * i + 4)) 32 0b1111#4 v :: rest)
    (hcell : s.samples.cells.get i = cell) : step s = .next (s.afterSampleStore rest i (storeHigh v cell)) := by
  rw [step_sampleHigh hi hp, hcell]
  rfl

/-- In a written sample the low word is replaced (20_memory.md R64, R65). -/
theorem storeLow_whole (v lo hi : Word) : storeLow v (some (.whole (hi ++ lo))) = .whole (hi ++ v) := by
  rw [storeLow, highHalf_append, joinHalves]

/-- In a written sample the high word is replaced (20_memory.md R64, R65). -/
theorem storeHigh_whole (v lo hi : Word) : storeHigh v (some (.whole (hi ++ lo))) = .whole (v ++ lo) := by
  rw [storeHigh, lowHalf_append, joinHalves]

/-- What two accepted writes show of the sample when the first leaves it unwritten and the second completes it. -/
theorem exists_next_of_two_sampleStores {s : State} {a : Access} {rest : List Access} {i : Nat} {c : SampleCell}
    {x : F64} (hc : c.value? = none) (hfirst : step s = .next (s.afterSampleStore (a :: rest) i c))
    (hsecond : step (s.afterSampleStore (a :: rest) i c) =
      .next ((s.afterSampleStore (a :: rest) i c).afterSampleStore rest i (.whole x))) :
    ∃ t u, step s = .next t ∧ step t = .next u ∧ t.sample i = none ∧ u.sample i = some x ∧
      onlySampleChanged i s t ∧ onlySampleChanged i s u ∧ u.pending = rest ∧
      t.responses = .okay :: s.responses ∧ u.responses = .okay :: .okay :: s.responses := by
  have hst := onlySampleChanged_afterSampleStore s (a :: rest) i c
  exact ⟨_, _, hfirst, hsecond, by rw [sample_afterSampleStore, hc], sample_afterSampleStore _ _ _ _, hst,
    onlySampleChanged_trans hst (onlySampleChanged_afterSampleStore _ rest i _), rfl, rfl, rfl⟩

/-- The first half stored in a cell that nothing has touched is kept, and the other half completes the sample, in either
order (log 11). -/
theorem step_both_halves {s : State} {rest : List Access} {i : Nat} {lo hi : Word} (hlt : i < 65536)
    (hnone : s.samples.cells.get i = none)
    (hp : s.pending = .write (BitVec.ofNat 20 (0x80000 + 8 * i)) 32 0b1111#4 lo ::
        .write (BitVec.ofNat 20 (0x80000 + 8 * i + 4)) 32 0b1111#4 hi :: rest ∨
      s.pending = .write (BitVec.ofNat 20 (0x80000 + 8 * i + 4)) 32 0b1111#4 hi ::
        .write (BitVec.ofNat 20 (0x80000 + 8 * i)) 32 0b1111#4 lo :: rest) :
    ∃ t u, step s = .next t ∧ step t = .next u ∧ t.sample i = none ∧ u.sample i = some (hi ++ lo) ∧
      onlySampleChanged i s t ∧ onlySampleChanged i s u ∧ u.pending = rest ∧
      t.responses = .okay :: s.responses ∧ u.responses = .okay :: .okay :: s.responses := by
  rcases hp with hp | hp
  · have hfirst := step_sampleLow_of_cell hlt hp hnone
    exact exists_next_of_two_sampleStores rfl hfirst (step_sampleHigh_of_cell hlt rfl (get_afterSampleStore s _ i _))
  · have hfirst := step_sampleHigh_of_cell hlt hp hnone
    exact exists_next_of_two_sampleStores rfl hfirst (step_sampleLow_of_cell hlt rfl (get_afterSampleStore s _ i _))

/-- Settles O52: what each half's store makes of each kind of cell, and what a read of a half answers. -/
theorem sampleWindowHoldsTwoWordsPerSample : Obligations.SampleWindowHoldsTwoWordsPerSample := by
  refine fun s rest i hlt => ⟨fun v lo hi hx => ⟨fun hp => ?_, fun hp => ?_, fun hp => ?_, fun hp => ?_⟩,
    fun lo hi hnone hp => step_both_halves hlt hnone hp, fun v lo hcell => ⟨fun hp => ?_, fun hp => ?_⟩,
    fun v hi hcell => ⟨fun hp => ?_, fun hp => ?_⟩, fun hx hp => ?_⟩
  · have hstep := step_sampleLow_of_cell hlt hp ((s.sample_eq_some_iff i _).1 hx)
    rw [storeLow_whole] at hstep
    exact exists_next_of_sampleStore hstep
  · have hstep := step_sampleHigh_of_cell hlt hp ((s.sample_eq_some_iff i _).1 hx)
    rw [storeHigh_whole] at hstep
    exact exists_next_of_sampleStore hstep
  · simp [step_read hp (busTarget_sample hlt).1, readTarget, hx]
  · simp [step_read hp (busTarget_sample hlt).2, readTarget, hx]
  · exact exists_next_of_sampleStore (step_sampleLow_of_cell hlt hp hcell)
  · exact exists_next_of_sampleStore (step_sampleHigh_of_cell hlt hp hcell)
  · exact exists_next_of_sampleStore (step_sampleHigh_of_cell hlt hp hcell)
  · exact exists_next_of_sampleStore (step_sampleLow_of_cell hlt hp hcell)
  · rcases hp with hp | hp
    · simp [step_read hp (busTarget_sample hlt).1, readTarget, hx]
    · simp [step_read hp (busTarget_sample hlt).2, readTarget, hx]

/-! The host's addresses (20_memory.md R76). -/

theorem offsetIn_eq_none_iff (base a : Nat) : offsetIn base a = none ↔ a < base ∨ base + 2 ^ 20 ≤ a := by
  rw [offsetIn]
  split_ifs with h <;> simp <;> omega

/-- An address reaches an offset exactly when it is the base plus that offset. -/
theorem offsetIn_eq_some_iff (base a : Nat) (off : BusAddr) : offsetIn base a = some off ↔ hostAddress base off = a := by
  have hoff : off.toNat < 2 ^ 20 := off.isLt
  rw [offsetIn, hostAddress]
  split_ifs with h
  · rw [Option.some_inj, ← BitVec.toNat_inj, BitVec.toNat_ofNat]
    omega
  · simp only [false_iff]
    omega

/-- Settles O54: offsets and addresses of the window correspond one for one, and the window is 2^20 bytes. -/
theorem hostAddressesAreBasePlusOffset : Obligations.HostAddressesAreBasePlusOffset :=
  fun base => ⟨fun off => (offsetIn_eq_some_iff base _ off).2 rfl, fun a off => (offsetIn_eq_some_iff base a off).1,
    offsetIn_eq_none_iff base⟩

end Sys2Proof.Machine
end

section
/-! PROOFS. The encoding (30_encoding.md R90 to R101): which words spell a command, that the encoder's words do, which bits
of a word the decoder reads, what the selectors resolve to, and that a CMD write runs the decoded command. -/

namespace Sys2Proof.Laws
open Machine

/-! Masked words. -/

/-- Words that agree under a mask agree under every mask it covers. -/
theorem and_eq_of_and_eq {m n w v : Word} (h : w &&& m = v &&& m) (hmn : m &&& n = n) : w &&& n = v &&& n := by
  rw [← hmn, ← BitVec.and_assoc, h, BitVec.and_assoc]

/-- Words that agree under a mask agree in every field the mask keeps whole. -/
theorem extractLsb'_eq_of_and_eq {m w v : Word} {lo len : Nat} (h : w &&& m = v &&& m)
    (hm : m.extractLsb' lo len = BitVec.allOnes len) : w.extractLsb' lo len = v.extractLsb' lo len := by
  have hf := congrArg (BitVec.extractLsb' lo len) h
  rwa [BitVec.extractLsb'_and, BitVec.extractLsb'_and, hm, BitVec.and_allOnes, BitVec.and_allOnes] at hf

/-! The word and its fields (30_encoding.md R91). -/

theorem wordField_lt (w : Word) (hi lo : Nat) : wordField w hi lo < 2 ^ (hi + 1 - lo) :=
  Nat.mod_lt _ (Nat.two_pow_pos _)

theorem opAssigned_iff (w : Word) : opAssigned w = true ↔ 1 ≤ wordField w 3 0 ∧ wordField w 3 0 ≤ 5 := by
  simp [opAssigned]

theorem reservedClear_iff (w : Word) :
    reservedClear w = true ↔
      wordField w 7 7 = 0 ∧ wordField w 11 10 = 0 ∧ wordField w 15 14 = 0 ∧ wordField w 31 18 = 0 := by
  simp [reservedClear, and_assoc]

/-- A word with clear reserved bits is made of its five fields (30_encoding.md R91). -/
theorem commandWord_wordFields {w : Word} (h : reservedClear w = true) :
    commandWord (wordField w 3 0) (wordField w 6 4) (wordField w 9 8) (wordField w 13 12) (wordField w 17 16) = w := by
  obtain ⟨h7, h10, h14, h18⟩ := (reservedClear_iff w).1 h
  apply BitVec.eq_of_toNat_eq
  have hw := w.isLt
  simp only [wordField] at h7 h10 h14 h18
  simp only [commandWord, wordField, BitVec.toNat_ofNat]
  omega

/-- What the mask of the table keeps of a word whose OP is assigned and whose reserved bits are clear is OP (30_encoding.md
R100). -/
theorem and_mask_eq_op {w : Word} (ho : opAssigned w = true) (hr : reservedClear w = true) :
    w &&& 0xFFFCCC8F#32 = BitVec.ofNat 32 (wordField w 3 0) := by
  have hop := ((opAssigned_iff w).1 ho).2
  calc w &&& 0xFFFCCC8F#32
      = commandWord (wordField w 3 0) (wordField w 6 4) (wordField w 9 8) (wordField w 13 12) (wordField w 17 16) &&&
          0xFFFCCC8F#32 := by rw [commandWord_wordFields hr]
    _ = BitVec.ofNat 32 (wordField w 3 0) :=
      commandWord_masked _ _ _ _ _ (by omega) (wordField_lt w 6 4) (wordField_lt w 9 8) (wordField_lt w 13 12)
        (wordField_lt w 17 16)

/-- A word with the fixed bits of a row has an assigned OP and clear reserved bits (30_encoding.md R100). -/
theorem assigned_and_clear_of_rowMatch {w : Word} {i : Instr} (h : w &&& 0xFFFCCC8F#32 = rowMatch i) :
    opAssigned w = true ∧ reservedClear w = true := by
  have hrow : w &&& 0xFFFCCC8F#32 = rowMatch i &&& 0xFFFCCC8F#32 := by rw [h]; cases i <;> simp [rowMatch]
  have hfield : ∀ hi lo, (0xFFFCCC8F#32).extractLsb' lo (hi + 1 - lo) = BitVec.allOnes (hi + 1 - lo) →
      wordField w hi lo = wordField (rowMatch i) hi lo := fun hi lo hm => by
    rw [wordField_eq_extractLsb', wordField_eq_extractLsb', extractLsb'_eq_of_and_eq hrow hm]
  rw [opAssigned_iff, reservedClear_iff, hfield 3 0 rfl, hfield 7 7 rfl, hfield 11 10 rfl, hfield 15 14 rfl,
    hfield 31 18 rfl]
  cases i <;> simp [rowMatch, wordField]

/-! Which words spell which command. -/

/-- The operands of a command are the well-formed ones with the numbers of the fields the command reads (30_encoding.md R91,
R92). -/
def operandsAt (w : Word) : Instr → Prop
  | .encode code src dst | .decode code src dst =>
    code.wf = true ∧ codeNum code = (w.extractLsb' 4 3).toNat ∧ bufNum src = (w.extractLsb' 12 2).toNat ∧
      bufNum dst = (w.extractLsb' 16 2).toNat
  | .modulate src => bufNum src = (w.extractLsb' 12 2).toNat
  | .channel chan code =>
    chan.wf = true ∧ chanNum chan = (w.extractLsb' 8 2).toNat ∧ code.wf = true ∧
      codeNum code = (w.extractLsb' 4 3).toNat
  | .slice dst => bufNum dst = (w.extractLsb' 16 2).toNat

theorem codeOfField_wordField (w : Word) (c : CodeField) :
    codeOfField (wordField w 6 4) = c ↔ c.wf = true ∧ codeNum c = (w.extractLsb' 4 3).toNat := by
  rw [codeOfField_eq_iff (wordField_lt w 6 4), wordField_eq_extractLsb']

theorem chanOfField_wordField (w : Word) (c : ChanField) :
    chanOfField (wordField w 9 8) = c ↔ c.wf = true ∧ chanNum c = (w.extractLsb' 8 2).toNat := by
  rw [chanOfField_eq_iff (wordField_lt w 9 8), wordField_eq_extractLsb']

theorem bufOfField_src (w : Word) (b : BufIdx) :
    bufOfField (wordField w 13 12) = b ↔ bufNum b = (w.extractLsb' 12 2).toNat := by
  rw [bufOfField_eq_iff (wordField_lt w 13 12), wordField_eq_extractLsb']

theorem bufOfField_dst (w : Word) (b : BufIdx) :
    bufOfField (wordField w 17 16) = b ↔ bufNum b = (w.extractLsb' 16 2).toNat := by
  rw [bufOfField_eq_iff (wordField_lt w 17 16), wordField_eq_extractLsb']

/-- What the decoder makes of a word it accepts: the command whose row has the word's OP, with the operands of its fields
(30_encoding.md R90). -/
theorem decode_eq_ok_iff_of_legal {w : Word} (ho : opAssigned w = true) (hr : reservedClear w = true) (i : Instr) :
    decode w = .ok i ↔ BitVec.ofNat 32 (wordField w 3 0) = rowMatch i ∧ operandsAt w i := by
  obtain ⟨h1, h5⟩ := (opAssigned_iff w).1 ho
  simp only [decode, ho, hr]
  interval_cases wordField w 3 0 <;> cases i <;>
    simp [rowMatch, operandsAt, codeOfField_wordField, chanOfField_wordField, bufOfField_src, bufOfField_dst, and_assoc]

/-- A word spells a command exactly when it has the fixed bits of the command's row and the command's operands in their
fields (30_encoding.md R100). -/
theorem decode_eq_ok_iff (w : Word) (i : Instr) :
    decode w = .ok i ↔ w &&& 0xFFFCCC8F#32 = rowMatch i ∧ operandsAt w i := by
  by_cases hlegal : opAssigned w = true ∧ reservedClear w = true
  · obtain ⟨ho, hr⟩ := hlegal
    rw [and_mask_eq_op ho hr, decode_eq_ok_iff_of_legal ho hr]
  · obtain ⟨e, he⟩ : ∃ e, decode w = .error e := by
      rw [decode_isError_iff]
      simpa only [not_and_or, Bool.not_eq_true] using hlegal
    exact iff_of_false (by simp [he]) fun h => hlegal (assigned_and_clear_of_rowMatch h.1)

/-- A word that spells no command raises IllegalCommand (30_encoding.md R90). -/
theorem issueCommand_of_no_command {w : Word} (h : ∀ i, decode w ≠ .ok i) (s : State) :
    issueCommand w s = .next { s with lastErr := .illegalCmd, errSticky := true } := by
  cases hd : decode w with
  | error e => exact issueCommand_error hd s
  | ok i => exact absurd hd (h i)

/-! The encoder's words (30_encoding.md R101). -/

theorem encode_and_mask (i : Instr) : encode i &&& 0xFFFCCC8F#32 = rowMatch i := by
  cases i with
  | encode code src dst => exact TableMatch.encode code src dst
  | decode code src dst => exact TableMatch.decode code src dst
  | modulate src => exact TableMatch.modulate src
  | channel chan code => exact TableMatch.channel chan code
  | slice dst => exact TableMatch.slice dst

/-- The operand fields of a command word are the numbers it was made of (30_encoding.md R91). -/
theorem commandWord_fields {op code chan src dst : Nat} (h0 : op < 16) (h1 : code < 8) (h2 : chan < 4) (h3 : src < 4)
    (h4 : dst < 4) :
    ((commandWord op code chan src dst).extractLsb' 4 3).toNat = code ∧
      ((commandWord op code chan src dst).extractLsb' 8 2).toNat = chan ∧
      ((commandWord op code chan src dst).extractLsb' 12 2).toNat = src ∧
      ((commandWord op code chan src dst).extractLsb' 16 2).toNat = dst := by
  simp only [commandWord, BitVec.extractLsb'_toNat, BitVec.toNat_ofNat, Nat.shiftRight_eq_div_pow]
  omega

/-- The encoding of a well-formed command holds its operands (30_encoding.md R92, R101). -/
theorem operandsAt_encode {i : Instr} (h : i.wf = true) : operandsAt (encode i) i := by
  cases i with
  | encode code src dst =>
    obtain ⟨hcode, -, hsrc, hdst⟩ := commandWord_fields (op := 1) (by decide) (codeNum_lt code) (Nat.zero_lt_succ 3)
      (bufNum_lt src) (bufNum_lt dst)
    exact ⟨h, hcode.symm, hsrc.symm, hdst.symm⟩
  | decode code src dst =>
    obtain ⟨hcode, -, hsrc, hdst⟩ := commandWord_fields (op := 2) (by decide) (codeNum_lt code) (Nat.zero_lt_succ 3)
      (bufNum_lt src) (bufNum_lt dst)
    exact ⟨h, hcode.symm, hsrc.symm, hdst.symm⟩
  | modulate src =>
    obtain ⟨-, -, hsrc, -⟩ := commandWord_fields (op := 3) (by decide) (Nat.zero_lt_succ 7) (Nat.zero_lt_succ 3)
      (bufNum_lt src) (Nat.zero_lt_succ 3)
    exact hsrc.symm
  | channel chan code =>
    obtain ⟨hcode, hchan, -, -⟩ := commandWord_fields (op := 4) (by decide) (codeNum_lt code) (chanNum_lt chan)
      (Nat.zero_lt_succ 3) (Nat.zero_lt_succ 3)
    obtain ⟨hchanwf, hcodewf⟩ := (Bool.and_eq_true _ _).mp h
    exact ⟨hchanwf, hchan.symm, hcodewf, hcode.symm⟩
  | slice dst =>
    obtain ⟨-, -, -, hdst⟩ := commandWord_fields (op := 5) (by decide) (Nat.zero_lt_succ 7) (Nat.zero_lt_succ 3)
      (Nat.zero_lt_succ 3) (bufNum_lt dst)
    exact hdst.symm

/-- Settles O1: the encoder's word has the fixed bits of the command's row and its operands in their fields, and such a word
spells the command. -/
theorem decodeOfEncodeIsTheCommand : Obligations.DecodeOfEncodeIsTheCommand :=
  fun i h => (decode_eq_ok_iff _ i).2 ⟨encode_and_mask i, operandsAt_encode h⟩

/-- Settles O2: the rows one by one, and a word with the fixed bits of no row spells no command. -/
theorem wordsSpellTheirTableRow : Obligations.WordsSpellTheirTableRow := by
  intro w
  refine ⟨fun code src dst => decode_eq_ok_iff w (.encode code src dst),
    fun code src dst => decode_eq_ok_iff w (.decode code src dst), fun src => decode_eq_ok_iff w (.modulate src),
    fun chan code => decode_eq_ok_iff w (.channel chan code), fun dst => decode_eq_ok_iff w (.slice dst),
    fun s hno => issueCommand_of_no_command (fun i hi => ?_) s⟩
  rw [((decode_eq_ok_iff w i).1 hi).1] at hno
  cases i <;> simp [rowMatch] at hno

/-! The bits the decoder reads (30_encoding.md R92, R96). -/

/-- The mask of the bits a command depends on: OP, the reserved bits and the fields it reads. -/
def readMask : Instr → Word
  | .encode _ _ _ | .decode _ _ _ => 0xFFFFFCFF#32
  | .modulate _ => 0xFFFCFC8F#32
  | .channel _ _ => 0xFFFCCFFF#32
  | .slice _ => 0xFFFFCC8F#32

/-- Words that agree in the bits a command depends on hold the same operands for it. -/
theorem operandsAt_congr {w v : Word} {i : Instr} (h : w &&& readMask i = v &&& readMask i) :
    operandsAt w i ↔ operandsAt v i := by
  have hfield : ∀ lo len, (readMask i).extractLsb' lo len = BitVec.allOnes len →
      w.extractLsb' lo len = v.extractLsb' lo len := fun _ _ => extractLsb'_eq_of_and_eq h
  cases i with simp only [readMask] at hfield
  | encode code src dst => simp only [operandsAt, hfield 4 3 rfl, hfield 12 2 rfl, hfield 16 2 rfl]
  | decode code src dst => simp only [operandsAt, hfield 4 3 rfl, hfield 12 2 rfl, hfield 16 2 rfl]
  | modulate src => simp only [operandsAt, hfield 12 2 rfl]
  | channel chan code => simp only [operandsAt, hfield 8 2 rfl, hfield 4 3 rfl]
  | slice dst => simp only [operandsAt, hfield 16 2 rfl]

/-- OP and the reserved bits are among the bits every command depends on. -/
theorem readMask_and_mask (i : Instr) : readMask i &&& 0xFFFCCC8F#32 = 0xFFFCCC8F#32 := by
  cases i <;> simp only [readMask] <;> rfl

/-- Words that agree in the bits a command depends on both spell it, or neither does. -/
theorem decode_eq_ok_congr {w v : Word} {i : Instr} (h : w &&& readMask i = v &&& readMask i) :
    decode w = .ok i ↔ decode v = .ok i := by
  rw [decode_eq_ok_iff, decode_eq_ok_iff, and_eq_of_and_eq h (readMask_and_mask i), operandsAt_congr h]

/-- The OP field of a word that spells a command is that of the command's row. -/
theorem op_of_decode {w : Word} {i : Instr} (h : decode w = .ok i) :
    w.extractLsb' 0 4 = (rowMatch i).extractLsb' 0 4 := by
  rw [← ((decode_eq_ok_iff w i).1 h).1, BitVec.extractLsb'_and]
  exact (BitVec.and_allOnes).symm

/-- Words that spell the same commands have the same effect. -/
theorem issueCommand_congr {w v : Word} (h : ∀ i, decode w = .ok i ↔ decode v = .ok i)
    (s : State) : issueCommand w s = issueCommand v s := by
  cases hd : decode w with
  | ok i => rw [issueCommand_ok hd, issueCommand_ok ((h i).1 hd)]
  | error e =>
    have hw : ∀ i, decode w ≠ .ok i := fun i hi => by simp [hd] at hi
    rw [issueCommand_of_no_command hw, issueCommand_of_no_command fun i hi => hw i ((h i).2 hi)]

/-- Words that agree under a mask that keeps OP have the same effect when the mask is that of every command with their
OP. -/
theorem issueCommand_eq_of_and_eq {m w v : Word} (h : w &&& m = v &&& m)
    (hop : m.extractLsb' 0 4 = BitVec.allOnes 4)
    (hread : ∀ i, w.extractLsb' 0 4 = (rowMatch i).extractLsb' 0 4 → readMask i = m) (s : State) :
    issueCommand w s = issueCommand v s := by
  have hsame : w.extractLsb' 0 4 = v.extractLsb' 0 4 := extractLsb'_eq_of_and_eq h hop
  refine issueCommand_congr (fun i => ?_) s
  by_cases hi : w.extractLsb' 0 4 = (rowMatch i).extractLsb' 0 4
  · exact decode_eq_ok_congr (by rwa [hread i hi])
  · exact iff_of_false (fun hd => hi (op_of_decode hd)) fun hd => hi (hsame.trans (op_of_decode hd))

/-- The mask of the table keeps every reserved bit, and no row has a 1 in one (30_encoding.md R91, R100). -/
theorem reservedBit_of_mask_of_rowMatch {j : Nat} (hj : j = 7 ∨ j = 10 ∨ j = 11 ∨ j = 14 ∨ j = 15 ∨ 18 ≤ j)
    (hlt : j < 32) (i : Instr) : (0xFFFCCC8F#32).getLsbD j = true ∧ (rowMatch i).getLsbD j = false := by
  have hmask : ∀ j < 32, (j = 7 ∨ j = 10 ∨ j = 11 ∨ j = 14 ∨ j = 15 ∨ 18 ≤ j) →
      (0xFFFCCC8F#32).getLsbD j = true ∧ (7#32).getLsbD j = false := by decide
  obtain ⟨hm, h7⟩ := hmask j hlt hj
  have hrow : rowMatch i = rowMatch i &&& 7#32 := by cases i <;> simp [rowMatch]
  rw [hrow, BitVec.getLsbD_and, h7, Bool.and_false]
  exact ⟨hm, rfl⟩

/-- A word with a 1 in a reserved bit spells no command (30_encoding.md R90, R96). -/
theorem decode_ne_ok_of_reservedBit {w : Word} {j : Nat}
    (hj : j = 7 ∨ j = 10 ∨ j = 11 ∨ j = 14 ∨ j = 15 ∨ 18 ≤ j) (hbit : w.getLsbD j = true) (i : Instr) :
    decode w ≠ .ok i := by
  intro hi
  obtain ⟨hmask, hrow⟩ := reservedBit_of_mask_of_rowMatch hj (BitVec.lt_of_getLsbD hbit) i
  rw [← ((decode_eq_ok_iff w i).1 hi).1, BitVec.getLsbD_and, hbit, hmask] at hrow
  exact absurd hrow (by decide)

/-- Settles O3: the four masks are those of the commands of the OP, and a reserved bit spells no command. -/
theorem ignoredFieldsHaveNoEffect : Obligations.IgnoredFieldsHaveNoEffect := by
  intro w v s
  refine ⟨fun hop h => issueCommand_eq_of_and_eq h rfl (fun i hi => ?_) s,
    fun hop h => issueCommand_eq_of_and_eq h rfl (fun i hi => ?_) s,
    fun hop h => issueCommand_eq_of_and_eq h rfl (fun i hi => ?_) s,
    fun hop h => issueCommand_eq_of_and_eq h rfl (fun i hi => ?_) s,
    fun j hj hbit => issueCommand_of_no_command (decode_ne_ok_of_reservedBit hj hbit) s⟩
  -- the commands whose row has the clause's OP have the clause's mask; the others do not have that OP
  all_goals
    rw [hi] at hop
    cases i <;> simp [rowMatch, readMask] at hop ⊢

/-! The selectors (30_encoding.md R93, R94). -/

/-- The scheme each value of a CODE field selects (30_encoding.md R93). -/
theorem resolveCode_codeOfField (n : Nat) :
    resolveCode (codeOfField n) = match n with
      | 1 => .repetition3 | 2 => .repetition5 | 3 => .hamming74 | 4 => .hamming1511 | _ => .uncoded := by
  match n with
  | 0 | 1 | 2 | 3 | 4 | _ + 5 => rfl

/-- The channel type each value of a CHAN field selects (30_encoding.md R94). -/
theorem resolveChan_chanOfField (n : Nat) :
    resolveChan (chanOfField n) = if n = 1 then .rayleigh else .awgn := by
  match n with
  | 0 | 1 | _ + 2 => simp [chanOfField, resolveChan]

/-- Settles O5: a decoded command's selectors are those of its fields. -/
theorem selectorsResolveToTheirDefaults : Obligations.SelectorsResolveToTheirDefaults := by
  refine fun w => ⟨fun code src dst h => ?_, fun chan code h => ?_⟩
  · have hcode : codeOfField (wordField w 6 4) = code := by
      rcases h with h | h
      · obtain ⟨-, hwf, hnum, -⟩ := (decode_eq_ok_iff w _).1 h
        exact (codeOfField_wordField w code).2 ⟨hwf, hnum⟩
      · obtain ⟨-, hwf, hnum, -⟩ := (decode_eq_ok_iff w _).1 h
        exact (codeOfField_wordField w code).2 ⟨hwf, hnum⟩
    rw [← hcode, wordField_eq_extractLsb']
    exact resolveCode_codeOfField _
  · obtain ⟨-, hchanwf, hchan, hcode⟩ := (decode_eq_ok_iff w _).1 h
    rw [← (codeOfField_wordField w code).2 hcode, ← (chanOfField_wordField w chan).2 ⟨hchanwf, hchan⟩,
      wordField_eq_extractLsb', wordField_eq_extractLsb']
    exact ⟨resolveCode_codeOfField _, resolveChan_chanOfField _⟩

/-! The step (20_memory.md R61). -/

/-- Settles O6: the write of CMD answers OKAY to the outcome of the command. -/
theorem stepRunsTheDecodedCommand : Obligations.StepRunsTheDecodedCommand := by
  intro s w i rest hp hd
  have hstep : step s = respondTo .okay (exec i { s with pending := rest }) := by
    rw [← issueCommand_ok hd]
    exact step_write (g := .cmd) hp rfl
  exact ⟨fun t ht => by rw [hstep, ht]; rfl, fun f hf => by rw [hstep, hf]; rfl⟩

end Sys2Proof.Laws
end

section
/-! PROOFS. The code schemes (40_code_schemes.md R122 to R131): a codeword is `m·G`, its syndrome is 0 because the rows of G
and H are orthogonal, and its message bits stand where G has unit columns. -/

namespace Sys2Proof.Machine

/-! Products mod 2 (00_scope.md R8). -/

@[simp] theorem xorAll_cons (b : Bool) (bits : List Bool) : xorAll (b :: bits) = xor b (xorAll bits) := rfl

/-- A sum mod 2 is 0 when the number of 1s is even. -/
theorem xorAll_eq_false_iff (bits : List Bool) : xorAll bits = false ↔ bits.count true % 2 = 0 := by
  induction bits with
  | nil => simp [xorAll]
  | cons b bits ih =>
    cases b with
    | false => simpa using ih
    | true =>
      rw [xorAll_cons, Bool.true_xor, Bool.not_eq_false', List.count_cons_self, ← Bool.not_eq_false, ih]
      omega

@[simp] theorem dot_nil_left (a : List Bool) : dot [] a = false := rfl

@[simp] theorem dot_nil_right (a : List Bool) : dot a [] = false := by cases a <;> rfl

@[simp] theorem dot_cons (x y : Bool) (a b : List Bool) : dot (x :: a) (y :: b) = xor (x && y) (dot a b) := rfl

theorem dot_comm (a b : List Bool) : dot a b = dot b a := by
  rw [dot, dot, List.zipWith_comm_of_comm Bool.and_comm]

theorem dot_replicate_false (a : List Bool) (n : Nat) : dot a (List.replicate n false) = false := by
  induction n generalizing a with
  | zero => exact dot_nil_right a
  | succ n ih => cases a <;> simp [List.replicate_succ, ih]

/-- The product is linear in a row. -/
theorem dot_addRows (h : List Bool) {a b : List Bool} (hlen : a.length = b.length) :
    dot h (addRows a b) = xor (dot h a) (dot h b) := by
  induction h generalizing a b with
  | nil => simp
  | cons z h ih =>
    match a, b, hlen with
    | [], [], _ => simp [addRows]
    | x :: a, y :: b, hlen =>
      have := ih (Nat.succ.inj hlen)
      simp only [addRows] at this
      simp only [addRows, List.zipWith_cons_cons, dot_cons, this, Bool.and_xor_distrib_left, Bool.xor_assoc,
        Bool.xor_left_comm]

/-- Selecting a row or not selects its product. -/
theorem dot_map_and (h row : List Bool) (b : Bool) : dot h (row.map (b && ·)) = (b && dot h row) := by
  cases b with
  | false => simpa using dot_replicate_false h row.length
  | true => simp

/-! `m·G`, row by row and column by column (40_code_schemes.md R122). -/

@[simp] theorem rowTimes_nil_left (n : Nat) (g : List (List Bool)) : rowTimes n [] g = List.replicate n false := rfl

@[simp] theorem rowTimes_nil_right (n : Nat) (m : List Bool) : rowTimes n m [] = List.replicate n false := by
  cases m <;> rfl

@[simp] theorem rowTimes_cons (n : Nat) (b : Bool) (m row : List Bool) (g : List (List Bool)) :
    rowTimes n (b :: m) (row :: g) = addRows (row.map (b && ·)) (rowTimes n m g) := rfl

/-- A row orthogonal to every row of G is orthogonal to every `m·G`. -/
theorem dot_rowTimes_eq_false {n : Nat} {h : List Bool} {g : List (List Bool)} (hlen : ∀ row ∈ g, row.length = n)
    (horth : ∀ row ∈ g, dot h row = false) (m : List Bool) : dot h (rowTimes n m g) = false := by
  induction g generalizing m with
  | nil => simp [dot_replicate_false]
  | cons row g ih =>
    obtain ⟨hrow, hlen⟩ := List.forall_mem_cons.1 hlen
    obtain ⟨hdot, horth⟩ := List.forall_mem_cons.1 horth
    cases m with
    | nil => simp [dot_replicate_false]
    | cons b m =>
      rw [rowTimes_cons, dot_addRows h (by rw [List.length_map, hrow, length_rowTimes n m g hlen]), dot_map_and, hdot,
        ih hlen horth]
      simp

/-- Column j of a matrix. -/
def column (j : Nat) (g : List (List Bool)) : List Bool := g.map fun row => row.getD j false

/-- Bit j of `m·G` is the product of m and column j of G. -/
theorem getElem?_rowTimes {n j : Nat} {g : List (List Bool)} (hlen : ∀ row ∈ g, row.length = n) (hj : j < n)
    (m : List Bool) : (rowTimes n m g)[j]? = some (dot m (column j g)) := by
  induction g generalizing m with
  | nil => simp [column, hj]
  | cons row g ih =>
    obtain ⟨hrow, hlen⟩ := List.forall_mem_cons.1 hlen
    cases m with
    | nil => simp [hj]
    | cons b m =>
      have hbit : (row.map (b && ·))[j]? = some (b && row.getD j false) := by simp [hrow, hj]
      rw [rowTimes_cons, addRows, List.getElem?_zipWith, hbit, ih hlen]
      rfl

/-- The row of length k with its one 1 at position i. -/
def unitRow (k i : Nat) : List Bool := (List.replicate k false).set i true

/-- The product with a unit row picks a bit. -/
theorem dot_unitRow {m : List Bool} {i : Nat} (hi : i < m.length) : some (dot m (unitRow m.length i)) = m[i]? := by
  induction m generalizing i with
  | nil => simp at hi
  | cons b m ih =>
    cases i with
    | zero => simp [unitRow, List.replicate_succ, dot_replicate_false]
    | succ i =>
      rw [List.getElem?_cons_succ, ← ih (by simpa using hi)]
      simp [unitRow, List.replicate_succ]

/-! The matrices of the schemes. -/

theorem length_of_mem_generator (sc : Scheme) : ∀ row ∈ generator sc, row.length = codewordLength sc := by
  cases sc <;> decide

/-- The rows of G and H, by the tables of R123 to R128. -/
theorem generator_parityCheck_orthogonal (sc : Scheme) :
    ∀ g ∈ generator sc, ∀ h ∈ parityCheck sc, (List.zipWith and g h).count true % 2 = 0 := by
  cases sc <;> decide

theorem length_parityCheck (sc : Scheme) : (parityCheck sc).length = codewordLength sc - messageLength sc := by
  cases sc <;> rfl

/-- Settles O14: the uncoded scheme, whose H has no row, needs no exception. -/
theorem generatorRowsAreOrthogonalToParityRows : Obligations.GeneratorRowsAreOrthogonalToParityRows :=
  fun sc _ => generator_parityCheck_orthogonal sc

/-- Settles O15: the columns are read off the tables. -/
theorem parityCheckColumnsAreDistinct : Obligations.ParityCheckColumnsAreDistinct :=
  ⟨by decide, by decide⟩

/-! Codewords. -/

/-- A block of one bit is repeated by the generator of one row of 1s (40_code_schemes.md R123, R124). -/
theorem rowTimes_ones (n : Nat) (b : Bool) : rowTimes n [b] [List.replicate n true] = List.replicate n b := by
  simp [addRows]

/-- Every encoder is the product with its generator. -/
theorem encBlock_eq_rowTimes (sc : Scheme) {m : List Bool} (hm : m.length = messageLength sc) :
    encBlock sc m = rowTimes (codewordLength sc) m (generator sc) := by
  cases sc with
  | uncoded => obtain ⟨b, rfl⟩ := List.length_eq_one_iff.1 hm; exact (rowTimes_ones 1 b).symm
  | repetition3 => obtain ⟨b, rfl⟩ := List.length_eq_one_iff.1 hm; exact (rowTimes_ones 3 b).symm
  | repetition5 => obtain ⟨b, rfl⟩ := List.length_eq_one_iff.1 hm; exact (rowTimes_ones 5 b).symm
  | hamming74 => rfl
  | hamming1511 => rfl

/-- Each parity check of a codeword is 0, by the orthogonality of the rows. -/
theorem syndrome_encBlock (sc : Scheme) {m : List Bool} (hm : m.length = messageLength sc) :
    syndrome (parityCheck sc) (encBlock sc m) = List.replicate (codewordLength sc - messageLength sc) false := by
  refine List.eq_replicate_iff.2 ⟨by rw [syndrome, List.length_map, length_parityCheck], fun b hb => ?_⟩
  obtain ⟨h, hh, rfl⟩ := List.mem_map.1 hb
  rw [encBlock_eq_rowTimes sc hm]
  refine dot_rowTimes_eq_false (length_of_mem_generator sc) (fun g hg => ?_) m
  rw [dot_comm, dot, xorAll_eq_false_iff]
  exact generator_parityCheck_orthogonal sc g hg h hh

/-- Settles O13: every encoder multiplies by G, whose rows are orthogonal to those of H. -/
theorem codewordsHaveZeroSyndrome : Obligations.CodewordsHaveZeroSyndrome :=
  fun sc _ hm => ⟨encBlock_eq_rowTimes sc hm, syndrome_encBlock sc hm⟩

/-! Where the message sits, and the decoder on an error-free block (40_code_schemes.md R130). -/

/-- A unit column of G copies its message bit into the codeword. -/
theorem getElem?_encBlock_of_unit_column {sc : Scheme} {m : List Bool} (hm : m.length = messageLength sc) {i j : Nat}
    (hj : j < codewordLength sc) (hi : i < messageLength sc)
    (hcol : column j (generator sc) = unitRow (messageLength sc) i) : (encBlock sc m)[j]? = m[i]? := by
  rw [encBlock_eq_rowTimes sc hm, getElem?_rowTimes (length_of_mem_generator sc) hj, hcol, ← hm,
    dot_unitRow (by rwa [hm])]

theorem getElem?_encBlock_repetition3 {m : List Bool} (hm : m.length = messageLength .repetition3) {j : Nat} (hj : j < 3) :
    (encBlock .repetition3 m)[j]? = m[0]? :=
  getElem?_encBlock_of_unit_column hm hj (by decide) ((by decide : ∀ j < 3, column j _ = unitRow 1 0) j hj)

theorem getElem?_encBlock_repetition5 {m : List Bool} (hm : m.length = messageLength .repetition5) {j : Nat} (hj : j < 5) :
    (encBlock .repetition5 m)[j]? = m[0]? :=
  getElem?_encBlock_of_unit_column hm hj (by decide) ((by decide : ∀ j < 5, column j _ = unitRow 1 0) j hj)

theorem hamming74_position_lt : ∀ j < 4, [2, 4, 5, 6].getD j 0 < codewordLength .hamming74 := by decide

theorem getElem?_encBlock_hamming74 {m : List Bool} (hm : m.length = messageLength .hamming74) {j : Nat} (hj : j < 4) :
    (encBlock .hamming74 m)[[2, 4, 5, 6].getD j 0]? = m[j]? :=
  getElem?_encBlock_of_unit_column hm (hamming74_position_lt j hj) hj
    ((by decide : ∀ j < 4, column ([2, 4, 5, 6].getD j 0) g7 = unitRow 4 j) j hj)

theorem getElem?_encBlock_hamming1511 {m : List Bool} (hm : m.length = messageLength .hamming1511) {j : Nat} (hj : j < 11) :
    (encBlock .hamming1511 m)[4 + j]? = m[j]? :=
  getElem?_encBlock_of_unit_column hm (Nat.add_lt_add_left hj 4) hj
    ((by decide : ∀ j < 11, column (4 + j) g15 = unitRow 11 j) j hj)

/-- A block of equal bits has that bit as its majority (42_decode.md R173). -/
theorem majority_replicate {r : Nat} (hr : 0 < r) (b : Bool) : majority r (List.replicate r b) = b := by
  cases b <;> simp [majority, List.count_replicate]
  omega

/-- The Hamming(7,4) corrector flips nothing in a codeword (42_decode.md R174). -/
theorem correct7_encBlock {m : List Bool} (hm : m.length = messageLength .hamming74) :
    correct7 (encBlock .hamming74 m) = encBlock .hamming74 m := by
  have hv : bitsValue (syndrome h7 (encBlock .hamming74 m)) = 0 := congrArg bitsValue (syndrome_encBlock .hamming74 hm)
  simp only [correct7, hv, if_true]

/-- Every decoder inverts its encoder on error-free blocks. -/
theorem decBlock_encBlock (sc : Scheme) {m : List Bool} (hm : m.length = messageLength sc) :
    decBlock sc (encBlock sc m) = m := by
  have hlen : (decBlock sc (encBlock sc m)).length = m.length := by rw [length_decBlock sc (length_encBlock sc hm), hm]
  cases sc with
  | uncoded => rfl
  | repetition3 =>
    obtain ⟨b, rfl⟩ := List.length_eq_one_iff.1 hm
    exact congrArg (fun x => [x]) (majority_replicate (r := 3) (by decide) b)
  | repetition5 =>
    obtain ⟨b, rfl⟩ := List.length_eq_one_iff.1 hm
    exact congrArg (fun x => [x]) (majority_replicate (r := 5) (by decide) b)
  | hamming74 =>
    refine List.ext_getElem hlen fun j hj hjm => Option.some.inj ?_
    have hj4 : j < 4 := hjm.trans_eq hm
    have hp : [2, 4, 5, 6].getD j 0 < (encBlock .hamming74 m).length :=
      (hamming74_position_lt j hj4).trans_eq (length_encBlock .hamming74 hm).symm
    rw [← List.getElem?_eq_getElem hjm, ← getElem?_encBlock_hamming74 hm hj4, List.getElem?_eq_getElem hp,
      ← List.getD_eq_getElem _ false hp, List.getD_eq_getElem _ 0 hj4]
    simp only [decBlock, correct7_encBlock hm, List.getElem_map]
  | hamming1511 =>
    refine List.ext_getElem hlen fun j hj hjm => Option.some.inj ?_
    rw [← List.getElem?_eq_getElem, ← List.getElem?_eq_getElem, decBlock, List.getElem?_drop]
    exact getElem?_encBlock_hamming1511 hm (hjm.trans_eq hm)

/-- Settles O17: the positions are those of the unit columns of G. -/
theorem blockRoundTripAndPositions : Obligations.BlockRoundTripAndPositions := by
  refine fun sc m hm => ⟨decBlock_encBlock sc hm, ?_⟩
  cases sc with
  | uncoded => rfl
  | repetition3 => exact fun _ => getElem?_encBlock_repetition3 hm
  | repetition5 => exact fun _ => getElem?_encBlock_repetition5 hm
  | hamming74 => exact fun _ => getElem?_encBlock_hamming74 hm
  | hamming1511 => exact fun _ => getElem?_encBlock_hamming1511 hm

end Sys2Proof.Machine
end

section
/-! PROOFS. The tabulated rates are the correctly rounded quotients k/n (40_code_schemes.md R120). -/

namespace Sys2Proof.Machine

/-- A pattern whose significand is a natural number scaled up to its exponent has that number as its value. -/
theorem valueOf_eq_natCast {x : F64} {n : Nat} (hneg : isNeg x = false) (he : expo x ≤ 0)
    (hsig : sig x = n * 2 ^ (-expo x).toNat) : valueOf x = n := by
  have hpow : (2 : ℚ) ^ (-expo x).toNat * (2 : ℚ) ^ expo x = 1 := by
    rw [← zpow_natCast, ← zpow_add₀ (by norm_num : (2 : ℚ) ≠ 0)]
    simp [he]
  rw [valueOf_eq, hneg, hsig]
  push_cast
  rw [mul_assoc, hpow]
  simp

/-- The parameters of the schemes have exact patterns. -/
theorem valueOf_natToF64_of_lt {n : Nat} (h0 : 0 < n) (h : n < 16) : valueOf (natToF64 n) = n := by
  obtain ⟨hneg, he, hsig⟩ := (by decide : ∀ n < 16, 0 < n → isNeg (natToF64 n) = false ∧ expo (natToF64 n) ≤ 0 ∧
    sig (natToF64 n) = n * 2 ^ (-expo (natToF64 n)).toNat) n h h0
  exact valueOf_eq_natCast hneg he hsig

/-- The tabulated rate is what the machine's division gives. -/
theorem rateF_eq_fdiv (sc : Scheme) :
    rateF sc = fdiv (natToF64 (messageLength sc)) (natToF64 (codewordLength sc)) := by
  cases sc <;> decide

theorem codewordLength_lt (sc : Scheme) : codewordLength sc < 16 := by cases sc <;> decide

/-- Settles O40: the rate is the quotient of the two exact patterns, and division is correctly rounded. -/
theorem rateIsTheRoundedQuotient : Obligations.RateIsTheRoundedQuotient := by
  intro sc
  have hk := valueOf_natToF64_of_lt (messageLength_pos sc) ((messageLength_le sc).trans_lt (codewordLength_lt sc))
  have hn := valueOf_natToF64_of_lt (codewordLength_pos sc) (codewordLength_lt sc)
  obtain ⟨hneg, hfin⟩ : isNeg (rateF sc) = false ∧ mag (rateF sc) < infMag := by cases sc <;> decide
  obtain ⟨r, hr, hdiv⟩ := divisionIsCorrectlyRounded (natToF64 (messageLength sc)) (natToF64 (codewordLength sc))
    (by cases sc <;> decide) (by cases sc <;> decide) (by cases sc <;> decide)
  have hmag : mag (rateF sc) = min r infMag := by
    rw [rateF_eq_fdiv, hdiv, mag_ofMag _ ((min_le_right _ _).trans_lt (by norm_num))]
  rw [hk, hn, abs_of_nonneg (by positivity)] at hr
  push_cast at hr
  exact ⟨hneg, by rwa [show mag (rateF sc) = r by omega]⟩

end Sys2Proof.Machine
end

section
/-! PROOFS. The encoder on one block (41_encode.md R152 to R157): a codeword is the sum of the rows of G that the message
selects, and each of its bits is the product of the message with a column of G, so it is linear in the message. -/

namespace Sys2Proof.Machine

/-! `m·G` by its bits (40_code_schemes.md R122). -/

/-- A row is `m·G` when each of its bits is the product of m with that column of G. -/
theorem eq_rowTimes_of_columns {n : Nat} {g : List (List Bool)} (hlen : ∀ row ∈ g, row.length = n) {m v : List Bool}
    (hv : v.length = n) (hbit : ∀ j < n, v[j]? = some (dot m (column j g))) : v = rowTimes n m g := by
  refine List.ext_getElem? fun j => ?_
  by_cases hj : j < n
  · rw [hbit j hj, getElem?_rowTimes hlen hj]
  · rw [List.getElem?_eq_none (by omega), List.getElem?_eq_none (by rw [length_rowTimes n m g hlen]; omega)]

/-- `m·G` is linear in m: each of its bits is. -/
theorem rowTimes_addRows {n : Nat} {g : List (List Bool)} (hlen : ∀ row ∈ g, row.length = n) {m m' : List Bool}
    (hm : m.length = m'.length) :
    rowTimes n (addRows m m') g = addRows (rowTimes n m g) (rowTimes n m' g) := by
  refine (eq_rowTimes_of_columns hlen ?_ fun j hj => ?_).symm
  · rw [length_addRows, length_rowTimes n m g hlen, length_rowTimes n m' g hlen, Nat.min_self]
  · rw [dot_comm, dot_addRows _ hm, dot_comm _ m, dot_comm _ m', addRows, List.getElem?_zipWith,
      getElem?_rowTimes hlen hj, getElem?_rowTimes hlen hj]

/-- `0·G` is 0. -/
theorem rowTimes_replicate_false {n : Nat} {g : List (List Bool)} (hlen : ∀ row ∈ g, row.length = n) (k : Nat) :
    rowTimes n (List.replicate k false) g = List.replicate n false :=
  (eq_rowTimes_of_columns hlen List.length_replicate fun j hj => by
    rw [dot_comm, dot_replicate_false, List.getElem?_replicate_of_lt hj]).symm

/-- Settles O16: every encoder is `m·G`, which is linear in m. -/
theorem blockEncoderIsLinear : Obligations.BlockEncoderIsLinear := by
  intro sc m m' hm hm'
  have hrows := length_of_mem_generator sc
  have hsum : (addRows m m').length = messageLength sc := by rw [length_addRows, hm, hm', Nat.min_self]
  constructor
  · calc encBlock sc (addRows m m')
        = rowTimes (codewordLength sc) (addRows m m') (generator sc) := encBlock_eq_rowTimes sc hsum
      _ = addRows (rowTimes (codewordLength sc) m (generator sc)) (rowTimes (codewordLength sc) m' (generator sc)) :=
        rowTimes_addRows hrows (hm.trans hm'.symm)
      _ = addRows (encBlock sc m) (encBlock sc m') := by rw [encBlock_eq_rowTimes sc hm, encBlock_eq_rowTimes sc hm']
  · rw [encBlock_eq_rowTimes sc List.length_replicate, rowTimes_replicate_false hrows]

/-! The formulas of the codeword bits. -/

/-- Settles O12: a repetition code repeats the bit, and a Hamming codeword is the sum of the rows of G7 or G15 that the
message selects. -/
theorem codewordsAreTheFormulas : Obligations.CodewordsAreTheFormulas := by
  refine ⟨fun _ => rfl, fun _ => rfl, fun _ => rfl, fun m0 m1 m2 m3 => ?_, fun m0 m1 m2 m3 m4 m5 m6 m7 m8 m9 m10 => ?_⟩
  · simp only [encBlock, g7, rowTimes_cons, rowTimes_nil_left]
    simp [bitRow, addRows]
  · simp only [encBlock, g15, rowTimes_cons, rowTimes_nil_left]
    simp [bitRow, addRows]

end Sys2Proof.Machine
end

section
/-! PROOFS. What the commands that write a bit buffer leave unchanged, and what ENCODE writes (41_encode.md R150, R151;
42_decode.md R170; 44_slicer.md R230; 10_state.md R34). -/

namespace Sys2Proof.Machine

/-! The frame of a command that writes the bit buffer `dst`. -/

/-- Between the two states only `dst`, up to its new length, and the flags may differ. -/
def bitWriteFrame (dst : BufIdx) (s t : State) : Prop :=
  (∀ j, j ≠ dst → t.buf j = s.buf j) ∧ t.samples = s.samples ∧
    (∀ n, (t.buf dst).len ≤ n → t.bit dst n = s.bit dst n) ∧ sameHostSide s t ∧ sameDraws s t

/-- A raised error changes the flags only (60_exceptions.md R243). -/
theorem bitWriteFrame_withStatus (dst : BufIdx) (s : State) (e : LastErr) (b : Bool) :
    bitWriteFrame dst s { s with lastErr := e, errSticky := b } := by
  simp [bitWriteFrame, sameHostSide, sameDraws]

/-- A success stores a sequence in `dst` and clears LAST_ERR (10_state.md R34). -/
theorem bitWriteFrame_storeBits (s : State) (dst : BufIdx) (out : List Bool) :
    bitWriteFrame dst s { s.storeBits dst out with lastErr := .none } := by
  refine ⟨fun j hj => ?_, by simp, fun n hn => ?_, by simp [sameHostSide], by simp [sameDraws]⟩
  · rw [State.buf_withLastErr, State.buf_storeBits_other s out hj]
  · have hbeyond : out.length ≤ n := by simpa using hn
    rw [State.bit_mk, State.bit_storeBits, if_neg (by omega)]

/-- Settles O25: each of the three ends in an error or in a store to its destination. -/
theorem bitWritingCommandsFrame : Obligations.BitWritingCommandsFrame := by
  rintro i dst s t (⟨code, src, rfl⟩ | ⟨code, src, rfl⟩ | rfl) h
  · rcases execEncode_next h with ⟨_, rfl⟩ | ⟨_, _, rfl⟩ | ⟨_, _, m, _, rfl⟩
    · exact bitWriteFrame_withStatus dst s _ _
    · exact bitWriteFrame_withStatus dst s _ _
    · exact bitWriteFrame_storeBits s dst _
  · rcases execDecode_next h with ⟨_, rfl⟩ | ⟨_, r, _, rfl⟩
    · exact bitWriteFrame_withStatus dst s _ _
    · exact bitWriteFrame_storeBits s dst _
  · obtain ⟨ys, _, rfl⟩ := execSlice_next h
    exact bitWriteFrame_storeBits s dst _

/-! ENCODE. -/

/-- A written source can be read (00_scope.md R11). -/
theorem State.exists_sourceBits {s : State} {k : BufIdx} (h : s.bitsWritten k) : ∃ m, s.sourceBits k = some m := by
  refine Option.ne_none_iff_exists'.1 fun hnone => ?_
  obtain ⟨i, hi, hunwritten⟩ := (State.sourceBits_eq_none_iff s k).1 hnone
  exact h i hi hunwritten

/-- Position j of block b lies inside N blocks. -/
theorem block_position_lt {b N j n : Nat} (hb : b < N) (hj : j < n) : b * n + j < N * n :=
  calc b * n + j < b * n + n := Nat.add_lt_add_left hj _
    _ = (b + 1) * n := (Nat.succ_mul b n).symm
    _ ≤ N * n := Nat.mul_le_mul_right n hb

/-- Settles O22: the source is read whole, and its codewords are stored. -/
theorem encodeWritesTheCodewords : Obligations.EncodeWritesTheCodewords := by
  intro code src dst s k n len hwritten hshape hcap
  obtain ⟨m, hm⟩ := State.exists_sourceBits hwritten
  obtain ⟨hlen, hbits⟩ := (State.sourceBits_eq_some_iff s src m).1 hm
  have hout : (encodeBits (resolveCode code) m).length = len / k * n := by rw [length_encodeBits, hlen]
  obtain ⟨hothers, hsamples, hbeyond, hhost, hdraws⟩ :=
    bitWriteFrame_storeBits s dst (encodeBits (resolveCode code) m)
  have hnewLen : (({ s.storeBits dst (encodeBits (resolveCode code) m) with lastErr := .none } : State).buf dst).len =
      len / k * n := by rw [State.buf_withLastErr, State.buf_storeBits_same, hout]
  refine ⟨_, m, execEncode_of_source hshape hcap hm, hlen, hbits, hnewLen, fun b hb j hj => ?_,
    fun i hi => hbeyond i (hnewLen.trans_le hi), hothers, hsamples, rfl, State.storeBits_errSticky s dst _, hhost, hdraws⟩
  rw [State.bit_mk, State.bit_storeBits, if_pos ⟨rfl, (block_position_lt hb hj).trans_eq hout.symm⟩]
  exact getElem?_encodeBits _ m (hb.trans_eq (by rw [hlen])) hj

end Sys2Proof.Machine
end

section
/-! PROOFS. The decoders of the coded schemes on one block with errors (42_decode.md R173 to R176): the majority vote, the
syndrome that names the flipped position of a Hamming(7,4) codeword, and the Hamming(15,11) decoder, which only drops the
parity bits. -/

namespace Sys2Proof.Machine

/-! Repetition (42_decode.md R173). -/

/-- The sum of a block's bits is the number of its 1s. -/
theorem sum_map_toNat_eq_count (c : List Bool) : (c.map Bool.toNat).sum = c.count true := by
  induction c with
  | nil => rfl
  | cons b c ih => cases b <;> simp [ih, Nat.add_comm]

/-- The bits that differ from `b` are the bits that equal its negation. -/
theorem countP_bne_eq_count_not (c : List Bool) (b : Bool) : c.countP (fun x => x != b) = c.count (!b) := by
  rw [List.count_eq_countP]
  exact List.countP_congr fun x _ => by cases x <;> cases b <;> decide

/-- Fewer than half the bits of a block do not change its majority. -/
theorem majority_eq_of_few_flips {r : Nat} {c : List Bool} (hr : 0 < r) (hc : c.length = r) {b : Bool}
    (h : c.countP (fun x => x != b) ≤ (r - 1) / 2) : majority r c = b := by
  have htotal := List.count_not_add_count c b
  rw [countP_bne_eq_count_not] at h
  cases b with
  | false => exact decide_eq_false (by rw [Bool.not_false] at h; omega)
  | true => exact decide_eq_true (by omega)

/-- The repetition decoders output the majority alone. -/
theorem decBlock_repetition {sc : Scheme} {r : Nat} (h : (sc = .repetition3 ∧ r = 3) ∨ (sc = .repetition5 ∧ r = 5))
    (c : List Bool) : decBlock sc c = [majority r c] := by
  obtain ⟨rfl, rfl⟩ | ⟨rfl, rfl⟩ := h <;> rfl

/-- Settles O18: the output is the majority, which counts the 1s and survives flips of fewer than half the bits. -/
theorem repetitionDecodesByMajority : Obligations.RepetitionDecodesByMajority := by
  intro sc r c hsc hc
  have hr : 0 < r := by omega
  rw [decBlock_repetition hsc, sum_map_toNat_eq_count]
  refine ⟨?_, ?_, fun b hb => by rw [majority_eq_of_few_flips hr hc hb]⟩
  · simp [majority]
  · simp [majority]

/-! Hamming(7,4): the syndrome (42_decode.md R174). -/

/-- A flip of bit i changes the product with a row that has a 1 there. -/
theorem dot_modify_not (row : List Bool) {c : List Bool} {i : Nat} (hi : i < c.length) :
    dot row (c.modify i not) = xor (row.getD i false) (dot row c) := by
  induction c generalizing row i with
  | nil => exact absurd hi (Nat.not_lt_zero i)
  | cons y c ih =>
    cases row with
    | nil => simp
    | cons x row =>
      cases i with
      | zero => cases x <;> simp
      | succ i =>
        rw [List.modify_succ_cons, dot_cons, dot_cons, ih row (Nat.lt_of_succ_lt_succ hi), List.getD_cons_succ,
          Bool.xor_left_comm]

/-- Every parity of a codeword is 0. -/
theorem dot_encBlock_eq_false (sc : Scheme) {m row : List Bool} (hm : m.length = messageLength sc)
    (hrow : row ∈ parityCheck sc) : dot row (encBlock sc m) = false :=
  (List.eq_replicate_iff.1 (syndrome_encBlock sc hm)).2 _ (List.mem_map_of_mem hrow)

/-- A codeword has, after a flip of bit i, column i of H as its syndrome. -/
theorem syndrome_encBlock_modify_not (sc : Scheme) {m : List Bool} (hm : m.length = messageLength sc) {i : Nat}
    (hi : i < codewordLength sc) :
    syndrome (parityCheck sc) ((encBlock sc m).modify i not) = column i (parityCheck sc) := by
  refine List.map_congr_left fun row hrow => ?_
  rw [dot_modify_not row (hi.trans_eq (length_encBlock sc hm).symm), dot_encBlock_eq_false sc hm hrow, Bool.xor_false]

/-! Hamming(7,4): the correction. -/

/-- The corrected block differs from the received one exactly in the position the syndrome names, if it names one. -/
theorem getD_correct7 {c : List Bool} {j : Nat} (hj : j < c.length) :
    (correct7 c).getD j false = xor (c.getD j false) (decide (bitsValue (syndrome h7 c) = j + 1)) := by
  unfold correct7
  cases bitsValue (syndrome h7 c) with
  | zero => simp
  | succ i =>
    by_cases hij : i = j
    · subst hij
      simp [hj]
    · simp [List.getElem?_modify_ne, hij]

/-- The syndrome is the three parity sums of R174. -/
theorem syndrome_h7 (c0 c1 c2 c3 c4 c5 c6 : Bool) :
    syndrome h7 [c0, c1, c2, c3, c4, c5, c6] =
      [xor (xor c3 c4) (xor c5 c6), xor (xor c1 c2) (xor c5 c6), xor (xor c0 c2) (xor c4 c6)] := by
  simp [syndrome, h7, bitRow]

/-- Three bits read as a numeral. -/
theorem bitsValue_three (a b c : Bool) : bitsValue [a, b, c] = 4 * a.toNat + 2 * b.toNat + c.toNat := by
  simp only [bitsValue, List.foldl_cons, List.foldl_nil]
  omega

/-- Settles O19: the syndrome value is three binary digits, and each extracted bit is flipped when it names its position. -/
theorem hamming74DecoderFlipsTheSyndromePosition : Obligations.Hamming74DecoderFlipsTheSyndromePosition := by
  intro c0 c1 c2 c3 c4 c5 c6 s0 s1 s2 v
  have hv : bitsValue (syndrome h7 [c0, c1, c2, c3, c4, c5, c6]) = v := by
    rw [syndrome_h7, bitsValue_three]
  refine ⟨?_, ?_⟩
  · have h0 := s0.toNat_le
    have h1 := s1.toNat_le
    have h2 := s2.toNat_le
    omega
  · simp only [decBlock, List.map_cons, List.map_nil, ← hv]
    rw [getD_correct7 (by simp), getD_correct7 (by simp), getD_correct7 (by simp), getD_correct7 (by simp)]
    rfl

/-- A single flip of a codeword is corrected: the syndrome names it (40_code_schemes.md R125). -/
theorem correct7_encBlock_modify_not {m : List Bool} (hm : m.length = messageLength .hamming74) {i : Nat} (hi : i < 7) :
    correct7 ((encBlock .hamming74 m).modify i not) = encBlock .hamming74 m := by
  have hv : bitsValue (syndrome h7 ((encBlock .hamming74 m).modify i not)) = i + 1 :=
    (congrArg bitsValue (syndrome_encBlock_modify_not .hamming74 hm hi)).trans (parityCheckColumnsAreDistinct.1 i hi)
  simp only [correct7, hv, Nat.add_one_ne_zero, if_false, Nat.add_sub_cancel, List.modify_modify_eq]
  rw [show not ∘ not = id from funext Bool.not_not, List.modify_id]

/-- Settles O20: the corrected block is the codeword, whose decoding gives the message. -/
theorem hamming74CorrectsEverySingleFlip : Obligations.Hamming74CorrectsEverySingleFlip := by
  intro m i hm hi
  calc decBlock .hamming74 ((encBlock .hamming74 m).modify i not)
      = decBlock .hamming74 (encBlock .hamming74 m) := by
        simp only [decBlock, correct7_encBlock_modify_not hm hi, correct7_encBlock hm]
    _ = m := decBlock_encBlock .hamming74 hm

/-! Hamming(15,11) (42_decode.md R175). -/

theorem decBlock_hamming1511 (r : List Bool) : decBlock .hamming1511 r = r.drop 4 := rfl

/-- Settles O21: dropping the parity bits loses a flip among them and shifts any other by 4. -/
theorem hamming1511DecoderCorrectsNothing : Obligations.Hamming1511DecoderCorrectsNothing := by
  intro r hr
  simp only [decBlock_hamming1511]
  refine ⟨by rw [List.length_drop, hr], fun i _ => List.getElem?_drop, fun j hj => List.drop_modify_of_lt not j 4 r hj,
    fun i _ => ?_⟩
  rw [List.drop_modify_of_ge not (4 + i) 4 r (Nat.le_add_right 4 i), Nat.add_sub_cancel_left]

end Sys2Proof.Machine
end

section
/-! PROOFS. What DECODE writes, and that it undoes ENCODE (42_decode.md R170, R171, R176; 10_state.md R34). -/

namespace Sys2Proof.Machine

/-! The destination after a success. -/

/-- The destination takes the length of the stored sequence (10_state.md R34). -/
theorem State.len_stored (s : State) (dst : BufIdx) (out : List Bool) :
    (({ s.storeBits dst out with lastErr := .none } : State).buf dst).len = out.length := by
  rw [State.buf_withLastErr, State.buf_storeBits_same]

/-- The destination takes the bits of the stored sequence. -/
theorem State.bit_stored (s : State) (dst : BufIdx) {out : List Bool} {i : Nat} (hi : i < out.length) :
    ({ s.storeBits dst out with lastErr := .none } : State).bit dst i = out[i]? := by
  rw [State.bit_mk, State.bit_storeBits, if_pos ⟨rfl, hi⟩]

/-- A command that reads the destination next reads the stored sequence. -/
theorem State.sourceBits_stored (s : State) (dst : BufIdx) (out : List Bool) :
    ({ s.storeBits dst out with lastErr := .none } : State).sourceBits dst = some out :=
  (State.sourceBits_eq_some_iff _ dst out).2
    ⟨(State.len_stored s dst out).symm, fun _ hi => State.bit_stored s dst (hi.trans_eq (State.len_stored s dst out))⟩

/-! DECODE. -/

/-- Settles O23: the source is read whole, and its decoded messages are stored. -/
theorem decodeWritesTheMessages : Obligations.DecodeWritesTheMessages := by
  intro code src dst s k n len hwritten hshape
  obtain ⟨r, hr⟩ := State.exists_sourceBits hwritten
  obtain ⟨hlen, hbits⟩ := (State.sourceBits_eq_some_iff s src r).1 hr
  have hout : (decodeBits (resolveCode code) r).length = len / n * k := by rw [length_decodeBits, hlen]
  have hnewLen := (State.len_stored s dst (decodeBits (resolveCode code) r)).trans hout
  obtain ⟨hothers, hsamples, hbeyond, hhost, hdraws⟩ :=
    bitWriteFrame_storeBits s dst (decodeBits (resolveCode code) r)
  refine ⟨_, r, execDecode_of_source hshape hr, hlen, hbits, hnewLen, fun b hb j hj => ?_,
    fun i hi => hbeyond i (hnewLen.trans_le hi), hothers, hsamples, rfl, State.storeBits_errSticky s dst _, hhost, hdraws⟩
  rw [State.bit_stored s dst ((block_position_lt hb hj).trans_eq hout.symm)]
  exact getElem?_decodeBits _ r (hb.trans_eq (by rw [hlen])) hj

/-! ENCODE then DECODE. -/

/-- Decoding the codewords of a message of whole blocks gives the message, block by block (42_decode.md R176). -/
theorem decodeBits_encodeBits (sc : Scheme) {m : List Bool} (hm : m.length % messageLength sc = 0) :
    decodeBits sc (encodeBits sc m) = m := by
  have hblocks : (encodeBits sc m).length / codewordLength sc = m.length / messageLength sc := by
    rw [length_encodeBits, Nat.mul_div_cancel _ (codewordLength_pos sc)]
  have hblock : ∀ b < m.length / messageLength sc,
      decBlock sc (blockAt (codewordLength sc) b (encodeBits sc m)) = blockAt (messageLength sc) b m := fun b hb => by
    rw [encodeBits, blockAt_flatMap_range _ _ _ (fun _ hb => length_encBlock sc (length_blockAt hb)) hb,
      decBlock_encBlock sc (length_blockAt hb)]
  calc decodeBits sc (encodeBits sc m)
      = (List.range (m.length / messageLength sc)).flatMap fun b => blockAt (messageLength sc) b m := by
        rw [decodeBits, hblocks]
        exact List.flatMap_congr fun b hb => hblock b (List.mem_range.1 hb)
    _ = m := flatMap_blockAt (messageLength_pos sc) hm

/-- Settles O24: DECODE reads the codewords that ENCODE stored, and decoding them gives the message back. -/
theorem encodeThenDecodeRestoresTheMessage : Obligations.EncodeThenDecodeRestoresTheMessage := by
  intro code a b c s hwritten hshape hcap
  obtain ⟨m, hm⟩ := State.exists_sourceBits hwritten
  obtain ⟨hlen, hbits⟩ := (State.sourceBits_eq_some_iff s a m).1 hm
  have hshape' : (({ s.storeBits b (encodeBits (resolveCode code) m) with lastErr := .none } : State).buf b).len %
      codewordLength (resolveCode code) = 0 := by
    rw [State.len_stored, length_encodeBits, Nat.mul_mod_left]
  have hdecode := execDecode_of_source (dst := c) hshape' (State.sourceBits_stored s b _)
  rw [decodeBits_encodeBits _ (by rw [hlen, hshape])] at hdecode
  refine ⟨_, _, execEncode_of_source hshape hcap hm, hdecode, rfl, (State.len_stored _ c m).trans hlen, fun i hi => ?_⟩
  rw [State.bit_stored _ c (hi.trans_eq hlen.symm), hbits i hi]

end Sys2Proof.Machine
end

section
/-! PROOFS. What MODULATE and CHANNEL leave in S and beside it, and that CHANNEL is reproducible up to the pattern of a NaN
(43_channel.md R200, R206 to R209, R211). -/

namespace Sys2Proof.Machine

/-! The frame of a command that writes S. -/

/-- Between the two states only S below its new length, the draws and LAST_ERR, now 0, may differ. -/
def sampleWriteFrame (s t : State) : Prop :=
  (∀ i, t.samples.len ≤ i → t.sample i = s.sample i) ∧ (∀ j, t.buf j = s.buf j) ∧ t.lastErr = .none ∧
    t.errSticky = s.errSticky ∧ sameHostSide s t

/-- A success that stores a sequence in S keeps the samples beyond it and all else but the draws (10_state.md R34). -/
theorem sampleWriteFrame_storeSamples (s : State) (out : List F64) (r n : Nat) :
    sampleWriteFrame s { s.storeSamples out with rng := r, nanCount := n, lastErr := .none } := by
  refine ⟨fun i hi => ?_, by simp, rfl, rfl, by simp [sameHostSide]⟩
  have hbeyond : out.length ≤ i := hi
  rw [State.sample_mk, State.sample_storeSamples, if_neg (by omega)]

/-- S takes the samples of the stored sequence. -/
theorem State.sample_stored (s : State) {out : List F64} (r n : Nat) {i : Nat} (hi : i < out.length) :
    ({ s.storeSamples out with rng := r, nanCount := n, lastErr := .none } : State).sample i = out[i]? := by
  rw [State.sample_mk, State.sample_storeSamples, if_pos hi]

/-! MODULATE. -/

/-- MODULATE of a readable source succeeds (43_channel.md R200). -/
theorem execModulate_of_source {src : BufIdx} {s : State} {m : List Bool} (hm : s.sourceBits src = some m) :
    execModulate src s = .next { s.storeSamples (m.map bpsk) with lastErr := .none } := by
  simp only [execModulate, hm, succeed]

/-- Settles O27: the source is read whole, and its bits, mapped one by one, are stored. -/
theorem modulateWritesPlusMinusOne : Obligations.ModulateWritesPlusMinusOne := by
  intro src s hwritten
  obtain ⟨m, hm⟩ := State.exists_sourceBits hwritten
  obtain ⟨hlen, hbits⟩ := (State.sourceBits_eq_some_iff s src m).1 hm
  have hout : (m.map bpsk).length = (s.buf src).len := by rw [List.length_map, hlen]
  obtain ⟨hbeyond, hbufs, herr, hsticky, hhost⟩ := sampleWriteFrame_storeSamples s (m.map bpsk) s.rng s.nanCount
  have hsample : ∀ i < (s.buf src).len, ∀ b, s.bit src i = some b →
      ({ s.storeSamples (m.map bpsk) with lastErr := .none } : State).sample i = some (bpsk b) := fun i hi b hb => by
    refine (State.sample_stored s s.rng s.nanCount (hi.trans_eq hout.symm)).trans ?_
    rw [List.getElem?_map, ← hbits i hi, hb, Option.map_some]
  exact ⟨_, execModulate_of_source hm, hout, fun i hi => ⟨hsample i hi true, hsample i hi false⟩,
    fun i hi => hbeyond i (hout.trans_le hi), hbufs, herr, hsticky, hhost, rfl, rfl⟩

/-! CHANNEL. -/

/-- A written signal can be read (00_scope.md R11). -/
theorem State.exists_sourceSamples {s : State} (h : s.samplesWritten) : ∃ xs, s.sourceSamples = some xs := by
  refine Option.ne_none_iff_exists'.1 fun hnone => ?_
  obtain ⟨i, hi, hunwritten⟩ := (State.sourceSamples_eq_none_iff s).1 hnone
  exact h i hi hunwritten

/-- CHANNEL of a written signal completes (43_channel.md R206). -/
theorem exists_channelWith_next (p : Params) (chan : ChannelType) (sc : Scheme) {s : State} (h : s.samplesWritten) :
    ∃ t, channelWith p chan sc s = .next t := by
  obtain ⟨xs, hxs⟩ := State.exists_sourceSamples h
  exact ⟨_, by simp only [channelWith, hxs, succeed]; rfl⟩

/-- What CHANNEL leaves: every sample through the channel's formula, with the draws that follow those of the samples before,
up to the pattern of a NaN (43_channel.md R206, R209). -/
theorem channelWith_samples {p : Params} {chan : ChannelType} {sc : Scheme} {s t : State}
    (h : channelWith p chan sc s = .next t) :
    t.samples.len = s.samples.len ∧
      (∀ i < s.samples.len, ∃ x y, s.sample i = some x ∧ t.sample i = some y ∧
        sameSample y (channelSample p.noise chan (sigmaOf p.pow10 s.snrDb sc) x
          (rngAfter p.noise s.rng (drawsPerSample chan * i))).1) ∧
      t.rng = rngAfter p.noise s.rng (drawsPerSample chan * s.samples.len) ∧ sampleWriteFrame s t := by
  obtain ⟨xs, hxs, rfl⟩ := channelWith_next h
  obtain ⟨hlen, hsamples⟩ := (State.sourceSamples_eq_some_iff s xs).1 hxs
  have hout := (channelLoop_length p chan (sigmaOf p.pow10 s.snrDb sc) xs s.rng s.nanCount).trans hlen
  refine ⟨hout, fun i hi => ?_, ?_, sampleWriteFrame_storeSamples s _ _ _⟩
  · obtain ⟨x, hx⟩ : ∃ x, xs[i]? = some x := ⟨_, List.getElem?_eq_getElem (hi.trans_eq hlen.symm)⟩
    obtain ⟨y, hy, hsame⟩ := channelLoop_out p chan (sigmaOf p.pow10 s.snrDb sc) xs s.rng s.nanCount i hx
    exact ⟨x, y, (hsamples i hi).trans hx, (State.sample_stored s _ _ (hi.trans_eq hout.symm)).trans hy, hsame⟩
  · rw [← hlen]
    exact channelLoop_rng p chan _ xs s.rng s.nanCount

/-- The AWGN formula with its draw by number (43_channel.md R207, R209). -/
theorem awgnSample_eq (ns : NoiseSource) (sigma x : F64) (rng i : Nat) :
    (channelSample ns .awgn sigma x (rngAfter ns rng (drawsPerSample .awgn * i))).1 =
      fadd x (fmul sigma (drawNumber ns rng i)) := by
  rw [drawsPerSample, Nat.one_mul]
  rfl

/-- A draw moves on to the next one. -/
theorem draw_rngAfter (ns : NoiseSource) (rng n : Nat) :
    draw ns (rngAfter ns rng n) = (drawNumber ns rng n, rngAfter ns rng (n + 1)) := by
  rw [rngAfter_add]
  rfl

/-- The Rayleigh formula with its three draws by number (43_channel.md R208, R209). -/
theorem rayleighSample_eq (ns : NoiseSource) (sigma x : F64) (rng i : Nat) :
    (channelSample ns .rayleigh sigma x (rngAfter ns rng (drawsPerSample .rayleigh * i))).1 =
      fadd (fmul (fade (drawNumber ns rng (3 * i)) (drawNumber ns rng (3 * i + 1))) x)
        (fmul sigma (drawNumber ns rng (3 * i + 2))) := by
  simp only [channelSample, rayleighSample, drawsPerSample, draw_rngAfter]

/-- Settles O28: the channel's formula is R207's. -/
theorem channelAwgnAddsScaledDraws : Obligations.ChannelAwgnAddsScaledDraws := by
  intro chan code s hchan hwritten ns sigma
  obtain ⟨t, ht⟩ := exists_channelWith_next machineParams .awgn (resolveCode code) hwritten
  obtain ⟨hlen, hsamples, hrng, hbeyond, hframe⟩ := channelWith_samples ht
  simp only [awgnSample_eq] at hsamples
  rw [drawsPerSample, Nat.one_mul] at hrng
  exact ⟨t, by rw [exec, execChannel, hchan, ht], hlen, hsamples, fun i hi => hbeyond i (hlen.trans_le hi), hrng, hframe⟩

/-- Settles O29: the channel's formula is R208's. -/
theorem channelRayleighFadesAndAddsDraws : Obligations.ChannelRayleighFadesAndAddsDraws := by
  intro code s hwritten ns sigma
  obtain ⟨t, ht⟩ := exists_channelWith_next machineParams .rayleigh (resolveCode code) hwritten
  obtain ⟨hlen, hsamples, hrng, hbeyond, hframe⟩ := channelWith_samples ht
  simp only [rayleighSample_eq] at hsamples
  exact ⟨t, ht, hlen, hsamples, fun i hi => hbeyond i (hlen.trans_le hi), hrng, hframe⟩

theorem drawsPerSample_eq (chan : ChannelType) : (if chan = .rayleigh then 3 else 1) = drawsPerSample chan := by
  cases chan <;> rfl

/-- Settles O30: the loop's own lemmas, with "the same up to the pattern of a NaN" taken apart. -/
theorem channelStoresNumbersExactly : Obligations.ChannelStoresNumbersExactly := by
  intro p chan sigma xs rng count i x hx r d y
  have hd : d = drawsPerSample chan := drawsPerSample_eq chan
  obtain ⟨v, hv, hsame⟩ := channelLoop_out p chan sigma xs rng count i hx
  rw [← hd] at hsame
  refine ⟨channelLoop_length p chan sigma xs rng count, hd ▸ channelLoop_rng p chan sigma xs rng count, v, hv,
    fun hnumber => ?_, fun hnan => ?_⟩
  · rcases hsame with heq | ⟨_, hnan⟩
    · exact heq
    · exact absurd (hnumber.symm.trans hnan) Bool.false_ne_true
  · rcases hsame with rfl | ⟨hv, _⟩
    · exact hnan
    · exact hv

/-! Reproducibility: no result depends on which NaN an operand is (log 8). -/

theorem sameSample.symm {x y : F64} (h : sameSample x y) : sameSample y x := by
  rcases h with rfl | ⟨hx, hy⟩
  · exact .inl rfl
  · exact .inr ⟨hy, hx⟩

theorem sameSample.trans {x y z : F64} (hxy : sameSample x y) (hyz : sameSample y z) : sameSample x z := by
  rcases hxy with rfl | ⟨hx, hy⟩
  · exact hyz
  · rcases hyz with rfl | ⟨_, hz⟩
    · exact .inr ⟨hx, hy⟩
    · exact .inr ⟨hx, hz⟩

theorem fadd_of_isNaN_left {x : F64} (h : isNaN x = true) (y : F64) : fadd x y = quietNaN := by simp [fadd, h]

theorem fmul_of_isNaN_right {y : F64} (x : F64) (h : isNaN y = true) : fmul x y = quietNaN := by simp [fmul, h]

/-- The sum does not tell one NaN of its left operand from another. -/
theorem fadd_congr_left {x x' : F64} (h : sameSample x x') (y : F64) : fadd x y = fadd x' y := by
  rcases h with rfl | ⟨hx, hx'⟩
  · rfl
  · rw [fadd_of_isNaN_left hx, fadd_of_isNaN_left hx']

/-- The product does not tell one NaN of its right operand from another. -/
theorem fmul_congr_right {x x' : F64} (h : sameSample x x') (y : F64) : fmul y x = fmul y x' := by
  rcases h with rfl | ⟨hx, hx'⟩
  · rfl
  · rw [fmul_of_isNaN_right y hx, fmul_of_isNaN_right y hx']

/-- Neither formula of the channel tells one NaN sample from another. -/
theorem channelSample_congr {x x' : F64} (h : sameSample x x') (ns : NoiseSource) (chan : ChannelType) (sigma : F64)
    (rng : Nat) : (channelSample ns chan sigma x rng).1 = (channelSample ns chan sigma x' rng).1 := by
  cases chan with
  | awgn => exact fadd_congr_left h _
  | rayleigh => exact congrArg (fadd · _) (fmul_congr_right h _)

/-- Every NaN is sliced to 0 (44_slicer.md R231). -/
theorem sliceBit_congr {y y' : F64} (h : sameSample y y') : sliceBit y = sliceBit y' := by
  rcases h with rfl | ⟨hy, hy'⟩
  · rfl
  · simp [sliceBit, fgt, hy, hy']

/-- What SLICE leaves in its destination: the length of S and the decision on each sample (44_slicer.md R230). -/
theorem execSlice_bits {dst : BufIdx} {s t : State} (h : execSlice dst s = .next t) :
    (t.buf dst).len = s.samples.len ∧
      ∀ i < s.samples.len, ∀ y, s.sample i = some y → t.bit dst i = some (sliceBit y) := by
  obtain ⟨ys, hys, rfl⟩ := execSlice_next h
  obtain ⟨hlen, hsamples⟩ := (State.sourceSamples_eq_some_iff s ys).1 hys
  have hout : (ys.map sliceBit).length = s.samples.len := by rw [List.length_map, hlen]
  refine ⟨(State.len_stored s dst _).trans hout, fun i hi y hy => ?_⟩
  rw [State.bit_stored s dst (hi.trans_eq hout.symm), List.getElem?_map, ← hsamples i hi, hy, Option.map_some]

/-- Settles O31: the draws depend on the RNG state alone, and neither the channel's formula nor the slicer tells one NaN from
another. -/
theorem channelIsReproducible : Obligations.ChannelIsReproducible := by
  intro chan code dst s s' t t' u u' hrng hsnr hlen hsame ht ht' hu hu'
  obtain ⟨htlen, hts, htrng, _⟩ := channelWith_samples ht
  obtain ⟨htlen', hts', htrng', _⟩ := channelWith_samples ht'
  obtain ⟨hulen, hubit⟩ := execSlice_bits hu
  obtain ⟨hulen', hubit'⟩ := execSlice_bits hu'
  have hout : ∀ i < s.samples.len, ∃ y y', t.sample i = some y ∧ t'.sample i = some y' ∧ sameSample y y' := by
    intro i hi
    obtain ⟨x, x', hx, hx', hxx⟩ := hsame i hi
    obtain ⟨z, y, hz, hy, hyz⟩ := hts i hi
    obtain ⟨z', y', hz', hy', hyz'⟩ := hts' i (hi.trans_eq hlen)
    obtain rfl : x = z := Option.some.inj (hx.symm.trans hz)
    obtain rfl : x' = z' := Option.some.inj (hx'.symm.trans hz')
    rw [← hrng, ← hsnr, ← channelSample_congr hxx] at hyz'
    exact ⟨y, y', hy, hy', hyz.trans hyz'.symm⟩
  refine ⟨by rw [htrng, htrng', hrng, hlen], hout, by rw [hulen, hulen', htlen, htlen', hlen], fun i hi => ?_⟩
  obtain ⟨y, y', hy, hy', hyy⟩ := hout i hi
  rw [hubit i (hi.trans_eq htlen.symm) y hy, hubit' i (hi.trans_eq (hlen.trans htlen'.symm)) y' hy', sliceBit_congr hyy]

end Sys2Proof.Machine
end

section
/-! PROOFS. The machine's pow10: whatever its monotone map of ranks is, it takes the values R202 fixes and is monotone between
them (43_channel.md R202, log 5). -/

namespace Sys2Proof.Machine

/-! The order of the patterns. -/

/-- The ranks are in the order of the values. -/
theorem orderRank_le_of_orderKey_le {x y : F64} (h : orderKey x ≤ orderKey y) : orderRank x ≤ orderRank y :=
  Int.toNat_le_toNat (Int.add_le_add_right h _)

/-- The value of a nonnegative pattern in the order is its magnitude. -/
theorem orderKey_ofMag_false {m : Nat} (h : m < 2 ^ 63) : orderKey (ofMag false m) = m := by
  rw [orderKey, isNeg_ofMag false h, mag_ofMag false h, if_neg Bool.false_ne_true]

/-- A magnitude up to that of the infinity is no NaN. -/
theorem isNaN_ofMag (neg : Bool) {m : Nat} (h : m ≤ infMag) : isNaN (ofMag neg m) = false := by
  rw [isNaN, mag_ofMag neg (h.trans_lt (by norm_num))]
  simpa using h

/-! Folds with max and min. -/

theorem foldr_max_le_iff (l : List (Nat × Nat)) (a b : Nat) :
    l.foldr (fun p r => max p.2 r) a ≤ b ↔ a ≤ b ∧ ∀ p ∈ l, p.2 ≤ b := by
  induction l with
  | nil => simp
  | cons p l ih =>
    rw [List.foldr_cons, max_le_iff, ih, List.forall_mem_cons]
    exact and_left_comm

theorem le_foldr_min_iff (l : List (Nat × Nat)) (a b : Nat) :
    b ≤ l.foldr (fun p r => min p.2 r) a ↔ b ≤ a ∧ ∀ p ∈ l, b ≤ p.2 := by
  induction l with
  | nil => simp
  | cons p l ih =>
    rw [List.foldr_cons, le_min_iff, ih, List.forall_mem_cons]
    exact and_left_comm

/-! The fixed arguments, and the bounds they put on the others. -/

/-- The values R202 fixes rise with their arguments and are no NaN patterns. -/
theorem pow10Pins_monotone : ∀ p ∈ pow10Pins, p.2 ≤ infMag ∧ ∀ q ∈ pow10Pins, p.1 ≤ q.1 → p.2 ≤ q.2 := by decide

theorem pow10Floor_le_iff (k b : Nat) : pow10Floor k ≤ b ↔ ∀ p ∈ pow10Pins, p.1 ≤ k → p.2 ≤ b := by
  simp [pow10Floor, foldr_max_le_iff]

theorem le_pow10Ceiling_iff (k b : Nat) : b ≤ pow10Ceiling k ↔ b ≤ infMag ∧ ∀ p ∈ pow10Pins, k ≤ p.1 → b ≤ p.2 := by
  simp [pow10Ceiling, le_foldr_min_iff]

theorem pow10Floor_mono {k l : Nat} (h : k ≤ l) : pow10Floor k ≤ pow10Floor l :=
  (pow10Floor_le_iff k _).2 fun p hp hk => (pow10Floor_le_iff l _).1 le_rfl p hp (hk.trans h)

theorem pow10Ceiling_mono {k l : Nat} (h : k ≤ l) : pow10Ceiling k ≤ pow10Ceiling l := by
  obtain ⟨hinf, hpins⟩ := (le_pow10Ceiling_iff k _).1 le_rfl
  exact (le_pow10Ceiling_iff l _).2 ⟨hinf, fun p hp hl => hpins p hp (h.trans hl)⟩

theorem pow10Floor_le_infMag (k : Nat) : pow10Floor k ≤ infMag :=
  (pow10Floor_le_iff k _).2 fun p hp _ => (pow10Pins_monotone p hp).1

theorem pow10Floor_le_pow10Ceiling (k : Nat) : pow10Floor k ≤ pow10Ceiling k :=
  (le_pow10Ceiling_iff k _).2 ⟨pow10Floor_le_infMag k, fun q hq hk =>
    (pow10Floor_le_iff k _).2 fun p hp hp' => (pow10Pins_monotone p hp).2 q hq (hp'.trans hk)⟩

theorem le_pow10Floor_of_mem {k v : Nat} (h : (k, v) ∈ pow10Pins) : v ≤ pow10Floor k :=
  (pow10Floor_le_iff k _).1 le_rfl (k, v) h le_rfl

theorem pow10Ceiling_le_of_mem {k v : Nat} (h : (k, v) ∈ pow10Pins) : pow10Ceiling k ≤ v :=
  ((le_pow10Ceiling_iff k _).1 le_rfl).2 (k, v) h le_rfl

/-! The magnitude of the result. -/

/-- The magnitude `pow10From` gives an argument of rank `k`: the free map, kept between the bounds. -/
def pow10Mag (rank : Nat →o Nat) (k : Nat) : Nat := max (pow10Floor k) (min (rank k) (pow10Ceiling k))

/-- Where the bounds meet, the free map kept between them is their common value. -/
theorem pow10From_of_not_isNaN (rank : Nat →o Nat) {x : F64} (h : isNaN x = false) :
    pow10From rank x = ofMag false (pow10Mag rank (orderRank x)) := by
  simp only [pow10From, h, Bool.false_eq_true, if_false, pow10Mag]
  split_ifs with heq
  · rw [← heq, max_eq_left (min_le_right _ _)]
  · rfl

theorem pow10Mag_le_infMag (rank : Nat →o Nat) (k : Nat) : pow10Mag rank k ≤ infMag :=
  max_le (pow10Floor_le_infMag k) ((min_le_right _ _).trans ((le_pow10Ceiling_iff k _).1 le_rfl).1)

theorem pow10Mag_mono (rank : Nat →o Nat) {k l : Nat} (h : k ≤ l) : pow10Mag rank k ≤ pow10Mag rank l :=
  max_le_max (pow10Floor_mono h) (min_le_min (rank.monotone h) (pow10Ceiling_mono h))

/-- At a fixed argument the result is the fixed one. -/
theorem pow10Mag_of_mem (rank : Nat →o Nat) {k v : Nat} (h : (k, v) ∈ pow10Pins) : pow10Mag rank k = v := by
  have hlo := le_pow10Floor_of_mem h
  have hhi := pow10Ceiling_le_of_mem h
  have hle := pow10Floor_le_pow10Ceiling k
  rw [pow10Mag]
  omega

/-- At an argument of fixed rank `pow10From` gives the fixed pattern. -/
theorem pow10From_of_mem (rank : Nat →o Nat) {x y : F64} (hx : isNaN x = false) (hy : isNeg y = false)
    (h : (orderRank x, mag y) ∈ pow10Pins) : pow10From rank x = y := by
  rw [pow10From_of_not_isNaN rank hx, pow10Mag_of_mem rank h, ← hy, ofMag_isNeg_mag]

/-- `pow10From` gives no NaN and nothing negative, NaN arguments apart (log 21). -/
theorem pow10From_nonneg (rank : Nat →o Nat) {x : F64} (h : isNaN x = false) :
    isNaN (pow10From rank x) = false ∧ isNeg (pow10From rank x) = false := by
  have hle := pow10Mag_le_infMag rank (orderRank x)
  rw [pow10From_of_not_isNaN rank h]
  exact ⟨isNaN_ofMag false hle, isNeg_ofMag false (hle.trans_lt (by norm_num))⟩

theorem pow10From_mono (rank : Nat →o Nat) {x y : F64} (hx : isNaN x = false) (hy : isNaN y = false)
    (h : orderKey x ≤ orderKey y) : orderKey (pow10From rank x) ≤ orderKey (pow10From rank y) := by
  have hlt : ∀ k, pow10Mag rank k < 2 ^ 63 := fun k => (pow10Mag_le_infMag rank k).trans_lt (by norm_num)
  rw [pow10From_of_not_isNaN rank hx, pow10From_of_not_isNaN rank hy, orderKey_ofMag_false (hlt _),
    orderKey_ofMag_false (hlt _)]
  exact_mod_cast pow10Mag_mono rank (orderRank_le_of_orderKey_le h)

/-! The patterns of the fixed integers. -/

/-- A pattern whose significand, scaled to the exponent −52, is that of a natural number has its value. -/
theorem valueOf_eq_of_scaled {x : F64} {n : Nat} (he : -52 ≤ expo x) (h : scaled x (-52) = n * 2 ^ 52) :
    valueOf x = n := by
  rw [← scaled_value x he, h]
  push_cast
  rw [mul_assoc]
  norm_num

/-- The positive ones of the integers 0 to 22 and all their powers of ten have exact patterns. -/
theorem natToF64_exact : ∀ n < 23, ∀ k ∈ [n, 10 ^ n], isNaN (natToF64 k) = false ∧ isNeg (natToF64 k) = false ∧
    (0 < k → -52 ≤ expo (natToF64 k) ∧ scaled (natToF64 k) (-52) = k * 2 ^ 52) := by decide

/-- The integers 0 to 22 and their powers of ten are the values of their patterns. -/
theorem valueOf_natToF64 {n k : Nat} (hn : n < 23) (hk : k ∈ [n, 10 ^ n]) : valueOf (natToF64 k) = k := by
  obtain ⟨_, _, hexact⟩ := natToF64_exact n hn k hk
  rcases Nat.eq_zero_or_pos k with rfl | hpos
  · exact (valueOf_eq_zero_iff _).2 (by decide)
  · exact valueOf_eq_of_scaled (hexact hpos).1 (hexact hpos).2

/-- The integers 0 to 22 are among the fixed arguments. -/
theorem natToF64_mem_pow10Pins {n : Nat} (h : n < 23) :
    (orderRank (natToF64 n), mag (natToF64 (10 ^ n))) ∈ pow10Pins :=
  List.mem_append_left _ (List.mem_cons_of_mem _ (List.mem_map.2 ⟨n, List.mem_range.2 h, rfl⟩))

/-- Settles O35: the fixed values and the monotone map between them. -/
theorem powTenHasTheNamedProperties : Obligations.PowTenHasTheNamedProperties := by
  unfold Obligations.PowTenHasTheNamedProperties
  intro f
  have hzero : (orderRank posZero, mag one64) ∈ pow10Pins := natToF64_mem_pow10Pins (n := 0) (by norm_num)
  have hposInf : (orderRank posInf, mag posInf) ∈ pow10Pins := List.mem_append_right _ (List.mem_singleton.2 rfl)
  have hnegInf : (orderRank negInf, mag posZero) ∈ pow10Pins := List.mem_append_left _ List.mem_cons_self
  have hinteger : ∀ n ≤ 22, f (natToF64 n) = natToF64 (10 ^ n) ∧ valueOf (natToF64 n) = n ∧
      valueOf (natToF64 (10 ^ n)) = 10 ^ n := fun n hn => by
    have hlt : n < 23 := by omega
    have hnan := (natToF64_exact n hlt n (by simp)).1
    have hneg := (natToF64_exact n hlt (10 ^ n) (by simp)).2.1
    exact ⟨pow10From_of_mem _ hnan hneg (natToF64_mem_pow10Pins hlt), valueOf_natToF64 hlt (by simp),
      by exact_mod_cast valueOf_natToF64 hlt (k := 10 ^ n) (by simp)⟩
  refine ⟨pow10From_of_mem _ (by decide) (by decide) hzero, pow10From_of_mem _ (by decide) (by decide) hzero, hinteger,
    pow10From_of_mem _ (by decide) (by decide) hposInf, pow10From_of_mem _ (by decide) (by decide) hnegInf,
    fun x hx => ?_, fun x hx => pow10From_nonneg _ hx, fun x y hx hy h => pow10From_mono _ hx hy h⟩
  simp only [f, machineParams, pow10From, hx, if_true]
  decide

end Sys2Proof.Machine
end

section
/-! PROOFS. The deviation σ and the fading magnitude (43_channel.md R203, R204): which operations keep a number and its sign,
and how their results move with the operand (00_scope.md R9, log 9). -/

namespace Sys2Proof.Machine

/-! Nonnegative numbers. -/

/-- The pattern is a number with the sign +. -/
def Nonneg (x : F64) : Prop := isNaN x = false ∧ isNeg x = false

theorem mag_le_infMag {x : F64} (h : isNaN x = false) : mag x ≤ infMag := not_lt.1 (of_decide_eq_false h)

theorem nonneg_ofMag {m : Nat} (h : m ≤ infMag) : Nonneg (ofMag false m) :=
  ⟨isNaN_ofMag false h, isNeg_ofMag false (h.trans_lt (by norm_num))⟩

/-- A number is finite or an infinity. -/
theorem isFinite_or_isInf {x : F64} (h : isNaN x = false) : isFinite x = true ∨ isInf x = true := by
  have hle := mag_le_infMag h
  simp only [isFinite, isInf, decide_eq_true_eq]
  omega

theorem isNaN_of_isInf {x : F64} (h : isInf x = true) : isNaN x = false := by
  rw [isNaN, of_decide_eq_true h]
  decide

theorem isZero_of_isInf {x : F64} (h : isInf x = true) : isZero x = false := by
  rw [isZero, of_decide_eq_true h]
  decide

theorem Nonneg.orderKey_eq {x : F64} (h : Nonneg x) : orderKey x = mag x := by
  rw [orderKey, h.2, if_neg Bool.false_ne_true]

theorem Nonneg.eq_ofMag {x : F64} (h : Nonneg x) : x = ofMag false (mag x) := by
  rw [← h.2, ofMag_isNeg_mag]

theorem Nonneg.eq_posInf {x : F64} (h : Nonneg x) (hx : isInf x = true) : x = posInf := by
  rw [h.eq_ofMag, of_decide_eq_true hx]
  decide

theorem Nonneg.eq_posZero {x : F64} (h : Nonneg x) (hx : isZero x = true) : x = posZero := by
  rw [h.eq_ofMag, of_decide_eq_true hx]
  decide

/-- A nonnegative number is +0, +∞ or finite and positive. -/
theorem Nonneg.cases {x : F64} (h : Nonneg x) :
    x = posZero ∨ x = posInf ∨ (isFinite x = true ∧ isZero x = false) := by
  rcases isFinite_or_isInf h.1 with hfin | hinf
  · cases hzero : isZero x with
    | true => exact .inl (h.eq_posZero hzero)
    | false => exact .inr (.inr ⟨hfin, rfl⟩)
  · exact .inr (.inl (h.eq_posInf hinf))

theorem Nonneg.valueOf_eq {x : F64} (h : Nonneg x) : valueOf x = valueOfMag (mag x) := by
  rw [valueOf, h.2, if_neg Bool.false_ne_true, one_mul]

/-- The size of a value is that of its magnitude. -/
theorem abs_valueOf_eq_valueOfMag (x : F64) : |valueOf x| = valueOfMag (mag x) := abs_valueOf x

/-- Magnitudes in order have values in order, over the reals. -/
theorem realValue_le {m n : Nat} (h : m ≤ n) : (valueOfMag m : ℝ) ≤ valueOfMag n := realValue_strictMono.monotone h

theorem realValue_pos {x : F64} (h : isZero x = false) : (0 : ℝ) < valueOfMag (mag x) := by
  have hne : mag x ≠ 0 := of_decide_eq_false h
  simpa [valueOfMag_zero] using realValue_strictMono (Nat.pos_of_ne_zero hne)

theorem mag_ofMag_min (neg : Bool) (r : Nat) : mag (ofMag neg (min r infMag)) = min r infMag :=
  mag_ofMag neg ((min_le_right _ _).trans_lt (by norm_num))

/-! Scaling by a positive constant. -/

/-- The operation multiplies the value by `k` and rounds, and it keeps the sign and the infinities (00_scope.md R9). -/
structure ScalesBy (op : F64 → F64) (k : ℝ) : Prop where
  factor_nonneg : 0 ≤ k
  of_isFinite : ∀ x, isFinite x = true →
    ∃ r, RoundsTo (k * (valueOfMag (mag x) : ℝ)) r ∧ op x = ofMag (isNeg x) (min r infMag)
  of_isInf : ∀ x, isInf x = true → op x = ofMag (isNeg x) infMag

/-- A constant by which an operation scales: finite, positive. -/
def PositiveFinite (c : F64) : Prop := isFinite c = true ∧ isNeg c = false ∧ isZero c = false

/-- A product with a positive constant scales by it. -/
theorem scalesBy_fmul {c : F64} (hc : PositiveFinite c) : ScalesBy (fmul c) (valueOfMag (mag c)) := by
  obtain ⟨hfin, hneg, hzero⟩ := hc
  refine ⟨(realValue_pos hzero).le, fun x hx => ?_, fun x hx => ?_⟩
  · obtain ⟨r, hr, hmul⟩ := multiplicationIsCorrectlyRounded c x hfin hx
    rw [← Rat.cast_abs, abs_mul, abs_valueOf_eq_valueOfMag, abs_valueOf_eq_valueOfMag, Rat.cast_mul] at hr
    exact ⟨r, hr, by rw [hmul, hneg, Bool.false_bne]⟩
  · simp [fmul, isNaN_of_isFinite hfin, hneg, hzero, hx, isNaN_of_isInf hx, isZero_of_isInf hx]

/-- A quotient by a positive constant scales by its inverse. -/
theorem scalesBy_fdiv {c : F64} (hc : PositiveFinite c) : ScalesBy (fdiv · c) (valueOfMag (mag c) : ℝ)⁻¹ := by
  obtain ⟨hfin, hneg, hzero⟩ := hc
  refine ⟨(inv_pos.2 (realValue_pos hzero)).le, fun x hx => ?_, fun x hx => ?_⟩
  · obtain ⟨r, hr, hdiv⟩ := divisionIsCorrectlyRounded x c hx hfin hzero
    rw [← Rat.cast_abs, abs_div, abs_valueOf_eq_valueOfMag, abs_valueOf_eq_valueOfMag, Rat.cast_div, div_eq_inv_mul] at hr
    exact ⟨r, hr, hdiv.trans (by rw [hneg, Bool.bne_false])⟩
  · simp [fdiv, isNaN_of_isFinite hfin, isInf_of_isFinite hfin, hneg, hx, isNaN_of_isInf hx]

section
variable {op : F64 → F64} {k : ℝ}

/-- The result is a number with the sign of the operand. -/
theorem ScalesBy.number (h : ScalesBy op k) {x : F64} (hx : isNaN x = false) :
    isNaN (op x) = false ∧ isNeg (op x) = isNeg x := by
  obtain ⟨m, hm, hop⟩ : ∃ m ≤ infMag, op x = ofMag (isNeg x) m := by
    rcases isFinite_or_isInf hx with hfin | hinf
    · obtain ⟨r, _, hr⟩ := h.of_isFinite x hfin
      exact ⟨_, min_le_right r infMag, hr⟩
    · exact ⟨_, le_rfl, h.of_isInf x hinf⟩
  rw [hop]
  exact ⟨isNaN_ofMag _ hm, isNeg_ofMag _ (hm.trans_lt (by norm_num))⟩

theorem ScalesBy.nonneg (h : ScalesBy op k) {x : F64} (hx : Nonneg x) : Nonneg (op x) :=
  ⟨(h.number hx.1).1, (h.number hx.1).2.trans hx.2⟩

/-- The magnitude of the result does not fall when that of the operand rises. -/
theorem ScalesBy.mag_le_mag (h : ScalesBy op k) {x y : F64} (hx : isNaN x = false) (hy : isNaN y = false)
    (hxy : mag x ≤ mag y) : mag (op x) ≤ mag (op y) := by
  rcases isFinite_or_isInf hy with hfin | hinf
  · obtain ⟨r, hr, hopx⟩ := h.of_isFinite x (decide_eq_true (hxy.trans_lt (of_decide_eq_true hfin)))
    obtain ⟨r', hr', hopy⟩ := h.of_isFinite y hfin
    rw [hopx, hopy, mag_ofMag_min, mag_ofMag_min]
    exact min_le_min_right _ (hr.le_of_le hr' (mul_le_mul_of_nonneg_left (realValue_le hxy) h.factor_nonneg))
  · rw [h.of_isInf y hinf, mag_ofMag _ (by norm_num)]
    exact mag_le_infMag (h.number hx).1

/-- A zero gives a zero. -/
theorem ScalesBy.mag_eq_zero (h : ScalesBy op k) {x : F64} (hx : mag x = 0) : mag (op x) = 0 := by
  obtain ⟨r, hr, hop⟩ := h.of_isFinite x (decide_eq_true (by rw [hx]; norm_num))
  rw [hx, valueOfMag_zero, Rat.cast_zero, mul_zero] at hr
  obtain rfl : r = 0 := hr.unique (by simpa [valueOfMag_zero] using roundsTo_self 0)
  rw [hop, mag_ofMag_min]
  rfl

/-- The result does not fall when the operand rises. -/
theorem ScalesBy.orderKey_le (h : ScalesBy op k) {x y : F64} (hx : isNaN x = false) (hy : isNaN y = false)
    (hxy : orderKey x ≤ orderKey y) : orderKey (op x) ≤ orderKey (op y) := by
  simp only [orderKey, (h.number hx).2, (h.number hy).2] at hxy ⊢
  cases hnegx : isNeg x <;> cases hnegy : isNeg y <;>
    simp only [hnegx, hnegy, if_true, if_false, Bool.false_eq_true] at hxy ⊢
  case false.false => exact_mod_cast h.mag_le_mag hx hy (by omega)
  case false.true => rw [h.mag_eq_zero (x := x) (by omega), h.mag_eq_zero (x := y) (by omega)]; rfl
  case true.false => omega
  case true.true =>
    have := h.mag_le_mag hy hx (by omega)
    omega

end

/-! The inverse and the square root of a nonnegative number. -/

/-- The inverse of a finite positive number is the rounded one. -/
theorem fdiv_one_roundsTo {x : F64} (hx : Nonneg x) (hfin : isFinite x = true) (hzero : isZero x = false) :
    ∃ r, RoundsTo (1 / (valueOfMag (mag x) : ℝ)) r ∧ fdiv one64 x = ofMag false (min r infMag) := by
  obtain ⟨r, hr, hdiv⟩ := divisionIsCorrectlyRounded one64 x (by decide) hfin hzero
  have hone : valueOf one64 = 1 := by norm_num [valueOf, valueOfMag, sigOfMag, expOfMag, mag, isNeg]
  rw [hone, hx.valueOf_eq, ← Rat.cast_abs, abs_of_nonneg (one_div_nonneg.2 (valueOfMag_nonneg _)), Rat.cast_div,
    Rat.cast_one] at hr
  rw [hx.2] at hdiv
  exact ⟨r, hr, hdiv⟩

theorem fdiv_one_nonneg {x : F64} (hx : Nonneg x) : Nonneg (fdiv one64 x) := by
  rcases hx.cases with rfl | rfl | ⟨hfin, hzero⟩
  · exact ⟨by decide, by decide⟩
  · exact ⟨by decide, by decide⟩
  · obtain ⟨r, _, hdiv⟩ := fdiv_one_roundsTo hx hfin hzero
    rw [hdiv]
    exact nonneg_ofMag (min_le_right _ _)

/-- The inverse does not rise when the number rises. -/
theorem fdiv_one_antitone {x y : F64} (hx : Nonneg x) (hy : Nonneg y) (h : mag x ≤ mag y) :
    mag (fdiv one64 y) ≤ mag (fdiv one64 x) := by
  have hle := mag_le_infMag (fdiv_one_nonneg hy).1
  rcases hx.cases with rfl | rfl | ⟨hfinx, hzerox⟩
  · rwa [show mag (fdiv one64 posZero) = infMag by decide]
  · have hinf : isInf y = true := decide_eq_true (le_antisymm (mag_le_infMag hy.1) h)
    rw [hy.eq_posInf hinf]
  · rcases hy.cases with rfl | rfl | ⟨hfiny, hzeroy⟩
    · exact absurd (Nat.le_zero.1 h) (of_decide_eq_false hzerox)
    · rw [show mag (fdiv one64 posInf) = 0 by decide]
      exact Nat.zero_le _
    · obtain ⟨r, hr, hdivx⟩ := fdiv_one_roundsTo hx hfinx hzerox
      obtain ⟨r', hr', hdivy⟩ := fdiv_one_roundsTo hy hfiny hzeroy
      rw [hdivx, hdivy, mag_ofMag_min, mag_ofMag_min]
      exact min_le_min_right _ (hr'.le_of_le hr (one_div_le_one_div_of_le (realValue_pos hzerox) (realValue_le h)))

theorem fsqrt_nonneg {x : F64} (hx : Nonneg x) : Nonneg (fsqrt x) := by
  rcases hx.cases with rfl | rfl | ⟨hfin, hzero⟩
  · exact ⟨by decide, by decide⟩
  · exact ⟨by decide, by decide⟩
  · obtain ⟨r, _, hlt, hsqrt⟩ := squareRootIsCorrectlyRounded x hfin hx.2 hzero
    rw [hsqrt]
    exact nonneg_ofMag hlt.le

/-- The square root does not fall when the number rises. -/
theorem fsqrt_mono {x y : F64} (hx : Nonneg x) (hy : Nonneg y) (h : mag x ≤ mag y) :
    mag (fsqrt x) ≤ mag (fsqrt y) := by
  have hle := mag_le_infMag (fsqrt_nonneg hx).1
  rcases hy.cases with rfl | rfl | ⟨hfiny, hzeroy⟩
  · have hzero : isZero x = true := decide_eq_true (Nat.le_zero.1 h)
    rw [hx.eq_posZero hzero]
  · rwa [show mag (fsqrt posInf) = infMag by decide]
  · rcases hx.cases with rfl | rfl | ⟨hfinx, hzerox⟩
    · rw [show mag (fsqrt posZero) = 0 by decide]
      exact Nat.zero_le _
    · exact absurd (of_decide_eq_true hfiny) h.not_gt
    · obtain ⟨r, hr, hlt, hsqrtx⟩ := squareRootIsCorrectlyRounded x hfinx hx.2 hzerox
      obtain ⟨r', hr', hlt', hsqrty⟩ := squareRootIsCorrectlyRounded y hfiny hy.2 hzeroy
      rw [hx.valueOf_eq] at hr
      rw [hy.valueOf_eq] at hr'
      rw [hsqrtx, hsqrty, mag_ofMag _ (hlt.trans (by norm_num)), mag_ofMag _ (hlt'.trans (by norm_num))]
      exact hr.le_of_le hr' (Real.sqrt_le_sqrt (realValue_le h))

/-! The fading magnitude. -/

/-- A square is +0 or above. -/
theorem fmul_self_nonneg {x : F64} (hx : isFinite x = true) : Nonneg (fmul x x) := by
  obtain ⟨r, _, hmul⟩ := multiplicationIsCorrectlyRounded x x hx hx
  rw [hmul, bne_self_eq_false]
  exact nonneg_ofMag (min_le_right _ _)

/-- A sum of nonnegative numbers is +0 or above: a zero one is +0, since neither of the two is −0 (log 9). -/
theorem fadd_nonneg {x y : F64} (hx : Nonneg x) (hy : Nonneg y) : Nonneg (fadd x y) := by
  rcases isFinite_or_isInf hx.1 with hfinx | hinfx
  · rcases isFinite_or_isInf hy.1 with hfiny | hinfy
    · obtain ⟨hnonzero, hzero⟩ := additionIsCorrectlyRounded x y hfinx hfiny
      by_cases hsum : valueOf x + valueOf y = 0
      · rw [hzero hsum, if_neg fun hboth => absurd hx.2 (by rw [hboth.1]; decide)]
        exact ⟨by decide, by decide⟩
      · obtain ⟨r, _, hadd⟩ := hnonzero hsum
        have hsign : ¬ valueOf x + valueOf y < 0 := by
          rw [hx.valueOf_eq, hy.valueOf_eq, not_lt]
          exact add_nonneg (valueOfMag_nonneg _) (valueOfMag_nonneg _)
        rw [hadd, decide_eq_false hsign]
        exact nonneg_ofMag (min_le_right _ _)
    · rwa [show fadd x y = y by simp [fadd, hx.1, hy.1, isInf_of_isFinite hfinx, hinfy]]
  · rwa [show fadd x y = x by simp [fadd, hx.1, hy.1, hinfx, hx.2, hy.2]]

/-- Settles O39: squares, their sum, its half and the root each stay +0 or above. -/
theorem fadeIsNonnegative : Obligations.FadeIsNonnegative := by
  intro x y hx hy
  have hhalf := scalesBy_fdiv (c := two64) ⟨by decide, by decide, by decide⟩
  exact fsqrt_nonneg (hhalf.nonneg (fadd_nonneg (fmul_self_nonneg hx) (fmul_self_nonneg hy)))

/-! σ. -/

theorem fdiv_of_isNaN_left {x : F64} (h : isNaN x = true) (y : F64) : fdiv x y = quietNaN := by simp [fdiv, h]

/-- σ from the value of pow10 (43_channel.md R203). -/
theorem sigmaOf_eq {pow10 : F64 → F64} {snr q lin : F64} (hq : fdiv snr ten64 = q) (hlin : pow10 q = lin) (sc : Scheme) :
    sigmaOf pow10 snr sc = fsqrt (fdiv one64 (fmul (fmul two64 lin) (rateF sc))) := by
  rw [sigmaOf, hq, hlin]

/-- Settles O37: σ at the arguments whose pow10 R202 fixes, and at a NaN, which every operation passes on. -/
theorem sigmaCornerCases : Obligations.SigmaCornerCases := by
  obtain ⟨hzero, hnegZero, _, hposInf, hnegInf, hnan, _⟩ := powTenHasTheNamedProperties
  have htwo : fmul two64 one64 = two64 := by decide
  intro sc
  refine ⟨?_, ?_, fun snr hsnr => ?_, ?_, ?_⟩
  · refine (sigmaOf_eq (by decide) hposInf sc).trans ?_
    cases sc <;> decide
  · refine (sigmaOf_eq (by decide) hnegInf sc).trans ?_
    cases sc <;> decide
  · have hlin := hnan _ (show isNaN (fdiv snr ten64) = true by rw [fdiv_of_isNaN_left hsnr]; decide)
    dsimp only
    rw [sigmaOf, fmul_of_isNaN_right _ hlin]
    cases sc <;> decide
  · exact (sigmaOf_eq (by decide) hzero sc).trans (by rw [htwo])
  · exact (sigmaOf_eq (by decide) hnegZero sc).trans (by rw [htwo])

theorem positiveFinite_rateF (sc : Scheme) : PositiveFinite (rateF sc) := by
  cases sc <;> exact ⟨by decide, by decide, by decide⟩

theorem fmul_comm (x y : F64) : fmul x y = fmul y x := by
  simp only [fmul, Bool.or_comm (isNaN x), Bool.or_comm (isInf x), Bool.or_comm (isZero x), bne_comm (a := isNeg x),
    Nat.mul_comm (sig x), Int.add_comm (expo x)]

/-- The number of which σ is the root of the inverse, from the value of pow10 (43_channel.md R203). -/
def sigmaDenominator (sc : Scheme) (lin : F64) : F64 := fmul (fmul two64 lin) (rateF sc)

theorem sigmaOf_eq_sigmaDenominator (pow10 : F64 → F64) (snr : F64) (sc : Scheme) :
    sigmaOf pow10 snr sc = fsqrt (fdiv one64 (sigmaDenominator sc (pow10 (fdiv snr ten64)))) := rfl

/-- The denominator is a nonnegative number, and it does not fall when pow10 rises. -/
theorem sigmaDenominator_mono (sc : Scheme) {lin lin' : F64} (h : Nonneg lin) (h' : Nonneg lin')
    (hle : orderKey lin ≤ orderKey lin') :
    Nonneg (sigmaDenominator sc lin) ∧ Nonneg (sigmaDenominator sc lin') ∧
      mag (sigmaDenominator sc lin) ≤ mag (sigmaDenominator sc lin') := by
  have htwo := scalesBy_fmul (c := two64) ⟨by decide, by decide, by decide⟩
  have hrate := scalesBy_fmul (positiveFinite_rateF sc)
  have hmag : mag lin ≤ mag lin' := by rwa [h.orderKey_eq, h'.orderKey_eq, Nat.cast_le] at hle
  simp only [sigmaDenominator, fmul_comm _ (rateF sc)]
  exact ⟨hrate.nonneg (htwo.nonneg h), hrate.nonneg (htwo.nonneg h'),
    hrate.mag_le_mag (htwo.nonneg h).1 (htwo.nonneg h').1 (htwo.mag_le_mag h.1 h'.1 hmag)⟩

/-- Settles O38: the quotient, pow10 and the denominator rise with SNR_DB, the inverse falls, and the root follows it. -/
theorem sigmaFallsAsSnrRises : Obligations.SigmaFallsAsSnrRises := by
  obtain ⟨_, _, _, _, _, _, hnonneg, hmono⟩ := powTenHasTheNamedProperties
  have hten := scalesBy_fdiv (c := ten64) ⟨by decide, by decide, by decide⟩
  intro sc x y hx hy hxy
  have hqx := (hten.number hx).1
  have hqy := (hten.number hy).1
  obtain ⟨hdx, hdy, hle⟩ := sigmaDenominator_mono sc (hnonneg _ hqx) (hnonneg _ hqy)
    (hmono _ _ hqx hqy (hten.orderKey_le hx hy hxy))
  have hsx := fsqrt_nonneg (fdiv_one_nonneg hdx)
  have hsy := fsqrt_nonneg (fdiv_one_nonneg hdy)
  simp only [sigmaOf_eq_sigmaDenominator, hsx.orderKey_eq, hsy.orderKey_eq, Nat.cast_le]
  exact ⟨hsx.1, hsy.1, fsqrt_mono (fdiv_one_nonneg hdy) (fdiv_one_nonneg hdx) (fdiv_one_antitone hdx hdy hle)⟩

end Sys2Proof.Machine
end

section
/-! PROOFS. The default pow10 is the correctly rounded 10^x (43_channel.md R202, log 6): its integer comparisons are those of the
exact power, its search finds the two magnitudes around it, and the midpoint between them decides. -/

namespace Sys2Proof.Machine

/-! The comparisons with 10^x. -/

/-- `v` is 10^x for `x = ± m / 2^k`, said without roots. -/
def IsTenPow (neg : Bool) (m k : Nat) (v : ℝ) : Prop :=
  0 < v ∧ if neg then v ^ 2 ^ k * 10 ^ m = 1 else v ^ 2 ^ k = 10 ^ m

/-- The value of a magnitude, over the reals. -/
theorem realValue_eq (r : Nat) : (valueOfMag r : ℝ) = (sigOfMag r : ℝ) * (2 : ℝ) ^ expOfMag r := by
  rw [valueOfMag]
  push_cast
  rfl

/-- A scaled integer as a quotient of the integers `leTenPow` and `geTenPow` form. -/
theorem mul_zpow_eq_div (p : Nat) (q : Int) :
    (p : ℝ) * (2 : ℝ) ^ q = ((p * 2 ^ q.toNat : Nat) : ℝ) / ((2 ^ (-q).toNat : Nat) : ℝ) := by
  have hpow : (2 : ℝ) ^ q = (2 : ℝ) ^ q.toNat / (2 : ℝ) ^ (-q).toNat := by
    rw [← zpow_natCast, ← zpow_natCast, ← zpow_sub₀ (by norm_num)]
    congr 1
    omega
  rw [hpow]
  push_cast
  ring

/-- The comparison of a quotient with a number by their powers. -/
theorem div_le_iff_pow {a b N : Nat} {v : ℝ} (hb : 0 < b) (hN : N ≠ 0) (hv : 0 < v) :
    (a : ℝ) / b ≤ v ↔ (a : ℝ) ^ N ≤ v ^ N * (b : ℝ) ^ N := by
  have hb' : (0 : ℝ) < b := Nat.cast_pos.2 hb
  rw [← pow_le_pow_iff_left₀ (by positivity) hv.le hN, div_pow, div_le_iff₀ (by positivity)]

theorem le_div_iff_pow {a b N : Nat} {v : ℝ} (hb : 0 < b) (hN : N ≠ 0) (hv : 0 < v) :
    v ≤ (a : ℝ) / b ↔ v ^ N * (b : ℝ) ^ N ≤ (a : ℝ) ^ N := by
  have hb' : (0 : ℝ) < b := Nat.cast_pos.2 hb
  rw [← pow_le_pow_iff_left₀ hv.le (by positivity) hN, div_pow, le_div_iff₀ (by positivity)]

/-- With the sign −, the power scaled by 10^m is the scale alone. -/
theorem IsTenPow.mul_ten_pow {m k : Nat} {v : ℝ} (h : IsTenPow true m k v) (c : ℝ) : v ^ 2 ^ k * c * 10 ^ m = c := by
  rw [mul_right_comm, show v ^ 2 ^ k * 10 ^ m = 1 from h.2, one_mul]

/-- `leTenPow` decides `p · 2^q ≤ 10^x`. -/
theorem leTenPow_iff {neg : Bool} {m k : Nat} {v : ℝ} (h : IsTenPow neg m k v) (p : Nat) (q : Int) :
    leTenPow neg m k p q = true ↔ (p : ℝ) * (2 : ℝ) ^ q ≤ v := by
  rw [mul_zpow_eq_div, div_le_iff_pow (by positivity) (by positivity : 2 ^ k ≠ 0) h.1, leTenPow]
  cases neg with
  | true =>
    rw [if_pos rfl, decide_eq_true_eq, ← mul_le_mul_iff_left₀ (by positivity : (0 : ℝ) < 10 ^ m), h.mul_ten_pow]
    exact_mod_cast Iff.rfl
  | false =>
    rw [if_neg Bool.false_ne_true, decide_eq_true_eq, show v ^ 2 ^ k = 10 ^ m from h.2]
    exact_mod_cast Iff.rfl

/-- `geTenPow` decides `10^x ≤ p · 2^q`. -/
theorem geTenPow_iff {neg : Bool} {m k : Nat} {v : ℝ} (h : IsTenPow neg m k v) (p : Nat) (q : Int) :
    geTenPow neg m k p q = true ↔ v ≤ (p : ℝ) * (2 : ℝ) ^ q := by
  rw [mul_zpow_eq_div, le_div_iff_pow (by positivity) (by positivity : 2 ^ k ≠ 0) h.1, geTenPow]
  cases neg with
  | true =>
    rw [if_pos rfl, decide_eq_true_eq, ← mul_le_mul_iff_left₀ (by positivity : (0 : ℝ) < 10 ^ m), h.mul_ten_pow]
    exact_mod_cast Iff.rfl
  | false =>
    rw [if_neg Bool.false_ne_true, decide_eq_true_eq, show v ^ 2 ^ k = 10 ^ m from h.2]
    exact_mod_cast Iff.rfl

/-! The argument as a quotient by a power of two. -/

/-- Taking out factors of two keeps the quotient. -/
theorem stripTwos_value (k m : Nat) : ((stripTwos k m).1 : ℝ) / 2 ^ (stripTwos k m).2 = (m : ℝ) / 2 ^ k := by
  induction k generalizing m with
  | zero => rfl
  | succ k ih =>
    rw [stripTwos]
    split_ifs with heven
    · rw [ih, Nat.cast_div (Nat.dvd_of_mod_eq_zero heven) (by norm_num), Nat.cast_ofNat, div_div, pow_succ']
    · rfl

/-- The numerator and the exponent of the denominator that `pow10Default` raises to. -/
def tenExponent (x : F64) : Nat × Nat :=
  if 0 ≤ expo x then (sig x * 2 ^ (expo x).toNat, 0) else stripTwos (-(expo x)).toNat (sig x)

/-- The size of the argument is the quotient of the two. -/
theorem tenExponent_value (x : F64) :
    ((tenExponent x).1 : ℝ) / 2 ^ (tenExponent x).2 = (valueOfMag (mag x) : ℝ) := by
  have hvalue : (valueOfMag (mag x) : ℝ) = (sig x : ℝ) * (2 : ℝ) ^ expo x := realValue_eq _
  rw [hvalue, mul_zpow_eq_div, tenExponent]
  split_ifs with h
  · rw [show (-expo x).toNat = 0 by omega]
    push_cast
    rfl
  · rw [stripTwos_value, show (expo x).toNat = 0 by omega, pow_zero, mul_one]
    push_cast
    rfl

/-- The exact power of an argument, in the form its comparisons use. -/
theorem isTenPow_rpow (x : F64) :
    IsTenPow (isNeg x) (tenExponent x).1 (tenExponent x).2 ((10 : ℝ) ^ ((valueOf x : ℚ) : ℝ)) := by
  have hvalue := tenExponent_value x
  generalize tenExponent x = mk at hvalue
  obtain ⟨m, k⟩ := mk
  have hm : (valueOfMag (mag x) : ℝ) * (2 ^ k : Nat) = m := by
    rw [← hvalue]
    push_cast
    field_simp
  refine ⟨by positivity, ?_⟩
  rw [← Real.rpow_natCast, ← Real.rpow_mul (by norm_num), valueOf]
  cases isNeg x with
  | true =>
    rw [if_pos rfl, if_pos rfl, neg_one_mul, Rat.cast_neg, neg_mul, hm, Real.rpow_neg (by norm_num), Real.rpow_natCast,
      inv_mul_cancel₀ (by positivity)]
  | false => rw [if_neg Bool.false_ne_true, if_neg Bool.false_ne_true, one_mul, hm, Real.rpow_natCast]

/-! The search for the magnitude below. -/

/-- The magnitude is finite and its value is at most `v`. -/
def AtMost (v : ℝ) (r : Nat) : Prop := r < infMag ∧ (valueOfMag r : ℝ) ≤ v

/-- The test of the search. -/
theorem tenPowBelow_test_iff {neg : Bool} {m k : Nat} {v : ℝ} (h : IsTenPow neg m k v) (r : Nat) :
    (decide (r < infMag) && leTenPow neg m k (sigOfMag r) (expOfMag r)) = true ↔ AtMost v r := by
  rw [Bool.and_eq_true, decide_eq_true_eq, leTenPow_iff h, ← realValue_eq, AtMost]

/-- The search ends at the last magnitude that is at most 10^x. -/
theorem tenPowBelow_spec {neg : Bool} {m k : Nat} {v : ℝ} (h : IsTenPow neg m k v) (b r : Nat) (hr : AtMost v r)
    (hnext : ¬ AtMost v (r + 2 ^ b)) :
    AtMost v (tenPowBelow neg m k b r) ∧ ¬ AtMost v (tenPowBelow neg m k b r + 1) := by
  induction b generalizing r with
  | zero => exact ⟨hr, hnext⟩
  | succ b ih =>
    rw [tenPowBelow]
    split_ifs with htest
    · rw [tenPowBelow_test_iff h] at htest
      exact ih _ htest (by rwa [Nat.add_assoc, ← Nat.two_mul, ← pow_succ'])
    · rw [tenPowBelow_test_iff h] at htest
      exact ih _ hr htest

/-! The rounding by the midpoint. -/

/-- `v` is past the midpoint between `a` and its successor, or on it with `a` odd. -/
def RoundsUp (v : ℝ) (a : Nat) : Prop :=
  (valueOfMag a : ℝ) + valueOfMag (a + 1) ≤ 2 * v ∧
    (2 * v ≤ (valueOfMag a : ℝ) + valueOfMag (a + 1) → a % 2 = 1)

/-- The nearer neighbour of `v`, the even one on the midpoint, an overflow cut off at the infinity (00_scope.md R9). -/
theorem roundsTo_of_atMost {v : ℝ} {a r : Nat} (ha : AtMost v a) (hnext : ¬ AtMost v (a + 1))
    (hup : RoundsUp v a → r = a + 1) (hdown : ¬ RoundsUp v a → r = a) :
    ∃ r', RoundsTo v r' ∧ r = min r' infMag := by
  obtain ⟨hfin, hle⟩ := ha
  have hstep : (valueOfMag a : ℝ) < valueOfMag (a + 1) := realValue_strictMono (Nat.lt_succ_self a)
  rcases le_or_gt v (valueOfMag (a + 1) : ℝ) with hbetween | hbeyond
  · have hr : r = a ∨ r = a + 1 := (em (RoundsUp v a)).symm.imp hdown hup
    refine ⟨r, roundsTo_of_between hr hle hbetween (fun h => ?_) (fun h => ?_) fun h => ?_, by omega⟩
    · by_contra hpast
      have := hup ⟨by linarith, fun h' => absurd h' hpast⟩
      omega
    · by_contra hbefore
      have := hdown fun h' => hbefore h'.1
      omega
    · by_cases hu : RoundsUp v a
      · have := hup hu
        have := hu.2 h.le
        omega
      · have hodd : ¬ a % 2 = 1 := fun h' => hu ⟨h.ge, fun _ => h'⟩
        have := hdown hu
        omega
  · have hinf : a + 1 = infMag := by
      by_contra hne
      exact hnext ⟨by omega, hbeyond.le⟩
    obtain ⟨r', hr'⟩ := exists_roundsTo ((Rat.cast_nonneg.2 (valueOfMag_nonneg a)).trans hle)
    have hge : infMag ≤ r' := (roundsTo_self infMag).le_of_le hr' (by rw [← hinf]; exact hbeyond.le)
    exact ⟨r', hr', by rw [hup ⟨by linarith, fun h' => by linarith⟩, hinf, min_eq_right hge]⟩

/-- The midpoint above a magnitude, as `pow10Default` forms it. -/
theorem midpoint_value (a : Nat) :
    2 * (((2 * sigOfMag a + 1 : Nat) : ℝ) * (2 : ℝ) ^ (expOfMag a - 1)) = (valueOfMag a : ℝ) + valueOfMag (a + 1) := by
  rw [valueOfMag_succ, Rat.cast_add, realValue_eq, zpow_sub_one₀ (by norm_num)]
  push_cast
  ring

/-- The test by which `pow10Default` takes the magnitude above. -/
def tenPowUp (neg : Bool) (m k a : Nat) : Bool :=
  if leTenPow neg m k (2 * sigOfMag a + 1) (expOfMag a - 1) then
    if geTenPow neg m k (2 * sigOfMag a + 1) (expOfMag a - 1) then decide (a % 2 = 1) else true
  else false

theorem tenPowUp_iff {neg : Bool} {m k : Nat} {v : ℝ} (h : IsTenPow neg m k v) (a : Nat) :
    tenPowUp neg m k a = true ↔ RoundsUp v a := by
  rw [RoundsUp, ← midpoint_value, mul_le_mul_iff_right₀ (by norm_num), mul_le_mul_iff_right₀ (by norm_num),
    ← leTenPow_iff h, ← geTenPow_iff h, tenPowUp]
  split_ifs <;> simp [*]

/-! The two ranges of arguments. -/

/-- The magnitude of 512, in the form that gives its value. -/
theorem mag_512 : mag (natToF64 512) = (9 + 1022) * 2 ^ 52 + 2 ^ 52 := by decide

/-- Below ±512 the default searches, and rounds by the midpoint (43_channel.md R202). -/
theorem pow10Default_of_lt {x : F64} (hx : isFinite x = true) (h : mag x < mag (natToF64 512)) :
    pow10Default x =
      ofMag false (if tenPowUp (isNeg x) (tenExponent x).1 (tenExponent x).2
          (tenPowBelow (isNeg x) (tenExponent x).1 (tenExponent x).2 63 0)
        then tenPowBelow (isNeg x) (tenExponent x).1 (tenExponent x).2 63 0 + 1
        else tenPowBelow (isNeg x) (tenExponent x).1 (tenExponent x).2 63 0) := by
  rw [pow10Default, isNaN_of_isFinite hx, if_neg Bool.false_ne_true, if_neg h.not_ge]
  rfl

/-- Below ±512 the default is correctly rounded. -/
theorem pow10Default_roundsTo_of_lt {x : F64} (hx : isFinite x = true) (h : mag x < mag (natToF64 512)) :
    ∃ r, RoundsTo ((10 : ℝ) ^ ((valueOf x : ℚ) : ℝ)) r ∧ pow10Default x = ofMag false (min r infMag) := by
  have hpow := isTenPow_rpow x
  obtain ⟨hbelow, hnext⟩ := tenPowBelow_spec hpow 63 0
    ⟨by norm_num, by rw [valueOfMag_zero, Rat.cast_zero]; exact hpow.1.le⟩ fun h' => absurd h'.1 (by norm_num)
  obtain ⟨r, hr, hmin⟩ := roundsTo_of_atMost hbelow hnext (fun hup => if_pos ((tenPowUp_iff hpow _).2 hup))
    fun hdown => if_neg (mt (tenPowUp_iff hpow _).1 hdown)
  exact ⟨r, hr, by rw [pow10Default_of_lt hx h, hmin]⟩

theorem two_pow_le_ten_pow : (2 : ℝ) ^ 1075 ≤ 10 ^ 512 := by
  calc (2 : ℝ) ^ 1075 ≤ 2 ^ (3 * 512) := pow_le_pow_right₀ (by norm_num) (by norm_num)
    _ = (2 ^ 3) ^ 512 := pow_mul _ _ _
    _ ≤ 10 ^ 512 := pow_le_pow_left₀ (by norm_num) (by norm_num) _

/-- A number up to half the smallest subnormal value rounds to 0: on the midpoint 0 is the even one. -/
theorem roundsTo_zero {v : ℝ} (h0 : 0 ≤ v) (h : v ≤ ((2 : ℝ) ^ 1075)⁻¹) : RoundsTo v 0 := by
  have hone : (valueOfMag 1 : ℝ) = 2 * ((2 : ℝ) ^ 1075)⁻¹ := by
    rw [realValue_eq, show sigOfMag 1 = 1 by decide, show expOfMag 1 = 1 - (1075 : Nat) by decide,
      zpow_sub₀ (by norm_num), zpow_natCast, zpow_one, Nat.cast_one, one_mul, div_eq_mul_inv]
  generalize ((2 : ℝ) ^ 1075)⁻¹ = half at h hone
  have hzero : (valueOfMag 0 : ℝ) = 0 := by rw [valueOfMag_zero, Rat.cast_zero]
  exact roundsTo_of_between (a := 0) (.inl rfl) (by linarith) (by rw [hone]; linarith)
    (fun _ => by rw [hone]; linarith) (fun h => absurd h (by norm_num)) fun _ => rfl

/-- A number from 2^1024 on rounds to the infinity or beyond it. -/
theorem infMag_le_of_roundsTo {v : ℝ} {r : Nat} (hr : RoundsTo v r) (h : (2 : ℝ) ^ 1024 ≤ v) : infMag ≤ r := by
  have hinf : (valueOfMag infMag : ℝ) = 2 ^ 1024 := by
    rw [show infMag = (1024 + 1022) * 2 ^ 52 + 2 ^ 52 by norm_num, valueOfMag_two_pow, Rat.cast_pow, Rat.cast_ofNat]
  exact (roundsTo_self infMag).le_of_le hr (hinf.trans_le h)

/-- From ±512 on 10^x overflows, or is below half the smallest subnormal value. -/
theorem pow10Default_roundsTo_of_ge {x : F64} (hx : isFinite x = true) (h : mag (natToF64 512) ≤ mag x) :
    ∃ r, RoundsTo ((10 : ℝ) ^ ((valueOf x : ℚ) : ℝ)) r ∧ pow10Default x = ofMag false (min r infMag) := by
  have h512 : ((512 : Nat) : ℝ) ≤ valueOfMag (mag x) := by
    have hle := realValue_le h
    rw [mag_512, valueOfMag_two_pow] at hle
    exact le_trans (by norm_num) hle
  have hlarge : (2 : ℝ) ^ 1075 ≤ (10 : ℝ) ^ (valueOfMag (mag x) : ℝ) :=
    calc (2 : ℝ) ^ 1075 ≤ 10 ^ 512 := two_pow_le_ten_pow
      _ = (10 : ℝ) ^ ((512 : Nat) : ℝ) := (Real.rpow_natCast _ _).symm
      _ ≤ (10 : ℝ) ^ (valueOfMag (mag x) : ℝ) := Real.rpow_le_rpow_of_exponent_le (by norm_num) h512
  rw [pow10Default, isNaN_of_isFinite hx, if_neg Bool.false_ne_true, if_pos h, valueOf]
  cases isNeg x with
  | true =>
    rw [if_pos rfl, if_pos rfl, neg_one_mul, Rat.cast_neg, Real.rpow_neg (by norm_num)]
    exact ⟨0, roundsTo_zero (by positivity) (inv_anti₀ (by positivity) hlarge), by decide⟩
  | false =>
    rw [if_neg Bool.false_ne_true, if_neg Bool.false_ne_true, one_mul]
    obtain ⟨r, hr⟩ := exists_roundsTo (by positivity : (0 : ℝ) ≤ (10 : ℝ) ^ (valueOfMag (mag x) : ℝ))
    have hinf := infMag_le_of_roundsTo hr ((pow_le_pow_right₀ (by norm_num) (by norm_num)).trans hlarge)
    exact ⟨r, hr, by rw [min_eq_right hinf]; decide⟩

/-- Settles O36: by the two ranges of arguments, and by evaluation at the infinities. -/
theorem powTenDefaultIsCorrectlyRounded : Obligations.PowTenDefaultIsCorrectlyRounded := by
  refine ⟨fun x hx => ?_, by decide, by decide, fun x hx => ?_⟩
  · rcases lt_or_ge (mag x) (mag (natToF64 512)) with hlt | hge
    · exact pow10Default_roundsTo_of_lt hx hlt
    · exact pow10Default_roundsTo_of_ge hx hge
  · rw [pow10Default, if_pos hx]
    decide

end Sys2Proof.Machine
end

section
/-! PROOFS. What SLICE writes, and the patterns it detects as 1 (44_slicer.md R230, R231; 10_state.md R34). -/

namespace Sys2Proof.Machine

/-! SLICE. -/

/-- SLICE of a readable signal succeeds (44_slicer.md R230). -/
theorem execSlice_of_source (dst : BufIdx) {s : State} {ys : List F64} (hys : s.sourceSamples = some ys) :
    execSlice dst s = .next { s.storeBits dst (ys.map sliceBit) with lastErr := .none } := by
  simp only [execSlice, hys, succeed]

/-- Settles O32: the signal is read whole, and the decisions on its samples are stored. -/
theorem sliceDetectsPositiveSamples : Obligations.SliceDetectsPositiveSamples := by
  intro dst s hwritten
  obtain ⟨ys, hys⟩ := State.exists_sourceSamples hwritten
  have hnext := execSlice_of_source dst hys
  obtain ⟨hlen, hbits⟩ := execSlice_bits hnext
  obtain ⟨hothers, hsamples, hbeyond, hhost, hdraws⟩ := bitWriteFrame_storeBits s dst (ys.map sliceBit)
  refine ⟨_, hnext, hlen, fun i hi => ?_, fun i hi => hbeyond i (hlen.trans_le hi), hothers, hsamples, rfl,
    State.storeBits_errSticky s dst _, hhost, hdraws⟩
  obtain ⟨y, hy⟩ := Option.ne_none_iff_exists'.1 (hwritten i hi)
  exact ⟨y, hy, hbits i hi y hy⟩

/-! The threshold. -/

/-- A sample is detected as 1 exactly when it is a number ordered above 0 (00_scope.md R9). -/
theorem sliceBit_eq_true_iff (y : F64) : sliceBit y = true ↔ isNaN y = false ∧ 0 < orderKey y := by
  have hnumber : isNaN posZero = false := by decide
  have hkey : orderKey posZero = 0 := by decide
  simp [sliceBit, fgt, hnumber, hkey]

/-- Without the sign bit the pattern is its magnitude. -/
theorem mag_eq_toNat {x : F64} (h : isNeg x = false) : mag x = x.toNat :=
  Nat.mod_eq_of_lt (not_le.1 (of_decide_eq_false h))

/-- Settles O33: a set sign bit puts the number at or below 0; without it the pattern is the magnitude, and the numbers end at
+∞. -/
theorem sliceThresholdByPattern : Obligations.SliceThresholdByPattern := by
  intro y
  rw [sliceBit_eq_true_iff]
  cases hneg : isNeg y with
  | true =>
    have hkey : orderKey y = -(mag y : Int) := if_pos hneg
    have hlarge : 2 ^ 63 ≤ y.toNat := of_decide_eq_true hneg
    constructor
    · rintro ⟨_, hpos⟩
      omega
    · rintro ⟨_, hle⟩
      omega
  | false =>
    have hkey : orderKey y = (mag y : Int) := if_neg (by rw [hneg]; exact Bool.false_ne_true)
    rw [hkey, isNaN, decide_eq_false_iff_not, not_lt, mag_eq_toNat hneg, Nat.cast_pos]
    exact and_comm

end Sys2Proof.Machine
end

section
/-! PROOFS. How a command ends: which error of the table it raises, and that otherwise it is a success (60_exceptions.md R241 to
R247). -/

namespace Sys2Proof.Machine

/-! The errors of the table (60_exceptions.md R241). -/

/-- The error a command raises, the first of ShapeError and CapacityError when both apply (60_exceptions.md R241, R245). -/
def tableError (s : State) : Instr → Option CommandError
  | .encode code src _ =>
    if (s.buf src).len % messageLength (resolveCode code) ≠ 0 then some .shapeError
    else if 65536 < (s.buf src).len / messageLength (resolveCode code) * codewordLength (resolveCode code) then
      some .capacityError
    else none
  | .decode code src _ =>
    if (s.buf src).len % codewordLength (resolveCode code) ≠ 0 then some .shapeError else none
  | .modulate _ | .channel _ _ | .slice _ => none

theorem tableError_ne_illegalCommand (s : State) (i : Instr) : tableError s i ≠ some .illegalCommand := by
  cases i with
  | encode code src dst => simp only [tableError]; split_ifs <;> simp
  | decode code src dst => simp only [tableError]; split_ifs <;> simp
  | modulate _ | channel _ _ | slice _ => exact nofun

/-- A command of the table's cases raises the error before it reads its source. -/
theorem exec_of_tableError {i : Instr} {s : State} {e : CommandError} (h : tableError s i = some e) :
    exec i s = .next { s with lastErr := errorCode e, errSticky := true } := by
  cases i with
  | encode code src dst =>
    simp only [tableError] at h
    split_ifs at h with hshape hcap <;> cases h
    · exact if_pos hshape
    · exact (if_neg hshape).trans (if_pos hcap)
  | decode code src dst =>
    simp only [tableError] at h
    split_ifs at h with hshape
    cases h
    exact if_pos hshape
  | modulate _ | channel _ _ | slice _ => cases h

/-- A command of none of the table's cases that completes is a success (60_exceptions.md R243). -/
theorem exec_success {i : Instr} {s t : State} (hi : tableError s i = none) (h : exec i s = .next t) :
    t.lastErr = .none ∧ t.errSticky = s.errSticky := by
  cases i with
  | encode code src dst =>
    simp only [tableError] at hi
    split_ifs at hi with hshape hcap
    rcases execEncode_next h with ⟨hs, _⟩ | ⟨_, hc, _⟩ | ⟨_, _, m, _, rfl⟩
    · exact absurd hs hshape
    · exact absurd hc hcap
    · exact ⟨rfl, State.storeBits_errSticky s dst _⟩
  | decode code src dst =>
    simp only [tableError] at hi
    split_ifs at hi with hshape
    rcases execDecode_next h with ⟨hs, _⟩ | ⟨_, r, _, rfl⟩
    · exact absurd hs hshape
    · exact ⟨rfl, State.storeBits_errSticky s dst _⟩
  | modulate src =>
    obtain ⟨m, _, rfl⟩ := execModulate_next h
    exact ⟨rfl, rfl⟩
  | channel chan code =>
    obtain ⟨xs, _, rfl⟩ := channelWith_next h
    exact ⟨rfl, rfl⟩
  | slice dst =>
    obtain ⟨ys, _, rfl⟩ := execSlice_next h
    exact ⟨rfl, State.storeBits_errSticky s dst _⟩

/-- The two ends of a command: a success, or the error of the table (60_exceptions.md R243). -/
theorem exec_next_success_or_tableError {i : Instr} {s t : State} (h : exec i s = .next t) :
    (t.lastErr = .none ∧ t.errSticky = s.errSticky) ∨
    ∃ e, tableError s i = some e ∧ t = { s with lastErr := errorCode e, errSticky := true } := by
  cases hi : tableError s i with
  | none => exact .inl (exec_success hi h)
  | some e => exact .inr ⟨e, rfl, Host.Outcome.next.inj (h.symm.trans (exec_of_tableError hi))⟩

/-- Settles O9: the table is `tableError`, and a word that spells no command raises IllegalCommand. -/
theorem errorsFollowTheTable : Obligations.ErrorsFollowTheTable := by
  intro w s
  cases hd : decode w with
  | error e => exact issueCommand_error hd s
  | ok i =>
    have hraises {e : CommandError} (he : tableError s i = some e) :
        issueCommand w s = .next { s with lastErr := errorCode e, errSticky := true } := by
      rw [issueCommand_ok hd, exec_of_tableError he]
    have hnone (he : tableError s i = none) : ∀ t, issueCommand w s = .next t → t.lastErr = .none := fun t ht =>
      (exec_success he (by rwa [issueCommand_ok hd] at ht)).1
    cases i with
    | encode code src dst =>
      exact ⟨fun hshape => hraises (if_pos hshape),
        fun hshape hcap => hraises ((if_neg (not_not.2 hshape)).trans (if_pos hcap)),
        fun hshape hcap => hnone ((if_neg (not_not.2 hshape)).trans (if_neg hcap.not_gt))⟩
    | decode code src dst =>
      exact ⟨fun hshape => hraises (if_pos hshape), fun hshape => hnone (if_neg (not_not.2 hshape))⟩
    | modulate _ | channel _ _ | slice _ => exact hnone rfl

/-- Settles O10: by the two ends of a command; a word that spells none raises IllegalCommand. -/
theorem commandEndsInSuccessOrError : Obligations.CommandEndsInSuccessOrError := by
  intro w s t h
  rcases issueCommand_next h with rfl | ⟨i, _, hi⟩
  · exact .inr ⟨nofun, rfl⟩
  · rcases exec_next_success_or_tableError hi with hsuccess | ⟨e, _, rfl⟩
    · exact .inl hsuccess
    · exact .inr ⟨by cases e <;> exact nofun, rfl⟩

/-! IllegalCommand (60_exceptions.md R247). -/

/-- No command raises IllegalCommand: it comes from words that spell none. -/
theorem exec_lastErr_ne_illegalCmd {i : Instr} {s t : State} (h : exec i s = .next t) : t.lastErr ≠ .illegalCmd := by
  rcases exec_next_success_or_tableError h with ⟨hsuccess, _⟩ | ⟨e, he, rfl⟩
  · rw [hsuccess]
    exact nofun
  · cases e with
    | illegalCommand => exact absurd he (tableError_ne_illegalCommand s i)
    | shapeError | capacityError => exact nofun

theorem issueCommand_illegalCmd_iff {w : Word} {s t : State} (h : issueCommand w s = .next t) :
    t.lastErr = .illegalCmd ↔ ∃ e, decode w = .error e := by
  cases hd : decode w with
  | error e =>
    rw [issueCommand_error hd] at h
    obtain rfl := Host.Outcome.next.inj h
    exact iff_of_true rfl ⟨e, rfl⟩
  | ok i =>
    rw [issueCommand_ok hd] at h
    exact iff_of_false (exec_lastErr_ne_illegalCmd h) nofun

/-- OP is none of the five commands (30_encoding.md R90). -/
theorem opAssigned_eq_false_iff (w : Word) :
    opAssigned w = false ↔ (w.extractLsb' 0 4).toNat = 0 ∨ 6 ≤ (w.extractLsb' 0 4).toNat := by
  rw [← Bool.not_eq_true, Laws.opAssigned_iff]
  simp only [wordField_eq_extractLsb', Nat.reduceAdd, Nat.reduceSub]
  omega

/-- The one-bit field 7:7 is bit 7. -/
theorem wordField_7_7_eq_zero_iff (w : Word) : wordField w 7 7 = 0 ↔ ¬ w.getLsbD 7 = true := by
  rw [BitVec.getLsbD, Nat.testBit_eq_decide_div_mod_eq, decide_eq_true_eq, wordField]
  omega

/-- A reserved bit is 1 (30_encoding.md R90, R91). -/
theorem reservedClear_eq_false_iff (w : Word) :
    reservedClear w = false ↔
      w.getLsbD 7 = true ∨ w.extractLsb' 10 2 ≠ 0#2 ∨ w.extractLsb' 14 2 ≠ 0#2 ∨ w.extractLsb' 18 14 ≠ 0#14 := by
  have hzero {n : Nat} (x : BitVec n) : x.toNat = 0 ↔ x = 0#n := BitVec.toNat_inj (y := 0#n)
  rw [← Bool.not_eq_true, Laws.reservedClear_iff, wordField_7_7_eq_zero_iff]
  simp only [wordField_eq_extractLsb', Nat.reduceAdd, Nat.reduceSub, hzero, not_and_or, not_not, ne_eq]

/-- Settles O8: no command raises IllegalCommand, and the words that spell none are the reserved ones. -/
theorem illegalCommandExactlyWhenReserved : Obligations.IllegalCommandExactlyWhenReserved := by
  intro w s t h
  rw [issueCommand_illegalCmd_iff h, decode_isError_iff, opAssigned_eq_false_iff, reservedClear_eq_false_iff]

end Sys2Proof.Machine
end

section
/-! PROOFS. Which accesses the bus refuses (60_exceptions.md R248): those that are not full and aligned, those of the unmapped
addresses, and the writes of a length register above the capacity. -/

namespace Sys2Proof.Machine

/-! The unmapped addresses (20_memory.md R62, R68). -/

theorem registerAt_eq_none_iff {n : Nat} (h4 : n % 4 = 0) : registerAt n = none ↔ n = 0x0000C ∨ 0x00034 ≤ n := by
  unfold registerAt
  split
  case h_13 =>
    simp only [imp_false, true_iff] at *
    omega
  all_goals simp

/-- What an address does not reach: the unaligned and the unmapped addresses. -/
theorem busTarget_eq_none_iff (a : BusAddr) : busTarget a = none ↔
    a.toNat % 4 ≠ 0 ∨ a.toNat = 0x0000C ∨ (0x00034 ≤ a.toNat ∧ a.toNat < 0x10000) ∨
      (0x18000 ≤ a.toNat ∧ a.toNat < 0x80000) := by
  rw [busTarget]
  split_ifs with h4
  · rw [mapped]
    split_ifs with hreg hbits hgap hlow
    · rw [registerAt_eq_none_iff h4]
      omega
    all_goals
      simp only [true_iff, false_iff]
      omega
  · exact iff_of_true rfl (.inl h4)

/-! The length registers (20_memory.md R62). -/

/-- The target is a length register, LEN_B0 to LEN_B3 or S_LEN. -/
def Target.isLength : Target → Prop
  | .bufLen _ | .sampleLen => True
  | _ => False

theorem registerAt_isLength_iff {n : Nat} {g : Target} (h : registerAt n = some g) :
    g.isLength ↔ 0x00020 ≤ n ∧ n ≤ 0x00030 := by
  unfold registerAt at h
  split at h <;> cases h <;> simp [Target.isLength]

/-- The length registers stand together in the register map. -/
theorem busTarget_isLength_iff {a : BusAddr} {g : Target} (h : busTarget a = some g) :
    g.isLength ↔ 0x00020 ≤ a.toNat ∧ a.toNat ≤ 0x00030 := by
  rw [busTarget] at h
  split_ifs at h
  rw [mapped] at h
  split_ifs at h
  · exact registerAt_isLength_iff h
  all_goals
    obtain rfl := Option.some.inj h
    simp only [Target.isLength, false_iff]
    omega

/-- A length register refuses a value above the capacity (10_state.md R41, R42). -/
theorem writeTarget_of_long {g : Target} (hg : g.isLength) {v : Word} (hv : 65536 < v.toNat) (s : State) :
    writeTarget v s g = .next (respond .busError s) := by
  cases g with
  | bufLen _ | sampleLen => exact if_neg hv.not_ge
  | _ => exact hg.elim

/-- Every other write of a mapped address that completes is answered OKAY. -/
theorem writeTarget_next_okay {v : Word} {s t : State} {g : Target} (hlegal : ¬ (g.isLength ∧ 65536 < v.toNat))
    (h : writeTarget v s g = .next t) : t.responses = .okay :: s.responses := by
  have ht := writeTarget_next h
  cases g with
  | cmd =>
    obtain ⟨u, hu, rfl⟩ := ht
    obtain ⟨_, _, _, hr⟩ := issueCommand_sameHostSide hu
    rw [respond_responses, hr]
  | bufLen k =>
    rcases ht with ⟨_, rfl⟩ | ⟨hv, _⟩
    · simp [writeBufLen]
    · exact absurd ⟨trivial, hv⟩ hlegal
  | sampleLen =>
    rcases ht with ⟨_, rfl⟩ | ⟨hv, _⟩
    · rfl
    · exact absurd ⟨trivial, hv⟩ hlegal
  | ctrl | bitWord _ _ =>
    obtain rfl : t = _ := ht
    simp [writeBitWord]
  | status | snrLow | snrHigh | seedLow | seedHigh | sampleLow _ | sampleHigh _ =>
    obtain rfl : t = _ := ht
    rfl

/-! Reads and writes. -/

/-- Why the bus refuses a read (20_memory.md R60, R68). -/
def readRefused (a : BusAddr) (width : Nat) : Prop := width ≠ 32 ∨ busTarget a = none

/-- Why the bus refuses a write (20_memory.md R60, R68; 10_state.md R41, R42). -/
def writeRefused (a : BusAddr) (width : Nat) (strobes : BitVec 4) (v : Word) : Prop :=
  width ≠ 32 ∨ strobes ≠ 0b1111#4 ∨ busTarget a = none ∨ (0x00020 ≤ a.toNat ∧ a.toNat ≤ 0x00030 ∧ 65536 < v.toNat)

theorem writeRefused_iff (a : BusAddr) (width : Nat) (strobes : BitVec 4) (v : Word) :
    writeRefused a width strobes v ↔
      width ≠ 32 ∨ strobes ≠ 0b1111#4 ∨ a.toNat % 4 ≠ 0 ∨ a.toNat = 0x0000C ∨
        (0x00034 ≤ a.toNat ∧ a.toNat < 0x10000) ∨ (0x18000 ≤ a.toNat ∧ a.toNat < 0x80000) ∨
        (0x00020 ≤ a.toNat ∧ a.toNat ≤ 0x00030 ∧ 65536 < v.toNat) := by
  rw [writeRefused, busTarget_eq_none_iff, or_assoc, or_assoc, or_assoc]

theorem hostRead_of_refused {a : BusAddr} {width : Nat} (h : readRefused a width) (s : State) :
    hostRead a width s = .next (respond .busError s) := by
  rcases h with hwidth | hnone
  · exact if_pos hwidth
  · simp [hostRead, hnone]

theorem hostRead_next_ne_busError {a : BusAddr} {width : Nat} {s t : State} (hr : ¬ readRefused a width)
    (h : hostRead a width s = .next t) : t.responses ≠ .busError :: s.responses := by
  rcases hostRead_next h with ⟨_, hrefused⟩ | ⟨_, _, w, _, _, rfl⟩
  · exact absurd hrefused hr
  · simp

theorem hostWrite_of_refused {a : BusAddr} {width : Nat} {strobes : BitVec 4} {v : Word}
    (h : writeRefused a width strobes v) (s : State) : hostWrite a width strobes v s = .next (respond .busError s) := by
  by_cases hfull : width ≠ 32 ∨ strobes ≠ 0b1111#4
  · exact if_pos hfull
  · rw [hostWrite, if_neg hfull]
    obtain ⟨hwidth, hstrobes⟩ := not_or.1 hfull
    cases hg : busTarget a with
    | none => rfl
    | some g =>
      obtain ⟨hlo, hhi, hv⟩ := ((h.resolve_left hwidth).resolve_left hstrobes).resolve_left (by simp [hg])
      exact writeTarget_of_long ((busTarget_isLength_iff hg).2 ⟨hlo, hhi⟩) hv s

theorem hostWrite_next_ne_busError {a : BusAddr} {width : Nat} {strobes : BitVec 4} {v : Word} {s t : State}
    (hr : ¬ writeRefused a width strobes v) (h : hostWrite a width strobes v s = .next t) :
    t.responses ≠ .busError :: s.responses := by
  rcases hostWrite_next h with ⟨_, hrefused⟩ | ⟨_, _, g, hg, hw⟩
  · exact absurd (hrefused.imp_right (.imp_right .inl)) hr
  · have hlegal : ¬ (g.isLength ∧ 65536 < v.toNat) := by
      rintro ⟨hlen, hv⟩
      obtain ⟨hlo, hhi⟩ := (busTarget_isLength_iff hg).1 hlen
      exact hr (.inr (.inr (.inr ⟨hlo, hhi, hv⟩)))
    simp [writeTarget_next_okay hlegal hw]

/-- Settles O45: the refused reads and writes are those of the list, and only they are answered with a bus error. -/
theorem busErrorsExactlyWhenRefused : Obligations.BusErrorsExactlyWhenRefused := by
  intro s a rest hp
  rw [step_cons hp]
  cases a with
  | read addr width =>
    simp only [← busTarget_eq_none_iff]
    exact ⟨fun h => hostRead_of_refused h _, fun h t ht => hostRead_next_ne_busError (s := { s with pending := rest }) h ht⟩
  | write addr width strobes v =>
    simp only [← writeRefused_iff]
    exact ⟨fun h => hostWrite_of_refused h _, fun h t ht => hostWrite_next_ne_busError (s := { s with pending := rest }) h ht⟩

end Sys2Proof.Machine
end

section
/-! PROOFS. The state after power-on, and what a command issued at either reset does (70_reset_and_hazards.md R270, R272): every
buffer is empty, so the command stores an empty result and changes nothing. -/

namespace Sys2Proof.Machine

/-! Power-on (70_reset_and_hazards.md R270). -/

@[simp] theorem State.buf_reset (k : BufIdx) : State.reset.buf k = BitBuffer.empty := by
  cases k <;> rfl

/-- Settles O55: the lengths and the registers are those of `State.reset`, and no cell is listed. -/
theorem powerOnState : Obligations.PowerOnState := by
  have hbuf (k : BufIdx) : (State.reset.buf k).len = 0 ∧ ∀ i, State.reset.bit k i = none := by
    simp [State.bit, BitBuffer.empty]
  exact ⟨hbuf, rfl, fun _ => rfl, rfl, rfl, rfl, rfl⟩

/-! Commands on empty buffers (70_reset_and_hazards.md R272). -/

/-- Every buffer has length 0; the cells may hold anything. -/
structure State.AllEmpty (s : State) : Prop where
  buf_len : ∀ k, (s.buf k).len = 0
  samples_len : s.samples.len = 0

theorem State.allEmpty_reset : State.reset.AllEmpty :=
  ⟨fun k => by rw [State.buf_reset]; rfl, rfl⟩

theorem State.allEmpty_softReset (s : State) : (softReset s).AllEmpty :=
  ⟨fun k => by rw [State.buf_softReset]; rfl, rfl⟩

theorem Cells.writePrefix_nil {α : Type} (c : Cells α) : c.writePrefix [] = c := by
  simp [Cells.writePrefix, Cells.ofList]

theorem State.setBuf_buf_self (s : State) (k : BufIdx) : s.setBuf k (s.buf k) = s := by
  cases k <;> rfl

theorem encodeBits_nil (sc : Scheme) : encodeBits sc [] = [] := by
  simp [encodeBits]

theorem decodeBits_nil (sc : Scheme) : decodeBits sc [] = [] := by
  simp [decodeBits]

section
variable {s : State} (h : s.AllEmpty)
include h

theorem State.AllEmpty.sourceBits (k : BufIdx) : s.sourceBits k = some [] := by
  rw [State.sourceBits, h.buf_len, Cells.read]

theorem State.AllEmpty.sourceSamples : s.sourceSamples = some [] := by
  rw [State.sourceSamples, h.samples_len, Cells.read]
  rfl

/-- An empty result in a buffer that is empty already changes nothing. -/
theorem State.AllEmpty.storeBits_nil (k : BufIdx) : s.storeBits k [] = s := by
  rw [State.storeBits, Cells.writePrefix_nil, List.length_nil, ← h.buf_len k]
  exact State.setBuf_buf_self s k

theorem State.AllEmpty.storeSamples_nil : s.storeSamples [] = s := by
  rw [State.storeSamples, List.map_nil, Cells.writePrefix_nil, List.length_nil, ← h.samples_len]

/-- On empty buffers every command succeeds and only clears LAST_ERR: 0 is a multiple of every block length, the sources are
read as empty sequences, and the result is empty. -/
theorem exec_of_allEmpty (i : Instr) : exec i s = .next { s with lastErr := .none } := by
  cases i with
  | encode code src dst =>
    rw [exec, execEncode_of_source (by simp [h.buf_len]) (by simp [h.buf_len]) (h.sourceBits src), encodeBits_nil,
      h.storeBits_nil]
  | decode code src dst =>
    rw [exec, execDecode_of_source (by simp [h.buf_len]) (h.sourceBits src), decodeBits_nil, h.storeBits_nil]
  | modulate src => rw [exec, execModulate_of_source (h.sourceBits src), List.map_nil, h.storeSamples_nil]
  | channel chan code =>
    simp only [exec, execChannel, channelWith, h.sourceSamples, channelLoop_nil, h.storeSamples_nil, succeed]
  | slice dst => rw [exec, execSlice_of_source dst h.sourceSamples, List.map_nil, h.storeBits_nil]

end

/-- Settles O56: after either reset every buffer is empty, so the command only clears LAST_ERR. -/
theorem everyCommandSucceedsAfterReset : Obligations.EveryCommandSucceedsAfterReset := by
  intro i s hs
  have h : s.AllEmpty := by
    rcases hs with rfl | ⟨r, rfl⟩
    · exact State.allEmpty_reset
    · exact State.allEmpty_softReset r
  refine ⟨_, exec_of_allEmpty h i, rfl, fun k => ?_, h.samples_len, fun _ _ => State.bit_mk ..,
    fun _ => rfl, rfl⟩
  rw [State.buf_withLastErr, h.buf_len]

end Sys2Proof.Machine
end

section
/-! PROOFS. The words of the test vectors (95_test_vectors.md V8). -/

namespace Sys2Proof.Laws

/-- A word that agrees with a command's encoding in the bits the command depends on spells the command, whatever its ignored
fields (30_encoding.md R96). -/
theorem decode_of_and_readMask {w : Word} {i : Instr} (hwf : i.wf = true)
    (h : w &&& readMask i = encode i &&& readMask i) : decode w = .ok i :=
  (decode_eq_ok_congr h).2 (decodeOfEncodeIsTheCommand i hwf)

/-- Settles O4: each word is the encoding of its command but for ignored fields: CODE, CHAN and DST of the third word, CODE of
the fifth. -/
theorem sampleWordsDecode : Obligations.SampleWordsDecode :=
  ⟨decode_of_and_readMask rfl rfl, decode_of_and_readMask rfl rfl, decode_of_and_readMask rfl rfl,
    decode_of_and_readMask rfl rfl, decode_of_and_readMask rfl rfl, decode_of_and_readMask rfl rfl⟩

end Sys2Proof.Laws
end
